-- ==== Sys2Proof/Word.lean ====
section
/-! DEFINITION. The word types of HUFFCORE: bytes, 32-bit register values, window offsets and bit
sequences (spec/00_scope.md rules R9, R10). -/

namespace Sys2Proof

/-- A symbol or a byte of the stream (R2: a Symbol is a byte value, 0 to 255). -/
abbrev Byte := BitVec 8

/-- A register value or a command word (R32: every register is 32 bits wide; R110). -/
abbrev Word := BitVec 32

/-- A byte offset in the register window: address bits [10:0], the only ones it decodes (R84). -/
abbrev Offset := BitVec 11

/-- A BitSeq of R10: a finite list of bits, first bit first. -/
abbrev BitSeq := List Bool

end Sys2Proof
end

