-- ==== Sys2Proof/Syntax.lean ====
section
/-! DEFINITION. The 13 commands of HUFFCORE, one constructor per row of spec/opcode_table.json
(spec/30_encoding.md rule R112). The one operand, ARG, is an unsigned byte (R111). -/

namespace Sys2Proof

/-- A command of R112. -/
inductive Instr where
  /-- NOP (R140). -/
  | nop
  /-- SRESET, software reset (R141). -/
  | sreset
  /-- CLR_FREQ, clear the frequency table (R142). -/
  | clrFreq
  /-- BUILD, build the Huffman tree from FREQ (R160). -/
  | build
  /-- DERIVE, derive the length table from the tree (R180). -/
  | derive
  /-- ASSIGN, assign canonical codewords from the length table (R200). -/
  | assign
  /-- HDR_EMIT, write the header of the length table to OUTQ (R260). -/
  | hdrEmit
  /-- HDR_BEGIN, start loading a header (R262). -/
  | hdrBegin
  /-- HDR_BYTE, feed one header byte (R263). -/
  | hdrByte (b : Byte)
  /-- ENC, encode one symbol (R220). -/
  | enc (sym : Byte)
  /-- ENC_FLUSH, close the encode session (R222). -/
  | encFlush
  /-- DEC_FEED, feed one payload byte (R241). -/
  | decFeed (b : Byte)
  /-- DEC_FINISH, take the trailer and close the decode session (R242). -/
  | decFinish (pad : Byte)
  deriving DecidableEq, Repr

/-- The OP byte of each command (R112). -/
def Instr.opcode : Instr → Byte
  | .nop => 0x00#8
  | .sreset => 0x01#8
  | .clrFreq => 0x02#8
  | .build => 0x10#8
  | .derive => 0x11#8
  | .assign => 0x12#8
  | .hdrEmit => 0x20#8
  | .hdrBegin => 0x21#8
  | .hdrByte _ => 0x22#8
  | .enc _ => 0x30#8
  | .encFlush => 0x31#8
  | .decFeed _ => 0x40#8
  | .decFinish _ => 0x41#8

/-- The ARG byte of each command: its operand, and 0 for a command that takes none (R110). -/
def Instr.argByte : Instr → Byte
  | .hdrByte b => b
  | .enc sym => sym
  | .decFeed b => b
  | .decFinish pad => pad
  | .nop => 0#8
  | .sreset => 0#8
  | .clrFreq => 0#8
  | .build => 0#8
  | .derive => 0#8
  | .assign => 0#8
  | .hdrEmit => 0#8
  | .hdrBegin => 0#8
  | .encFlush => 0#8

end Sys2Proof
end

