-- ==== Sys2Proof/WellFormed.lean ====
section
/-! DEFINITION. When a command word is legal (spec/30_encoding.md rules R110, R112, R114): three
checks on its fields. An instruction is well formed when the fields it is written with pass them.
The operand is a byte by its type, so no instruction has an operand out of range. -/

namespace Sys2Proof

/-- OP, bits [31:24] of a command word (R110). -/
def cmdOp (w : Word) : Byte := w.extractLsb' 24 8

/-- RSV, bits [23:8] of a command word (R110). -/
def cmdRsv (w : Word) : BitVec 16 := w.extractLsb' 8 16

/-- ARG, bits [7:0] of a command word (R110). -/
def cmdArg (w : Word) : Byte := w.extractLsb' 0 8

/-- The OP values R112 assigns. -/
def assignedOps : List Byte :=
  [0x00#8, 0x01#8, 0x02#8, 0x10#8, 0x11#8, 0x12#8, 0x20#8, 0x21#8, 0x22#8, 0x30#8, 0x31#8, 0x40#8,
    0x41#8]

/-- The OP values whose command takes an operand (R112, R114). -/
def operandOps : List Byte := [0x22#8, 0x30#8, 0x40#8, 0x41#8]

/-- Check 1 of R114: the OP value is assigned. -/
def opAssigned (op : Byte) : Bool := assignedOps.contains op

/-- Check 2 of R114: the reserved field is 0. -/
def rsvClear (rsv : BitVec 16) : Bool := rsv == 0#16

/-- Check 3 of R114: ARG is 0 unless the command takes an operand. -/
def argAllowed (op arg : Byte) : Bool := operandOps.contains op || arg == 0#8

/-- A command word passes all three checks (R112, R114). -/
def wordLegal (w : Word) : Bool :=
  opAssigned (cmdOp w) && rsvClear (cmdRsv w) && argAllowed (cmdOp w) (cmdArg w)

/-- An instruction is well formed when its OP and ARG pass the checks of a command word. -/
def Instr.wellFormed (i : Instr) : Bool :=
  opAssigned i.opcode && argAllowed i.opcode i.argByte

end Sys2Proof
end

