-- ==== Sys2Proof/Decode.lean ====
section
/-! DEFINITION. The decoder of a command word, total on every word and rejecting by name
(spec/30_encoding.md rules R110 to R114), and the encoder from the same table. -/

namespace Sys2Proof

/-- Why a word is no command (R113 steps 2 and 3). Each raises ILLEGAL_COMMAND (R114). -/
inductive DecodeError where
  /-- OP is not assigned by R112. -/
  | unassignedOp
  /-- RSV is not 0. -/
  | reservedNotZero
  /-- ARG is not 0 and the command takes no operand. -/
  | operandNotTaken
  deriving DecidableEq, Repr

/-- Step 3 of R113 for a command with no operand. -/
def decodeBare (w : Word) (i : Instr) : Except DecodeError Instr :=
  if cmdRsv w ≠ 0#16 then .error .reservedNotZero
  else if cmdArg w ≠ 0#8 then .error .operandNotTaken
  else .ok i

/-- Step 3 of R113 for a command that takes ARG as its operand. -/
def decodeWithArg (w : Word) (mk : Byte → Instr) : Except DecodeError Instr :=
  if cmdRsv w ≠ 0#16 then .error .reservedNotZero else .ok (mk (cmdArg w))

/-- The command a word selects (R112, R113 steps 2 and 3). -/
def decode (w : Word) : Except DecodeError Instr :=
  match (cmdOp w).toNat with
  | 0x00 => decodeBare w .nop
  | 0x01 => decodeBare w .sreset
  | 0x02 => decodeBare w .clrFreq
  | 0x10 => decodeBare w .build
  | 0x11 => decodeBare w .derive
  | 0x12 => decodeBare w .assign
  | 0x20 => decodeBare w .hdrEmit
  | 0x21 => decodeBare w .hdrBegin
  | 0x22 => decodeWithArg w .hdrByte
  | 0x30 => decodeWithArg w .enc
  | 0x31 => decodeBare w .encFlush
  | 0x40 => decodeWithArg w .decFeed
  | 0x41 => decodeWithArg w .decFinish
  | _ => .error .unassignedOp

/-- The word of a command: OP, then RSV = 0, then ARG (R110). -/
def encode (i : Instr) : Word := i.opcode ++ 0#16 ++ i.argByte

/-- The instruction the decoder reads from bits numbered as spec/opcode_table.json numbers them: a
command is one 32-bit word (R115), and every bit above nbits is 0. -/
def decodeTableWord (nbits w : Nat) : Option Instr :=
  if nbits ≤ 32 then (decode (BitVec.ofNat 32 (w % 2 ^ nbits))).toOption else none

end Sys2Proof
end

