-- ==== Sys2Proof/Config.lean ====
section
/-! DEFINITION. The parameters of this hardware (spec/00_scope.md rule R8) and the free values that
the spec leaves open (spec/93_implementation_defined.md). -/

namespace Sys2Proof.Config

/-- L_MAX, the largest code length the block accepts: 255 in this hardware (R8, D10). -/
def lMax : Nat := 255

/-- OUTQ_DEPTH, the capacity of the output queue in bytes (R8, D11). -/
def outqDepth : Nat := 1024

/-- The constant of the ID register, "HUF1" in ASCII (R33). -/
def idValue : Word := 0x48554631#32

/-- A value read while BUSY = 1 from a register whose value R352 leaves unspecified (I11: any
value). It has no body: a claim about such a read holds for every value (log 3). The argument is
the counter bus.freeReads, so each such read is free on its own. -/
opaque busyRead : Nat → Word

/-- BASE, the bus address of the register window: OPEN (R84, D2). No rule of the block depends on
it; the machine's accesses carry window offsets (log 7). -/
opaque base : Nat

end Sys2Proof.Config

namespace Sys2Proof

/-- The parameters of R8 that may differ between builds: configuration, which the model takes as an
argument, and not state (R64). The widths that follow from L_MAX are codeW and dbitsMax. -/
structure Params where
  /-- L_MAX, 1 to 255: a reduced build takes less than 255 (R8, D10, I17). -/
  lMax : Nat
  /-- OUTQ_DEPTH (R8, D11). -/
  outqDepth : Nat
  /-- BASE (R8, R84, I14). -/
  base : Nat
  deriving DecidableEq, Repr

/-- This hardware (R8). -/
def Config.hardware : Params where
  lMax := Config.lMax
  outqDepth := Config.outqDepth
  base := Config.base

/-- A build with another L_MAX, all else as in this hardware (R8). -/
def Config.reducedBuild (lMax : Nat) : Params := { Config.hardware with lMax := lMax }

/-- The values R8 allows L_MAX. -/
def Params.legal (p : Params) : Bool := decide (1 ≤ p.lMax) && decide (p.lMax ≤ 255)

/-- CODE_W, the width of the canonical code counter (R8, R203). -/
def Params.codeW (p : Params) : Nat := p.lMax + 1

/-- DBITS_MAX, the capacity of the decoder's bit buffer (R8, R243). -/
def Params.dbitsMax (p : Params) : Nat := p.lMax + 7

/-- The bus address at which the host finds the register at a window offset (R80, R84). -/
def Params.busAddress (p : Params) (off : Offset) : Nat := p.base + off.toNat

end Sys2Proof
end

