-- ==== Sys2Proof/Machine/State.lean ====
section
/-! DEFINITION. The state of HUFFCORE, every element spec/10_state.md names (rules R32 to R62), the
host's side of the bus, the reasons a step can stop, and the state after reset (rule R65). -/

namespace Sys2Proof.Machine

/-- CTRL.POLICY, the uncompressible-rejection policy (R35). Value 3 is not legal and never stored. -/
inductive Policy where
  /-- 0 = OFF: never reject. -/
  | off
  /-- 1 = ALL8: reject when all 256 symbols have length 8. -/
  | all8
  /-- 2 = NO_SAVINGS: reject when the container would not be smaller than the input. -/
  | noSavings
  deriving DecidableEq, Repr

/-- The cause of the error that set ERR (R300). -/
inductive Cause where
  | none
  | emptyInput
  | codeTooLong
  | uncompressible
  | malformedHeader
  | invalidData
  | illegalCommand
  | sequenceError
  | countOverflow
  | noCode
  | outqOverflow
  deriving DecidableEq, Repr

/-- A node of the tree arena (R51). Children are arena indices. -/
inductive Node where
  /-- A leaf: one symbol and its 32-bit frequency. -/
  | leaf (sym : Byte) (freq : BitVec 32)
  /-- An internal node: the 40-bit sum of its children's frequencies (R167) and their indices. -/
  | internal (freq : BitVec 40) (left right : Nat)
  deriving DecidableEq, Repr

/-- LD_PHASE (R60). -/
inductive LdPhase where
  | n
  | counts
  | syms
  deriving DecidableEq, Repr

/-- The header loader (R60). Entry L of counts and lt, L = 1..255, stands at index L − 1. -/
structure Loader where
  /-- LD_ACTIVE. -/
  active : Bool
  /-- LD_PHASE. -/
  phase : LdPhase
  /-- LD_N, the declared number of lengths. -/
  n : BitVec 8
  /-- LD_COUNTS[1..255]. -/
  counts : Vector (BitVec 8) 255
  /-- LD_IDX, the length whose count or symbols are being read. -/
  idx : BitVec 8
  /-- LD_LEFT, symbols still expected at length LD_IDX. -/
  left : BitVec 9
  /-- LD_TOTAL, the sum of the counts read so far. -/
  total : BitVec 9
  /-- LD_LT, the length table being assembled. -/
  lt : Vector (List Byte) 255
  /-- LD_SEEN, which symbols have been read. -/
  seen : BitVec 256
  /-- LD_POS, the number of header bytes accepted. -/
  pos : BitVec 10
  deriving DecidableEq, Repr

/-- The loader when no load is in progress: every element 0 or empty (R60). LD_PHASE reads N then
(DEDUCED, log 13). -/
def Loader.idle : Loader where
  active := false
  phase := .n
  n := 0#8
  counts := Vector.replicate 255 0#8
  idx := 0#8
  left := 0#9
  total := 0#9
  lt := Vector.replicate 255 []
  seen := 0#256
  pos := 0#10

/-- The width of a host access (R81: only 32 bits is legal). -/
inductive Width where
  | w8
  | w16
  | w32
  deriving DecidableEq, Repr

/-- What the host, or the reset input, does next. -/
inductive BusEvent where
  /-- A read of the register at a window offset (BusRead of R80 when legal). -/
  | read (width : Width) (off : Offset)
  /-- A write of the register at a window offset (BusWrite of R80 when legal). -/
  | write (width : Width) (off : Offset) (v : Word)
  /-- The reset input is asserted and released (R340; log 14). -/
  | reset
  deriving DecidableEq, Repr

/-- One value the host has read, and the offset it read it at (R348). -/
structure ReadRecord where
  off : Offset
  data : Word
  deriving DecidableEq, Repr

/-- The host's side of the bus. These are the model's own fields: the host's program (R30, log 1),
the durations of the commands to come (I13, log 2), what it has read (R348, log 16) and the counter
of free values (R352, log 3). -/
structure Bus where
  /-- The accesses still to come, oldest first. -/
  pending : List BusEvent
  /-- For each command still to come, how many host accesses reach the block before it completes;
  0 where the list has run out. -/
  durations : List Nat
  /-- What the host has read, oldest first. -/
  reads : List ReadRecord
  /-- How many unspecified values have been read. -/
  freeReads : Nat
  deriving DecidableEq, Repr

/-- The command in execution: the word written to CMD, and how many more host accesses reach the
block before it completes (log 2). -/
structure InFlight where
  word : Word
  left : Nat
  deriving DecidableEq, Repr

/-- The state of the machine (spec/10_state.md sections 2 and 3). -/
structure State where
  /-- CTRL.POLICY (R35). -/
  policy : Policy
  /-- CTRL.IE (R35). -/
  ie : Bool
  /-- FREQ[0..255] (R45). -/
  freq : Vector (BitVec 32) 256
  /-- CODE_SEL (R46). -/
  codeSel : BitVec 8
  /-- The command in execution; STATUS.BUSY is 1 exactly while there is one (R31, R36). -/
  cmd : Option InFlight
  /-- ERR (R62). -/
  err : Bool
  /-- CAUSE (R62, R300). -/
  cause : Cause
  /-- ERR_INFO (R62). -/
  errInfo : BitVec 32
  /-- TREE_VALID (R50). -/
  treeValid : Bool
  /-- TREE, the node arena (R51). -/
  tree : List Node
  /-- ROOT (R51). -/
  root : Nat
  /-- NLEAF (R51). -/
  nleaf : Nat
  /-- LT_VALID (R50). -/
  ltValid : Bool
  /-- LT (R52): entry L, L = 1..LT_MAX, stands at index L − 1. -/
  lt : List (List Byte)
  /-- LT_MAX (R53). -/
  ltMax : BitVec 8
  /-- LT_NSYM (R53). -/
  ltNsym : BitVec 9
  /-- CODES_VALID (R50). -/
  codesValid : Bool
  /-- CODE_LEN[0..255] (R54). -/
  codeLen : Vector (BitVec 8) 256
  /-- CODE_VAL[0..255], L_MAX bits each (R54). -/
  codeVal : Vector (BitVec 255) 256
  /-- ENC_ACT (R57). -/
  encAct : Bool
  /-- ENC_ACC (R57). -/
  encAcc : BitSeq
  /-- DEC_ACT (R58). -/
  decAct : Bool
  /-- DBITS (R58). -/
  dbits : BitSeq
  /-- HOLD (R58). -/
  hold : Byte
  /-- HOLD_V (R58). -/
  holdV : Bool
  /-- The header loader, LD_ACTIVE and every LD_* (R60). -/
  ld : Loader
  /-- OUTQ, head first (R61). -/
  outq : List Byte
  /-- The host's side of the bus: the model's own. -/
  bus : Bus
  deriving DecidableEq, Repr

/-- Why the machine stops with a fault. -/
inductive Fault where
  /-- Raised by serving a host access that is not 32 bits wide or not at a multiple of 4 (R81): the
  block answers with a bus error and changes nothing, and the host program is faulty (I8, I19). Safe:
  the run stops where the hardware's host would go on after a bus error (log 6). -/
  | busError (width : Width) (off : Offset)
  deriving DecidableEq, Repr

/-- Why the machine refuses. -/
inductive Refusal where
  /-- Raised by an arm of exec whose command has no meaning yet. Safe. No arm uses it. -/
  | notModelled (mnemonic : String)
  deriving DecidableEq, Repr

/-- The host's side of the bus before anything happens: nothing to do, nothing read. The values are
the model's own (DESIGN CHOICE, logs 1, 2, 3, 16). -/
def Bus.empty : Bus where
  pending := []
  durations := []
  reads := []
  freeReads := 0

/-- The machine right after reset (R65, R341). -/
def State.reset : State where
  policy := .all8
  ie := false
  freq := Vector.replicate 256 0#32
  codeSel := 0#8
  cmd := none
  err := false
  cause := .none
  errInfo := 0#32
  treeValid := false
  tree := []
  root := 0
  nleaf := 0
  ltValid := false
  lt := []
  ltMax := 0#8
  ltNsym := 0#9
  codesValid := false
  codeLen := Vector.replicate 256 0#8
  codeVal := Vector.replicate 256 0#255
  encAct := false
  encAcc := []
  decAct := false
  dbits := []
  hold := 0#8
  holdV := false
  ld := Loader.idle
  outq := []
  bus := Bus.empty

end Sys2Proof.Machine
end

