-- ==== Sys2Proof/Machine/Operands.lean ====
section
/-! DEFINITION. The operand forms of HUFFCORE: bit sequences (spec/00_scope.md rule R10,
spec/20_memory.md rules R87, R88), the files indexed by a symbol (R11), the length table and the
loader's tables indexed by a length, the decode view (spec/10_state.md rule R56), and the register
at a window offset (R32). -/

namespace Sys2Proof.Machine

/-! ### Bit sequences -/

/-- bits_msb(v, n): the n bits of v, most significant first (R10, R88). R10 defines it for v < 2^n
alone; of a larger v, which no run reaches, it gives the low n bits (DESIGN CHOICE, log 22). -/
def bitsMsb (v n : Nat) : BitSeq := (List.range n).map fun k => v.testBit (n - 1 - k)

/-- val(b): the integer whose bits, most significant first, are b (R10). -/
def bitsVal (b : BitSeq) : Nat := b.foldl (fun acc x => 2 * acc + x.toNat) 0

/-- zeros(n): n zero bits (R10). -/
def zeroBits (n : Nat) : BitSeq := List.replicate n false

/-- The 8 bits a byte adds to the stream (R87). -/
def byteBits (b : Byte) : BitSeq := bitsMsb b.toNat 8

/-- The byte whose bit 7 is the first of 8 bits (R87). Of more than 8, which no run reaches, it gives
the last 8 (DESIGN CHOICE, log 22). -/
def bitsByte (b : BitSeq) : Byte := BitVec.ofNat 8 (bitsVal b)

/-- The first n whole bytes of a bit sequence, in stream order (R87). -/
def packBytes : Nat → BitSeq → List Byte
  | 0, _ => []
  | n + 1, bits => bitsByte (bits.take 8) :: packBytes n (bits.drop 8)

/-- The bits of a list of bytes, in stream order (R87). -/
def unpackBytes (bytes : List Byte) : BitSeq := bytes.flatMap byteBits

/-! ### Files and tables -/

/-- The 256 symbols in ascending order (R2). -/
def symbols : List Byte := (List.range 256).map (BitVec.ofNat 8)

/-- x[s], an entry of a file indexed by a symbol (R11). -/
def fileGet {α : Type} (t : Vector α 256) (sym : Byte) : α := t[sym.toNat]'(sym.isLt)

/-- x[s] <- v (R11). -/
def fileSet {α : Type} (t : Vector α 256) (sym : Byte) (v : α) : Vector α 256 :=
  t.set sym.toNat v sym.isLt

/-- Entry L, counting from 1, of a length table: empty past its end (R52). -/
def ltEntry (lt : List (List Byte)) (len : Nat) : List Byte := lt.getD (len - 1) []

/-- The lengths 1..n in ascending order. -/
def lengths (n : Nat) : List Nat := (List.range n).map (· + 1)

/-- LD_COUNTS[L]: 0 outside 1..255, which no run reaches (R60, log 11). -/
def Loader.count (ld : Loader) (len : Nat) : Nat :=
  if h : 1 ≤ len ∧ len ≤ 255 then (ld.counts[len - 1]'(by omega)).toNat else 0

/-- LD_COUNTS[L] <- b: nothing outside 1..255, which no run reaches (R60, log 11). -/
def Loader.setCount (ld : Loader) (len : Nat) (b : Byte) : Loader :=
  if h : 1 ≤ len ∧ len ≤ 255 then { ld with counts := ld.counts.set (len - 1) b (by omega) } else ld

/-- LD_LT[L]: empty outside 1..255, which no run reaches (R60, log 11). -/
def Loader.entry (ld : Loader) (len : Nat) : List Byte :=
  if h : 1 ≤ len ∧ len ≤ 255 then ld.lt[len - 1]'(by omega) else []

/-- LD_LT[L].append(b): nothing outside 1..255, which no run reaches (R60, log 11). -/
def Loader.append (ld : Loader) (len : Nat) (b : Byte) : Loader :=
  if h : 1 ≤ len ∧ len ≤ 255 then
    { ld with lt := ld.lt.set (len - 1) (ld.lt[len - 1]'(by omega) ++ [b]) (by omega) }
  else ld

/-- The least L > after with LD_COUNTS[L] > 0 (R265, R266). There is one wherever a run asks for it;
LD_N stands for "none" in states no run reaches (log 11). -/
def Loader.nextLength (ld : Loader) (after : Nat) : Nat :=
  ((lengths 255).find? fun len => decide (after < len) && decide (0 < ld.count len)).getD ld.n.toNat

/-! ### The decode view -/

/-- DMAP(L, v): the symbol whose codeword is bits_msb(v, L), if there is one (R56, R205). The first
in symbol order where two symbols share a codeword, which no run reaches (log 9). -/
def dmapLookup (codeLen : Vector (BitVec 8) 256) (codeVal : Vector (BitVec 255) 256)
    (len v : Nat) : Option Byte :=
  symbols.find? fun sym =>
    decide (0 < len) && decide ((fileGet codeLen sym).toNat = len) &&
      decide ((fileGet codeVal sym).toNat = v)

/-! ### Registers -/

/-- The registers of R32, with reserved offsets. -/
inductive Reg where
  | id
  | param
  | ctrl
  | status
  | cause
  | errInfo
  | cmd
  | outData
  | outCount
  | maxLen
  | nSym
  | bitPos
  | codeSel
  | codeLen
  | codeWord (k : Nat)
  | freq (sym : Byte)
  | reserved
  deriving DecidableEq, Repr

/-- The register at a (32-bit aligned) window offset (R32). -/
def regAt (off : Offset) : Reg :=
  let o := off.toNat
  if 0x400 ≤ o then .freq (BitVec.ofNat 8 ((o - 0x400) / 4))
  else if 0x058 ≤ o then .reserved
  else if 0x038 ≤ o then .codeWord ((o - 0x038) / 4)
  else if o = 0x000 then .id
  else if o = 0x004 then .param
  else if o = 0x008 then .ctrl
  else if o = 0x00C then .status
  else if o = 0x010 then .cause
  else if o = 0x014 then .errInfo
  else if o = 0x018 then .cmd
  else if o = 0x01C then .outData
  else if o = 0x020 then .outCount
  else if o = 0x024 then .maxLen
  else if o = 0x028 then .nSym
  else if o = 0x02C then .bitPos
  else if o = 0x030 then .codeSel
  else if o = 0x034 then .codeLen
  else .reserved

/-- The offset of FREQ[s] (R32, R45). -/
def freqOffset (sym : Byte) : Offset := BitVec.ofNat 11 (0x400 + 4 * sym.toNat)

/-- An access is legal: 32 bits wide, at an offset that is a multiple of 4 (R81). -/
def accessLegal (width : Width) (off : Offset) : Bool :=
  decide (width = .w32) && decide (off.toNat % 4 = 0)

end Sys2Proof.Machine
end

