-- ==== Sys2Proof/Machine/Flags.lean ====
section
/-! DEFINITION. The flags and status views of HUFFCORE: the codes of POLICY and CAUSE, BUSY, IRQ,
STATUS, CTRL and BITPOS (spec/10_state.md rules R35, R36, R44, R63, spec/60_exceptions.md rule
R300). -/

namespace Sys2Proof.Machine

/-- The 2-bit value of POLICY (R35). -/
def Policy.code : Policy → BitVec 2
  | .off => 0#2
  | .all8 => 1#2
  | .noSavings => 2#2

/-- POLICY after a write of these two bits: 3 leaves it unchanged (R35, I4). -/
def Policy.written (old : Policy) (bits : BitVec 2) : Policy :=
  if bits = 0#2 then .off
  else if bits = 1#2 then .all8
  else if bits = 2#2 then .noSavings
  else old

/-- The cause codes of R300. -/
def Cause.code : Cause → BitVec 8
  | .none => 0#8
  | .emptyInput => 1#8
  | .codeTooLong => 2#8
  | .uncompressible => 3#8
  | .malformedHeader => 4#8
  | .invalidData => 5#8
  | .illegalCommand => 6#8
  | .sequenceError => 7#8
  | .countOverflow => 8#8
  | .noCode => 9#8
  | .outqOverflow => 10#8

/-- One bit of a register as a word with that bit at position n. -/
def flagBit (b : Bool) (n : Nat) : Word := if b then 1#32 <<< n else 0#32

/-- STATUS.BUSY: a command is in execution (R31, R36). -/
def State.busy (s : State) : Bool := s.cmd.isSome

/-- IRQ = ERR ∧ CTRL.IE (R63, R320). -/
def State.irq (s : State) : Bool := s.err && s.ie

/-- CTRL: POLICY in bits [1:0], IE in bit 8, the rest 0 (R35). -/
def State.ctrlWord (s : State) : Word := s.policy.code.setWidth 32 ||| flagBit s.ie 8

/-- STATUS (R36). -/
def State.statusWord (s : State) : Word :=
  flagBit s.busy 0 ||| flagBit s.err 1 ||| flagBit s.treeValid 2 ||| flagBit s.ltValid 3 |||
    flagBit s.codesValid 4 ||| flagBit s.ld.active 5 ||| flagBit s.encAct 6 |||
    flagBit s.decAct 7 ||| flagBit s.holdV 8 ||| flagBit s.irq 9

/-- BITPOS (R44): len(ENC_ACC) in bits [2:0], the pending bits aligned to bit 15, len(DBITS) in bits
[24:16]. A length beyond its field, which no run reaches, reads as its low bits (log 22). -/
def State.bitPosWord (s : State) : Word :=
  (BitVec.ofNat 3 s.encAcc.length).setWidth 32 |||
    ((bitsByte (s.encAcc ++ zeroBits (8 - s.encAcc.length))).setWidth 32 <<< 8) |||
    ((BitVec.ofNat 9 s.dbits.length).setWidth 32 <<< 16)

/-- PARAM: L_MAX in bits [7:0], OUTQ_DEPTH in bits [31:16] (R34). -/
def paramWord (p : Params) : Word :=
  (BitVec.ofNat 8 p.lMax).setWidth 32 ||| ((BitVec.ofNat 16 p.outqDepth).setWidth 32 <<< 16)

/-- CODE_WORDk: bits 32k+31 to 32k of the selected codeword, zero-extended to 256 bits (R48). -/
def State.codeWord (s : State) (k : Nat) : Word :=
  ((fileGet s.codeVal s.codeSel).setWidth 256).extractLsb' (32 * k) 32

end Sys2Proof.Machine
end

