-- ==== Sys2Proof/Machine/Ops.lean ====
section
/-! DEFINITION. The operations the commands share: taking an error and the return from one
(spec/60_exceptions.md rules R301 to R303), completing a command atomically (spec/10_state.md rule
R31), emptying what a validity flag guards (R50), pushing to the output queue (R61), reset
(spec/70_reset_and_hazards.md rules R340, R342), and the host's record of what it reads (R348). -/

namespace Sys2Proof.Machine

/-- `raise <Cause>(info)` (R12): what an error records. -/
structure Raise where
  cause : Cause
  info : Word
  deriving DecidableEq, Repr

/-- Taking an error (R301): every write of the command is discarded, then ERR <- 1, CAUSE <- code,
ERR_INFO <- info. There is nothing else to save and nowhere to go. -/
def State.takeError (s : State) (r : Raise) : State :=
  { s with err := true, cause := r.cause, errInfo := r.info }

/-- How a command ends (R31, R301, R302): ignored while ERR = 1; otherwise all of its results
together, or the error and nothing else. Every command but SRESET ends here. -/
def completeCommand (s : State) (result : Except Raise State) : Host.Outcome State Fault Refusal :=
  if s.err then .next s
  else
    match result with
    | .ok t => .next t
    | .error r => .next (s.takeError r)

/-- SEQUENCE_ERROR with the OP byte as its info (R300, R306). -/
def sequenceError (op : Byte) : Raise := ⟨.sequenceError, op.setWidth 32⟩

/-- MALFORMED_HEADER with a reason and a byte position or count (R300). -/
def malformedHeader (reason : Byte) (pos : BitVec 10) : Raise :=
  ⟨.malformedHeader, (reason.setWidth 32 <<< 24) ||| pos.setWidth 32⟩

/-- INVALID_DATA with a reason and the number of unconsumed bits (R300). -/
def invalidData (reason : Byte) (unconsumed : Nat) : Raise :=
  ⟨.invalidData, (BitVec.ofNat 32 unconsumed <<< 16) ||| reason.setWidth 32⟩

/-- TREE_VALID <- 0, which empties TREE (R50); ROOT and NLEAF return to their reset values with it
(DEDUCED, log 13). -/
def State.clearTree (s : State) : State :=
  { s with treeValid := false, tree := [], root := 0, nleaf := 0 }

/-- LT_VALID <- 0, which empties LT, LT_MAX and LT_NSYM (R50). -/
def State.clearTable (s : State) : State :=
  { s with ltValid := false, lt := [], ltMax := 0#8, ltNsym := 0#9 }

/-- CODES_VALID <- 0, which clears CODE_LEN and CODE_VAL, and DMAP with them (R50). -/
def State.clearCodes (s : State) : State :=
  { s with
    codesValid := false
    codeLen := Vector.replicate 256 0#8
    codeVal := Vector.replicate 256 0#255 }

/-- OUTQ.push(out) (R12, R61). -/
def State.pushBytes (s : State) (out : List Byte) : State := { s with outq := s.outq ++ out }

/-- The output-queue check that every pushing command makes last (R61, R113 step 4, R305): what the
command leaves if its bytes fit, OUTQ_OVERFLOW with their number if they do not. -/
def pushIfRoom (p : Params) (s : State) (out : List Byte) : Except Raise State :=
  if s.outq.length + out.length > p.outqDepth then
    .error ⟨.outqOverflow, BitVec.ofNat 32 out.length⟩
  else .ok (s.pushBytes out)

/-- The reset input (R340): every element takes its reset value and a command in execution is
abandoned. The host's side of the bus is not the block's and stays (log 14). -/
def State.hardReset (s : State) : State := { State.reset with bus := s.bus }

/-- SRESET (R141, R342), the return from an error (R303): every element takes its reset value, except
that CTRL keeps its value. The command in execution is the model's business (log 2) and the host's
side of the bus is not the block's. -/
def State.softReset (s : State) : State :=
  { State.reset with policy := s.policy, ie := s.ie, cmd := s.cmd, bus := s.bus }

/-- The value of a read reaches the host (R80, R348). -/
def State.recordRead (s : State) (off : Offset) (v : Word) : State :=
  { s with bus := { s.bus with reads := s.bus.reads ++ [⟨off, v⟩] } }

end Sys2Proof.Machine
end

