-- ==== Sys2Proof/Machine/BusPort.lean ====
section
/-! DEFINITION. The register window (spec/10_state.md rules R32 to R49), the host's accesses and
their ordering (spec/20_memory.md rules R80 to R92), what an access does while BUSY = 1
(spec/70_reset_and_hazards.md rule R352), and which command runs next. -/

namespace Sys2Proof.Machine

/-- OUT_DATA: VALID in bit 31 and the head of OUTQ in bits [7:0]; 0 when OUTQ is empty (R40). -/
def State.outDataWord (s : State) : Word :=
  match s.outq with
  | [] => 0#32
  | b :: _ => 0x80000000#32 ||| b.setWidth 32

/-- The value each register reads as while BUSY = 0 (R33 to R49), in this hardware unless another
build is named. CMD and the reserved offsets read 0. An OUTQ longer than OUT_COUNT's field, which no
run reaches, reads as the low bits of its length (log 22). -/
def State.regWord (s : State) (reg : Reg) (p : Params := Config.hardware) : Word :=
  match reg with
  | .id => Config.idValue
  | .param => paramWord p
  | .ctrl => s.ctrlWord
  | .status => s.statusWord
  | .cause => s.cause.code.setWidth 32
  | .errInfo => s.errInfo
  | .cmd => 0#32
  | .outData => s.outDataWord
  | .outCount => (BitVec.ofNat 11 s.outq.length).setWidth 32
  | .maxLen => s.ltMax.setWidth 32
  | .nSym => s.ltNsym.setWidth 32
  | .bitPos => s.bitPosWord
  | .codeSel => s.codeSel.setWidth 32
  | .codeLen => (fileGet s.codeLen s.codeSel).setWidth 32
  | .codeWord k => s.codeWord k
  | .freq sym => fileGet s.freq sym
  | .reserved => 0#32

/-- A read while BUSY = 0 (R80, R85): the value reaches the host, and OUT_DATA pops OUTQ when it is
not empty (R40). No other read has a side effect. -/
def State.readIdle (p : Params) (s : State) (off : Offset) : State :=
  let t := s.recordRead off (s.regWord (regAt off) p)
  match regAt off with
  | .outData => { t with outq := t.outq.tail }
  | _ => t

/-- An unspecified value reaches the host, a fresh one each time (R352, I11; log 3). -/
def State.readFree (s : State) (off : Offset) : State :=
  let t := s.recordRead off (Config.busyRead s.bus.freeReads)
  { t with bus := { t.bus with freeReads := s.bus.freeReads + 1 } }

/-- A read while BUSY = 1 (R352): STATUS, ID, PARAM and CTRL read as always, OUT_DATA reads 0 and pops
nothing, and any other read returns an unspecified value (log 3, log 5). -/
def State.readBusy (p : Params) (s : State) (off : Offset) : State :=
  match regAt off with
  | .status => s.recordRead off s.statusWord
  | .id => s.recordRead off Config.idValue
  | .param => s.recordRead off (paramWord p)
  | .ctrl => s.recordRead off s.ctrlWord
  | .outData => s.recordRead off 0#32
  | _ => s.readFree off

/-- The word of SRESET, the only one that is not ignored while ERR = 1 (R113 step 1). -/
def sresetWord : Word := 0x01000000#32

/-- A CMD write while BUSY = 0 (R39, R31, R113): the word is latched and BUSY reads 1 until the
command completes; while ERR = 1 every word but SRESET is ignored (R302; log 4). -/
def State.issue (s : State) (w : Word) : State :=
  if s.err ∧ w ≠ sresetWord then s
  else
    { s with
      cmd := some ⟨w, s.bus.durations.headD 0⟩
      bus := { s.bus with durations := s.bus.durations.tail } }

/-- A CTRL write (R35): POLICY unless the two bits are 3, and IE; the other bits are ignored. -/
def State.writeCtrl (s : State) (v : Word) : State :=
  { s with policy := s.policy.written (v.extractLsb' 0 2), ie := v.getLsbD 8 }

/-- A write while BUSY = 0 (R32, R39, R45, R46, R49): writes to read-only registers and reserved
offsets are ignored. -/
def State.writeIdle (s : State) (off : Offset) (v : Word) : State :=
  match regAt off with
  | .ctrl => s.writeCtrl v
  | .cmd => s.issue v
  | .codeSel => { s with codeSel := v.extractLsb' 0 8 }
  | .freq sym => { s with freq := fileSet s.freq sym v }
  | _ => s

/-- A legal read by the host, of this hardware unless another build is named. -/
def State.busRead (s : State) (off : Offset) (p : Params := Config.hardware) : State :=
  if s.busy then s.readBusy p off else s.readIdle p off

/-- A legal write by the host: dropped while BUSY = 1 (R352). -/
def State.busWrite (s : State) (off : Offset) (v : Word) : State :=
  if s.busy then s else s.writeIdle off v

/-- The next event is taken off the host's list, and the command in execution, if there is one, is
one access nearer to its completion (log 2). -/
def State.takeEvent (s : State) (rest : List BusEvent) : State :=
  { s with
    cmd := s.cmd.map fun c => { c with left := c.left - 1 }
    bus := { s.bus with pending := rest } }

/-- One event of the host or of the reset input (R80, R81, R340). An access that is not legal is a
fault of the host program: the block answers it with a bus error and changes nothing (R81, R304). -/
def serveEvent (p : Params) (e : BusEvent) (s : State) : Host.Outcome State Fault Refusal :=
  match e with
  | .read width off =>
    if accessLegal width off then .next (s.busRead off p) else .fault (.busError width off)
  | .write width off v =>
    if accessLegal width off then .next (s.busWrite off v) else .fault (.busError width off)
  | .reset => .next s.hardReset

/-- The host's next event (R90); with none to come the block holds its state (R326, log 15). -/
def serveHost (p : Params) (s : State) : Host.Outcome State Fault Refusal :=
  match s.bus.pending with
  | [] => .next s
  | e :: rest => serveEvent p e (s.takeEvent rest)

/-- The command that completes next and the state it runs in, with BUSY = 0 again: the command in
execution, once no further host access reaches the block before it (R31, R90; log 2). -/
def fetchCommand (s : State) : Option (Word × State) :=
  match s.cmd with
  | none => none
  | some c =>
    if c.left = 0 ∨ s.bus.pending = [] then some (c.word, { s with cmd := none }) else none

/-- A command word stands in execution and completes at the next step, as after a CMD write. -/
def State.latch (s : State) (w : Word) : State := { s with cmd := some ⟨w, 0⟩ }

end Sys2Proof.Machine
end

