-- ==== Sys2Proof/Machine/BitPacker.lean ====
section
/-! DEFINITION. The bitstring encoder, ENC and ENC_FLUSH (spec/44_bit_packer.md rules R220 to
R227). -/

namespace Sys2Proof.Machine

/-- The codeword of a symbol, first bit first: bits_msb(CODE_VAL[s], CODE_LEN[s]) (R54, R88).
A CODE_VAL of 2^CODE_LEN or more, which no run reaches, gives its low bits (log 22). -/
def State.codeword (s : State) (sym : Byte) : BitSeq :=
  bitsMsb (fileGet s.codeVal sym).toNat (fileGet s.codeLen sym).toNat

/-- The pending bits followed by the symbol's codeword (R220). -/
def State.encBits (s : State) (sym : Byte) : BitSeq := s.encAcc ++ s.codeword sym

/-- What ENC leaves, or the error it raises (R220): the whole bytes are pushed, the bits short of a
byte stay pending. -/
def encResult (p : Params) (sym : Byte) (s : State) : Except Raise State :=
  if s.codesValid = false then .error (sequenceError 0x30#8)
  else if fileGet s.codeLen sym = 0#8 then .error ⟨.noCode, sym.setWidth 32⟩
  else
    let bits := s.encBits sym
    let whole := bits.length / 8
    pushIfRoom p { s with encAcc := bits.drop (8 * whole), encAct := true } (packBytes whole bits)

/-- ENC (R220). -/
def execEnc (sym : Byte) (s : State) : Host.Outcome State Fault Refusal :=
  completeCommand s (encResult Config.hardware sym s)

/-- The bytes ENC_FLUSH pushes (R222, R223): the last chunk padded with zeros, if bits are pending,
then the padding count. More than 7 pending bits, which no run reaches, are padded by none (log 22). -/
def flushBytes (acc : BitSeq) : List Byte :=
  if acc.length > 0 then
    [bitsByte (acc ++ zeroBits (8 - acc.length)), BitVec.ofNat 8 (8 - acc.length)]
  else [0#8]

/-- What ENC_FLUSH leaves, or the error it raises (R222). -/
def encFlushResult (p : Params) (s : State) : Except Raise State :=
  if s.codesValid = false then .error (sequenceError 0x31#8)
  else pushIfRoom p { s with encAcc := [], encAct := false } (flushBytes s.encAcc)

/-- ENC_FLUSH (R222). -/
def execEncFlush (s : State) : Host.Outcome State Fault Refusal :=
  completeCommand s (encFlushResult Config.hardware s)

end Sys2Proof.Machine
end

