-- ==== Sys2Proof/Machine/BitUnpacker.lean ====
section
/-! DEFINITION. The bitstring decoder, DEC_FEED and DEC_FINISH (spec/45_bit_unpacker.md rules R240
to R248). -/

namespace Sys2Proof.Machine

/-- The least length k in 1..min(len(bits), maxlen) whose first k bits are a codeword, and the symbol
it stands for (R240). -/
def matchCode (dmap : Nat → Nat → Option Byte) (bits : BitSeq) (maxLen : Nat) :
    Option (Nat × Byte) :=
  (lengths (min bits.length maxLen)).findSome? fun k =>
    (dmap k (bitsVal (bits.take k))).map fun sym => (k, sym)

/-- The loop of R240, with a bound on the number of rounds. Its result is the bits left over and the
symbols decoded, or FAIL with the number of bits that match nothing. -/
def greedyLoop (dmap : Nat → Nat → Option Byte) (maxLen : Nat) :
    Nat → BitSeq → Except Nat (BitSeq × List Byte)
  | 0, bits => .error bits.length
  | fuel + 1, bits =>
    match matchCode dmap bits maxLen with
    | some (k, sym) =>
      match greedyLoop dmap maxLen fuel (bits.drop k) with
      | .ok (rest, out) => .ok (rest, sym :: out)
      | .error m => .error m
    | none => if bits.length ≥ maxLen then .error bits.length else .ok (bits, [])

/-- greedy(bits, maxlen) of R240. Each round but the last consumes a bit, so len(bits) + 1 rounds are
enough. -/
def greedy (dmap : Nat → Nat → Option Byte) (bits : BitSeq) (maxLen : Nat) :
    Except Nat (BitSeq × List Byte) :=
  greedyLoop dmap maxLen (bits.length + 1) bits

/-- DMAP of the codes held (R56). -/
def State.dmap (s : State) (len v : Nat) : Option Byte := dmapLookup s.codeLen s.codeVal len v

/-- Decode from the front of bits with the codes held; a failure is INVALID_DATA reason 1 (R241,
R242). -/
def State.decodeBits (s : State) (bits : BitSeq) : Except Raise (BitSeq × List Byte) :=
  match greedy s.dmap bits s.ltMax.toNat with
  | .error m => .error (invalidData 1#8 m)
  | .ok r => .ok r

/-- The first half of DEC_FEED (R241): a held byte is not the last, so it is expanded and decoded;
with no byte held nothing is decoded. -/
def State.feedBits (s : State) : Except Raise (BitSeq × List Byte) :=
  if s.holdV then s.decodeBits (s.dbits ++ byteBits s.hold) else .ok (s.dbits, [])

/-- What DEC_FEED leaves, or the error it raises (R241). -/
def decFeedResult (p : Params) (b : Byte) (s : State) : Except Raise State :=
  if s.codesValid = false then .error (sequenceError 0x40#8)
  else
    match s.feedBits with
    | .error r => .error r
    | .ok (bits, out) =>
      pushIfRoom p { s with dbits := bits, hold := b, holdV := true, decAct := true } out

/-- DEC_FEED (R241). -/
def execDecFeed (b : Byte) (s : State) : Host.Outcome State Fault Refusal :=
  completeCommand s (decFeedResult Config.hardware b s)

/-- The bits of the final payload byte less its padding (R242): none when no byte is held. -/
def State.tailBits (s : State) (pad : Byte) : BitSeq :=
  if s.holdV then (byteBits s.hold).take (8 - pad.toNat) else []

/-- What DEC_FINISH leaves, or the error it raises, the checks in the order of R242. -/
def decFinishResult (p : Params) (pad : Byte) (s : State) : Except Raise State :=
  if s.codesValid = false then .error (sequenceError 0x41#8)
  else if pad.toNat > 7 then .error (invalidData 3#8 0)
  else if s.holdV = false ∧ pad ≠ 0#8 then .error (invalidData 4#8 0)
  else
    match s.decodeBits (s.dbits ++ s.tailBits pad) with
    | .error r => .error r
    | .ok (bits, out) =>
      if bits ≠ [] then .error (invalidData 2#8 bits.length)
      else pushIfRoom p { s with dbits := [], hold := 0#8, holdV := false, decAct := false } out

/-- DEC_FINISH (R242). -/
def execDecFinish (pad : Byte) (s : State) : Host.Outcome State Fault Refusal :=
  completeCommand s (decFinishResult Config.hardware pad s)

end Sys2Proof.Machine
end

