-- ==== Sys2Proof/Machine/CodeAssigner.lean ====
section
/-! DEFINITION. The canonical code assigner, ASSIGN (spec/43_code_assigner.md rules R200 to R207). -/

namespace Sys2Proof.Machine

/-- The code tables being assigned, and the canonical counter, CODE_W = 256 bits wide (R203). -/
structure CodeTables where
  len : Vector (BitVec 8) 256
  val : Vector (BitVec 255) 256
  counter : BitVec 256
  deriving DecidableEq, Repr

/-- The tables and the counter before the first length (R200). -/
def CodeTables.zero : CodeTables where
  len := Vector.replicate 256 0#8
  val := Vector.replicate 256 0#255
  counter := 0#256

/-- One symbol of length L takes the counter's value, and the counter is incremented (R201). The
value is less than 2^L (R203), so its low L_MAX bits are all of it. -/
def CodeTables.giveCode (len : Nat) (t : CodeTables) (sym : Byte) : CodeTables where
  len := fileSet t.len sym (BitVec.ofNat 8 len)
  val := fileSet t.val sym (t.counter.setWidth 255)
  counter := t.counter + 1#256

/-- One length: the counter is shifted left by one (R202: every length is processed, so each shift
is by one), then each symbol of LT[L] takes a code in list order (R201). -/
def CodeTables.giveLength (lt : List (List Byte)) (t : CodeTables) (len : Nat) : CodeTables :=
  (ltEntry lt len).foldl (CodeTables.giveCode len) { t with counter := t.counter <<< 1 }

/-- The whole assignment over lengths 1..LT_MAX, ascending (R200). -/
def assignCodes (lt : List (List Byte)) (ltMax : Nat) : CodeTables :=
  (lengths ltMax).foldl (CodeTables.giveLength lt) CodeTables.zero

/-- What ASSIGN leaves, or the error it raises (R200, R267). -/
def assignResult (s : State) : Except Raise State :=
  if s.ld.active then .error (malformedHeader 6#8 s.ld.pos)
  else if s.ltValid = false then .error (sequenceError 0x12#8)
  else
    .ok { s with
      codeLen := (assignCodes s.lt s.ltMax.toNat).len
      codeVal := (assignCodes s.lt s.ltMax.toNat).val
      codesValid := true }

/-- ASSIGN (R200). -/
def execAssign (s : State) : Host.Outcome State Fault Refusal := completeCommand s (assignResult s)

end Sys2Proof.Machine
end

