-- ==== Sys2Proof/Machine/Control.lean ====
section
/-! DEFINITION. The control commands NOP, SRESET and CLR_FREQ (spec/40_control.md rules R140 to
R142), and the outcome of a word that is no command (spec/30_encoding.md rule R114). -/

namespace Sys2Proof.Machine

/-- NOP (R140). -/
def execNop (s : State) : Host.Outcome State Fault Refusal := completeCommand s (.ok s)

/-- SRESET (R141): the only command that acts while ERR = 1. -/
def execSreset (s : State) : Host.Outcome State Fault Refusal := .next s.softReset

/-- CLR_FREQ (R142). -/
def execClrFreq (s : State) : Host.Outcome State Fault Refusal :=
  completeCommand s (.ok { s with freq := Vector.replicate 256 0#32 })

/-- A word that is no command (R113 steps 2 and 3, R114): ILLEGAL_COMMAND with the word as its info,
ignored while ERR = 1. -/
def execIllegal (w : Word) (s : State) : Host.Outcome State Fault Refusal :=
  completeCommand s (.error ⟨.illegalCommand, w⟩)

end Sys2Proof.Machine
end

