-- ==== Sys2Proof/Machine/HeaderPort.lean ====
section
/-! DEFINITION. The length-table port, HDR_EMIT, HDR_BEGIN and HDR_BYTE
(spec/46_length_table_port.md rules R260 to R269). -/

namespace Sys2Proof.Machine

/-- The header of a length table (R260, R261): N = LT_MAX, the count of every length 1..N, the
symbols in ascending length and discovery order. A count above 255, which no run reaches, is its low
byte (log 22). -/
def headerBytes (lt : List (List Byte)) (ltMax : BitVec 8) : List Byte :=
  ltMax :: ((lengths ltMax.toNat).map fun len => BitVec.ofNat 8 (ltEntry lt len).length) ++
    (lengths ltMax.toNat).flatMap (ltEntry lt)

/-- What HDR_EMIT leaves, or the error it raises (R260). -/
def hdrEmitResult (p : Params) (s : State) : Except Raise State :=
  if s.ltValid = false then .error (sequenceError 0x20#8)
  else pushIfRoom p s (headerBytes s.lt s.ltMax)

/-- HDR_EMIT (R260). -/
def execHdrEmit (s : State) : Host.Outcome State Fault Refusal :=
  completeCommand s (hdrEmitResult Config.hardware s)

/-- The loader right after HDR_BEGIN (R262). -/
def Loader.started : Loader := { Loader.idle with active := true }

/-- What HDR_BEGIN leaves, or the error it raises (R262). -/
def hdrBeginResult (s : State) : Except Raise State :=
  if s.encAct || s.decAct then .error (sequenceError 0x21#8)
  else .ok { s.clearTree.clearTable.clearCodes with ld := Loader.started }

/-- HDR_BEGIN (R262). -/
def execHdrBegin (s : State) : Host.Outcome State Fault Refusal :=
  completeCommand s (hdrBeginResult s)

/-- kraft_ok of R266: Kraft's equality, or the one-symbol table. -/
def kraftOk (count : Nat → Nat) (n : Nat) : Bool :=
  decide (((lengths n).map fun len => count len * 2 ^ (n - len)).sum = 2 ^ n) ||
    (decide (n = 1) && decide (count 1 = 1))

/-- What one accepted header byte does: the load goes on, or the header is complete. -/
inductive LoadStep where
  | more (ld : Loader)
  | complete (lt : List (List Byte)) (ltMax : BitVec 8) (ltNsym : BitVec 9)
  deriving DecidableEq, Repr

/-- Phase N (R264), in a build with this L_MAX. -/
def loadN (lMax : Nat) (ld : Loader) (b : Byte) : Except Raise LoadStep :=
  if b = 0#8 ∨ b.toNat > lMax then .error (malformedHeader 1#8 ld.pos)
  else .ok (.more { ld with n := b, idx := 1#8, phase := .counts })

/-- The loader with the count for LD_IDX stored and added to the total (R265). -/
def Loader.withCount (ld : Loader) (b : Byte) : Loader :=
  { ld.setCount ld.idx.toNat b with total := BitVec.ofNat 9 (ld.total.toNat + b.toNat) }

/-- The loader moved on to the symbols of the least length above `after` that has any (R265, R266). -/
def Loader.toLength (ld : Loader) (after : Nat) : Loader :=
  { ld with
    idx := BitVec.ofNat 8 (ld.nextLength after)
    left := BitVec.ofNat 9 (ld.count (ld.nextLength after)) }

/-- Phase COUNTS (R265). -/
def loadCount (ld : Loader) (b : Byte) : Except Raise LoadStep :=
  if ld.total.toNat + b.toNat > 256 then .error (malformedHeader 2#8 ld.pos)
  else if ld.idx.toNat < ld.n.toNat then
    .ok (.more { ld.withCount b with idx := ld.idx + 1#8 })
  else if b = 0#8 then .error (malformedHeader 3#8 ld.pos)
  else .ok (.more { (ld.withCount b).toLength 0 with phase := .syms })

/-- The loader with one more symbol of length LD_IDX (R266). -/
def Loader.withSymbol (ld : Loader) (b : Byte) : Loader :=
  { ld.append ld.idx.toNat b with
    seen := ld.seen ||| (1#256 <<< b.toNat)
    left := ld.left - 1#9 }

/-- Phase SYMS, and completion (R266). -/
def loadSymbol (ld : Loader) (b : Byte) : Except Raise LoadStep :=
  if ld.seen.getLsbD b.toNat then .error (malformedHeader 4#8 ld.pos)
  else if (ld.withSymbol b).left ≠ 0#9 then .ok (.more (ld.withSymbol b))
  else if ld.idx.toNat < ld.n.toNat then .ok (.more ((ld.withSymbol b).toLength ld.idx.toNat))
  else if kraftOk ld.count ld.n.toNat then
    .ok (.complete ((lengths ld.n.toNat).map (ld.withSymbol b).entry) ld.n ld.total)
  else .error (malformedHeader 5#8 ld.pos)

/-- One header byte in the phase the loader is in (R263). -/
def loadByte (lMax : Nat) (ld : Loader) (b : Byte) : Except Raise LoadStep :=
  match ld.phase with
  | .n => loadN lMax ld b
  | .counts => loadCount ld b
  | .syms => loadSymbol ld b

/-- The state after an accepted header byte (R263, R266): the load goes on at the next position, or
the table is written and every LD_* is 0 or empty again. -/
def State.afterLoad (s : State) : LoadStep → State
  | .more ld => { s with ld := { ld with pos := s.ld.pos + 1#10 } }
  | .complete lt ltMax ltNsym =>
    { s with lt := lt, ltMax := ltMax, ltNsym := ltNsym, ltValid := true, ld := Loader.idle }

/-- What HDR_BYTE leaves, or the error it raises (R263). -/
def hdrByteResult (p : Params) (b : Byte) (s : State) : Except Raise State :=
  if s.ld.active = false then .error (sequenceError 0x22#8)
  else
    match loadByte p.lMax s.ld b with
    | .error r => .error r
    | .ok l => .ok (s.afterLoad l)

/-- HDR_BYTE (R263). -/
def execHdrByte (b : Byte) (s : State) : Host.Outcome State Fault Refusal :=
  completeCommand s (hdrByteResult Config.hardware b s)

end Sys2Proof.Machine
end

