-- ==== Sys2Proof/Machine/LengthDeriver.lean ====
section
/-! DEFINITION. The code-length deriver, DERIVE (spec/42_length_deriver.md rules R180 to R188). -/

namespace Sys2Proof.Machine

/-- A leaf as the walk meets it: its symbol, its frequency and its code length. -/
structure LeafAt where
  sym : Byte
  freq : BitVec 32
  len : Nat
  deriving DecidableEq, Repr

/-- walk(i, d) of R180: the leaves under node i, left subtree fully before right subtree (R181). The
first argument bounds the descent; a node's children have smaller indices (R51), so the arena's size
is enough. An index outside the arena, which no run reaches, has no leaves (log 10). -/
def walkTree : Nat → List Node → Nat → Nat → List LeafAt
  | 0, _, _, _ => []
  | fuel + 1, tree, i, depth =>
    match tree[i]? with
    | none => []
    | some (.leaf sym freq) => [⟨sym, freq, depth⟩]
    | some (.internal _ left right) =>
      walkTree fuel tree left (depth + 1) ++ walkTree fuel tree right (depth + 1)

/-- The one leaf of a tree with NLEAF = 1, forced to length 1 (R182). -/
def soleLeaf (tree : List Node) (root : Nat) : List LeafAt :=
  match tree[root]? with
  | some (.leaf sym freq) => [⟨sym, freq, 1⟩]
  | some (.internal _ _ _) => []
  | none => []

/-- Every leaf of the tree held, with its code length, in discovery order (R180, R181, R182). -/
def State.treeLeaves (s : State) : List LeafAt :=
  if s.nleaf = 1 then soleLeaf s.tree s.root else walkTree s.tree.length s.tree s.root 0

/-- M of R180: the largest length. -/
def maxLength (leaves : List LeafAt) : Nat := (leaves.map LeafAt.len).foldr max 0

/-- D[L] of R180: the symbols of length L, in discovery order. -/
def symbolsAt (leaves : List LeafAt) (len : Nat) : List Byte :=
  (leaves.filter fun leaf => decide (leaf.len = len)).map LeafAt.sym

/-- [D[1], ..., D[M]] (R180). -/
def tableOf (leaves : List LeafAt) : List (List Byte) :=
  (lengths (maxLength leaves)).map (symbolsAt leaves)

/-- input_size of R185. -/
def inputSize (leaves : List LeafAt) : Nat := (leaves.map fun leaf => leaf.freq.toNat).sum

/-- payload_bits of R185. -/
def payloadBits (leaves : List LeafAt) : Nat :=
  (leaves.map fun leaf => leaf.freq.toNat * leaf.len).sum

/-- container_size of R185: header, payload and trailer. -/
def containerSize (leaves : List LeafAt) : Nat :=
  1 + maxLength leaves + leaves.length + (payloadBits leaves + 7) / 8 + 1

/-- policy_rejects of R185. -/
def policyRejects (p : Policy) (leaves : List LeafAt) : Bool :=
  match p with
  | .off => false
  | .all8 => decide (maxLength leaves = 8) && decide ((symbolsAt leaves 8).length = 256)
  | .noSavings => decide (containerSize leaves ≥ inputSize leaves)

/-- The least length with more than 255 symbols, if there is one (R184). -/
def overfullLength (leaves : List LeafAt) : Option Nat :=
  (lengths (maxLength leaves)).find? fun len => decide ((symbolsAt leaves len).length > 255)

/-- What DERIVE leaves, or the error it raises, in the order of R186 (R183: L_MAX is the
build's). -/
def deriveResult (p : Params) (s : State) : Except Raise State :=
  if s.treeValid = false then .error (sequenceError 0x11#8)
  else if maxLength s.treeLeaves > p.lMax then
    .error ⟨.codeTooLong, BitVec.ofNat 32 (maxLength s.treeLeaves)⟩
  else if policyRejects s.policy s.treeLeaves then
    .error ⟨.uncompressible, s.policy.code.setWidth 32⟩
  else
    match overfullLength s.treeLeaves with
    | some len => .error ⟨.countOverflow, BitVec.ofNat 32 len⟩
    | none =>
      .ok { s.clearTree.clearCodes with
        ltValid := true
        lt := tableOf s.treeLeaves
        ltMax := BitVec.ofNat 8 (maxLength s.treeLeaves)
        ltNsym := BitVec.ofNat 9 s.treeLeaves.length }

/-- DERIVE (R180). -/
def execDerive (s : State) : Host.Outcome State Fault Refusal :=
  completeCommand s (deriveResult Config.hardware s)

end Sys2Proof.Machine
end

