-- ==== Sys2Proof/Machine/TreeBuilder.lean ====
section
/-! DEFINITION. The tree builder, BUILD (spec/41_tree_builder.md rules R160 to R169). -/

namespace Sys2Proof.Machine

/-- A node waiting in the priority queue: its key (frequency, arena index) (R163). -/
structure QueueEntry where
  freq : BitVec 40
  idx : Nat
  deriving DecidableEq, Repr

/-- The order of R163: least frequency first, and least index among equal frequencies. -/
def QueueEntry.before (a b : QueueEntry) : Bool :=
  decide (a.freq < b.freq) || (decide (a.freq = b.freq) && decide (a.idx < b.idx))

/-- argmin of R160: the entry that comes before every other. -/
def minEntry : List QueueEntry → Option QueueEntry
  | [] => none
  | e :: rest =>
    match minEntry rest with
    | none => some e
    | some m => if m.before e then some m else some e

/-- Remove the least entry (R160: a <- argmin; Q <- Q \ {a}). -/
def popMin (q : List QueueEntry) : Option (QueueEntry × List QueueEntry) :=
  (minEntry q).map fun e => (e, q.erase e)

/-- The symbols with a non-zero frequency, in ascending order: S of R160. -/
def presentSymbols (freq : Vector (BitVec 32) 256) : List Byte :=
  symbols.filter fun sym => decide (fileGet freq sym ≠ 0#32)

/-- The leaves, one per symbol present, in ascending symbol order (R162). -/
def leafNodes (freq : Vector (BitVec 32) 256) : List Node :=
  (presentSymbols freq).map fun sym => .leaf sym (fileGet freq sym)

/-- The frequency of a node, exact in 40 bits (R167). -/
def Node.freq : Node → BitVec 40
  | .leaf _ f => f.setWidth 40
  | .internal f _ _ => f

/-- The queue that holds every node of an arena, in index order (R160: Q <- 0, ..., n − 1). -/
def queueOf (tree : List Node) : List QueueEntry :=
  tree.mapIdx fun i node => ⟨node.freq, i⟩

/-- The merge loop (R160, R163, R164): while two entries are left, the two least become the left and
the right child of a new node, which joins the arena and the queue. The first argument bounds the
number of merges; n − 1 are made (R165). -/
def mergeLoop : Nat → List Node → List QueueEntry → List Node × List QueueEntry
  | 0, tree, q => (tree, q)
  | fuel + 1, tree, q =>
    match popMin q with
    | none => (tree, q)
    | some (a, q1) =>
      match popMin q1 with
      | none => (tree, q)
      | some (b, q2) =>
        mergeLoop fuel (tree ++ [.internal (a.freq + b.freq) a.idx b.idx])
          (q2 ++ [⟨a.freq + b.freq, tree.length⟩])

/-- The arena and the root that BUILD leaves (R160, R165): the root is the only entry left. -/
def buildTree (freq : Vector (BitVec 32) 256) : List Node × Nat :=
  let leaves := leafNodes freq
  let (tree, q) := mergeLoop leaves.length leaves (queueOf leaves)
  (tree, (q.head?.map QueueEntry.idx).getD 0)

/-- What BUILD leaves, or the error it raises (R160, R161). -/
def buildResult (s : State) : Except Raise State :=
  if s.ld.active || s.encAct || s.decAct then .error (sequenceError 0x10#8)
  else if presentSymbols s.freq = [] then .error ⟨.emptyInput, 0#32⟩
  else
    .ok { s.clearTable.clearCodes with
      tree := (buildTree s.freq).1
      root := (buildTree s.freq).2
      nleaf := (presentSymbols s.freq).length
      treeValid := true }

/-- BUILD (R160). -/
def execBuild (s : State) : Host.Outcome State Fault Refusal := completeCommand s (buildResult s)

end Sys2Proof.Machine
end

