-- ==== Sys2Proof/Machine/Dispatch.lean ====
section
/-! DEFINITION. The meaning of each command, one arm per constructor (spec/30_encoding.md rule
R112). -/

namespace Sys2Proof.Machine

def exec (i : Instr) (s : State) : Host.Outcome State Fault Refusal :=
  match i with
  | .nop => Sys2Proof.Machine.execNop s
  | .sreset => Sys2Proof.Machine.execSreset s
  | .clrFreq => Sys2Proof.Machine.execClrFreq s
  | .build => Sys2Proof.Machine.execBuild s
  | .derive => Sys2Proof.Machine.execDerive s
  | .assign => Sys2Proof.Machine.execAssign s
  | .hdrEmit => Sys2Proof.Machine.execHdrEmit s
  | .hdrBegin => Sys2Proof.Machine.execHdrBegin s
  | .hdrByte b => Sys2Proof.Machine.execHdrByte b s
  | .enc sym => Sys2Proof.Machine.execEnc sym s
  | .encFlush => Sys2Proof.Machine.execEncFlush s
  | .decFeed b => Sys2Proof.Machine.execDecFeed b s
  | .decFinish pad => Sys2Proof.Machine.execDecFinish pad s

end Sys2Proof.Machine
end

