-- ==== Sys2Proof/Machine/Step.lean ====
section
/-! DEFINITION. One step of the machine: a command completes, or the host's next access is served
(spec/20_memory.md rule R90: each access and each command is one step of a single sequence). -/

namespace Sys2Proof.Machine

/-- One step (R90, R113): the command that completes next is decoded and run, a word that is no
command raises ILLEGAL_COMMAND, and otherwise the host's next event is served. -/
def step (s : State) : Host.Outcome State Fault Refusal :=
  match fetchCommand s with
  | some (w, t) =>
    match decode w with
    | .ok i => exec i t
    | .error _ => execIllegal w t
  | none => serveHost Config.hardware s

/-- s with a command word latched as a CMD write leaves it, so that the next step completes it: the
block fetches nothing, and the write is the host's (R30, R92; log 1). -/
def State.withFetchWord (s : State) (nbits w : Nat) : State :=
  s.latch (BitVec.ofNat 32 (w % 2 ^ nbits))

end Sys2Proof.Machine
end

