-- ==== Sys2Proof/Machine/Build.lean ====
section
/-! DEFINITION. The machine of any build: the parameters of spec/00_scope.md rule R8 are an argument
(spec/10_state.md rule R64). exec and step are this machine at Config.hardware. Every build starts at
State.reset, since no reset value depends on a parameter (R65). -/

namespace Sys2Proof.Machine

/-- What each command leaves when it is not ignored, or the error it raises. -/
def commandResult (p : Params) (i : Instr) (s : State) : Except Raise State :=
  match i with
  | .nop => .ok s
  | .sreset => .ok s.softReset
  | .clrFreq => .ok { s with freq := Vector.replicate 256 0#32 }
  | .build => buildResult s
  | .derive => deriveResult p s
  | .assign => assignResult s
  | .hdrEmit => hdrEmitResult p s
  | .hdrBegin => hdrBeginResult s
  | .hdrByte b => hdrByteResult p b s
  | .enc sym => encResult p sym s
  | .encFlush => encFlushResult p s
  | .decFeed b => decFeedResult p b s
  | .decFinish pad => decFinishResult p pad s

/-- A command in any build: SRESET always acts, and every other command ends as completeCommand ends
it (R113, R301, R302). -/
def execIn (p : Params) (i : Instr) (s : State) : Host.Outcome State Fault Refusal :=
  if i = .sreset then .next s.softReset else completeCommand s (commandResult p i s)

/-- One step of any build (R90, R113). -/
def stepIn (p : Params) (s : State) : Host.Outcome State Fault Refusal :=
  match fetchCommand s with
  | some (w, t) =>
    match decode w with
    | .ok i => execIn p i t
    | .error _ => execIllegal w t
  | none => serveHost p s

end Sys2Proof.Machine
end

