-- ==== Sys2Proof/Machine/HostProgram.lean ====
section
/-! DEFINITION. The host's programs as lists of accesses: the lines of spec/30_encoding.md rule R117,
the pseudo-instructions of rule R118, and the calls of spec/70_reset_and_hazards.md rules R343 to
R345. They are what a host puts in bus.pending; the block does not know them. -/

namespace Sys2Proof.Machine

/-- `WR <reg>, v` (R117). -/
def hostWrite (off : Offset) (v : Word) : BusEvent := .write .w32 off v

/-- `RD <reg>` (R117). -/
def hostRead (off : Offset) : BusEvent := .read .w32 off

/-- One read of STATUS. POLL of R117 repeats it until BUSY = 0; one read is enough where the command
before it has completed. -/
def hostPoll : BusEvent := hostRead 0x00C#11

/-- A command line: WR CMD, then POLL (R117). -/
def hostCommand (i : Instr) : List BusEvent := [hostWrite 0x018#11 (encode i), hostPoll]

/-- Command lines one after another. -/
def hostCommands (is : List Instr) : List BusEvent := is.flatMap hostCommand

/-- `SETFREQ s, v` (R118). -/
def hostSetFreq (sym : Byte) (v : Word) : BusEvent := hostWrite (freqOffset sym) v

/-- `ENCS x0, ..., xn` (R118). -/
def encSymbols (xs : List Byte) : List Instr := xs.map .enc

/-- `HDRLOAD b0, ..., bk` (R118). -/
def hdrLoad (bytes : List Byte) : List Instr := .hdrBegin :: bytes.map .hdrByte

/-- `DECODE p0, ..., pm / t` (R118). -/
def decodePayload (payload : List Byte) (trailer : Byte) : List Instr :=
  payload.map .decFeed ++ [.decFinish trailer]

/-- `DRAIN n` (R118). -/
def hostDrain (n : Nat) : List BusEvent := List.replicate n (hostRead 0x01C#11)

/-- `COMPRESS` (R118). -/
def compressTables : List Instr := [.build, .derive, .assign, .hdrEmit]

/-- Boot (R343): read ID and PARAM, then write CTRL. -/
def hostBoot (ctrl : Word) : List BusEvent :=
  [hostRead 0x000#11, hostRead 0x004#11, hostWrite 0x008#11 ctrl]

/-- The count of a byte value in an input, as the host's analyzer writes it to FREQ (R344 step 2). A
count of 2^32 or more does not fit FREQ[s] and the spec does not say what is written then: its low 32
bits are (DESIGN CHOICE, log 21). -/
def symbolCount (input : List Byte) (sym : Byte) : Word := BitVec.ofNat 32 (input.count sym)

/-- A compress call (R344) less the reads that drain OUTQ. -/
def hostCompress (input : List Byte) : List BusEvent :=
  hostCommand .sreset ++
    (symbols.filter fun sym => decide (sym ∈ input)).map
      (fun sym => hostSetFreq sym (symbolCount input sym)) ++
    hostCommands (compressTables ++ encSymbols input ++ [.encFlush])

/-- A decompress call (R345) less the reads that drain OUTQ, for a container already split into its
header, its payload and its trailer (R350). -/
def hostDecompress (header payload : List Byte) (trailer : Byte) : List BusEvent :=
  hostCommands
    (.sreset :: hdrLoad header ++ [.assign] ++ decodePayload payload trailer)

end Sys2Proof.Machine
end

