-- ==== Sys2Proof/Safety.lean ====
section
/-! DEFINITION. The terms in which claims are made: the result of a call
(spec/70_reset_and_hazards.md rule R348), runs of several commands, what the spec says a tree, a
length table, a header load and a code are (spec/10_state.md rules R50 to R61), and the invariants
every step keeps. -/

namespace Sys2Proof.Machine

/-! ### Results and runs -/

/-- What a call produced: the bytes the host read from OUT_DATA with VALID = 1, in order (R348). -/
def callOutput (reads : List ReadRecord) : List Byte :=
  (reads.filter fun r => decide (r.off = 0x01C#11) && r.data.getLsbD 31).map fun r =>
    r.data.extractLsb' 0 8

/-- A call can end here: its last command has completed and OUTQ is drained (R348). -/
def callEnded (s : State) : Bool := !s.busy && s.outq.isEmpty

/-- What every call with a valid result ends in: ERR is 0 (R348), and no decode session is open, for
the bytes of one that DEC_FINISH has not closed claim no success (R247). Of a decompress call
DecodeCallValid asks more. -/
def callValid (s : State) : Bool := callEnded s && !s.err && !s.decAct

/-- The step in which a decode succeeds: DEC_FINISH completes in it with ERR = 0 (R247). -/
def DecodeSucceeds (s t : State) : Prop :=
  ∃ w u pad, fetchCommand s = some (w, u) ∧ decode w = .ok (.decFinish pad) ∧
    step s = .next t ∧ t.err = false

/-- A host access that issues no command: a read, or a write of another register than CMD. -/
def issuesNoCommand : BusEvent → Bool
  | .read _ _ => true
  | .write _ off _ => decide (regAt off ≠ .cmd)
  | .reset => false

/-- Steps in which the host only makes accesses that issue no command, as it does after the last
command of a call (R345 steps 5 and 6, R348). -/
inductive AfterLastCommand : State → State → Prop where
  | done (s : State) : AfterLastCommand s s
  | access {s t u : State} {e : BusEvent} {rest : List BusEvent} : s.bus.pending = e :: rest →
      issuesNoCommand e = true → step s = .next t → AfterLastCommand t u → AfterLastCommand s u

/-- A decompress call that ends in `final` has a valid result (R345 step 6, R247, R348): the last
command of the call, which completes in the step from s, is DEC_FINISH, ERR is 0 after it, and the
host then drains OUTQ. -/
def DecodeCallValid (s final : State) : Prop :=
  ∃ t, DecodeSucceeds s t ∧ AfterLastCommand t final ∧ callEnded final = true

/-- Run commands one after another, stopping at a fault or a refusal. -/
def execAll : List Instr → State → Host.Outcome State Fault Refusal
  | [], s => .next s
  | i :: rest, s =>
    match exec i s with
    | .next t => execAll rest t
    | .fault f => .fault f
    | .refused r => .refused r

/-! ### Illegal words and sequence errors -/

/-- A word with an unassigned OP, with RSV ≠ 0, or with ARG ≠ 0 for a command that takes no operand
(R114), read off the word as a number. -/
def IllegalWord (w : Word) : Prop :=
  w.toNat / 2 ^ 24 ∉
      [0x00, 0x01, 0x02, 0x10, 0x11, 0x12, 0x20, 0x21, 0x22, 0x30, 0x31, 0x40, 0x41] ∨
    w.toNat / 2 ^ 8 % 2 ^ 16 ≠ 0 ∨
    (w.toNat / 2 ^ 24 ∉ [0x22, 0x30, 0x40, 0x41] ∧ w.toNat % 2 ^ 8 ≠ 0)

/-- The table of R306: when each command raises SEQUENCE_ERROR. -/
def sequenceFails (i : Instr) (s : State) : Bool :=
  match i with
  | .nop => false
  | .sreset => false
  | .clrFreq => false
  | .build => s.ld.active || s.encAct || s.decAct
  | .derive => !s.treeValid
  | .assign => !s.ltValid && !s.ld.active
  | .hdrEmit => !s.ltValid
  | .hdrBegin => s.encAct || s.decAct
  | .hdrByte _ => !s.ld.active
  | .enc _ => !s.codesValid
  | .encFlush => !s.codesValid
  | .decFeed _ => !s.codesValid
  | .decFinish _ => !s.codesValid

/-! ### Trees (R51, R162 to R167) -/

/-- The frequency of the node at an arena index, as a number; 0 where there is no node. -/
def nodeFreq (tree : List Node) (i : Nat) : Nat := ((tree[i]?).map fun n => n.freq.toNat).getD 0

/-- Node j is a child of node i. -/
def IsChild (tree : List Node) (j i : Nat) : Prop :=
  ∃ f l r, tree[i]? = some (.internal f l r) ∧ (j = l ∨ j = r)

/-- The order of R163 on arena indices: least (frequency, index) first. -/
def KeyBefore (tree : List Node) (i j : Nat) : Prop :=
  nodeFreq tree i < nodeFreq tree j ∨ (nodeFreq tree i = nodeFreq tree j ∧ i < j)

/-- An arena that BUILD can leave (R51, R162, R164, R165, R167): the leaves first, in ascending
symbol order, then the internal nodes, each the exact sum of two earlier nodes, every node but the
root the child of exactly one node, and the root last. -/
structure TreeOk (tree : List Node) (root nleaf : Nat) : Prop where
  nleaf_pos : 1 ≤ nleaf
  nleaf_le : nleaf ≤ 256
  size : tree.length + 1 = 2 * nleaf
  root_last : root + 1 = tree.length
  leaves : ∀ i, i < nleaf → ∃ sym f, tree[i]? = some (.leaf sym f) ∧ f ≠ 0#32
  ascending : ∀ i j, i < j → j < nleaf → ∀ a fa b fb, tree[i]? = some (.leaf a fa) →
    tree[j]? = some (.leaf b fb) → a.toNat < b.toNat
  internals : ∀ i, nleaf ≤ i → i < tree.length → ∃ f l r, tree[i]? = some (.internal f l r) ∧
    l < i ∧ r < i ∧ l ≠ r ∧ f.toNat = nodeFreq tree l + nodeFreq tree r
  one_parent : ∀ j, j < root → ∃ i, IsChild tree j i ∧ ∀ i', IsChild tree j i' → i' = i

/-- Every merge took the two least nodes then in the queue, the least as the left child (R163,
R164): a node is in the queue when node i is made if it is older and no node older than i is its
parent. -/
def MergesTakeTheLeast (tree : List Node) : Prop :=
  ∀ i f a b, tree[i]? = some (.internal f a b) →
    KeyBefore tree a b ∧
      ∀ j, j < i → (∀ i', i' < i → ¬ IsChild tree j i') → j ≠ a → j ≠ b → KeyBefore tree b j

/-- The leaves under a node, from left to right, with their lengths (R180, R181). -/
inductive LeavesUnder (tree : List Node) : Nat → Nat → List LeafAt → Prop where
  | leaf {i d sym f} : tree[i]? = some (.leaf sym f) → LeavesUnder tree i d [⟨sym, f, d⟩]
  | node {i d f l r xs ys} : tree[i]? = some (.internal f l r) → LeavesUnder tree l (d + 1) xs →
      LeavesUnder tree r (d + 1) ys → LeavesUnder tree i d (xs ++ ys)

/-! ### Length tables and codes (R52 to R56) -/

/-- The sum of |LT[L]| · 2^(n − L) over L = 1..n: Kraft's sum times 2^n (R53). -/
def kraftSum (lt : List (List Byte)) (n : Nat) : Nat :=
  ((lengths n).map fun len => (ltEntry lt len).length * 2 ^ (n - len)).sum

/-- A length table as R52 and R53 say it is while LT_VALID = 1. -/
structure TableOk (lt : List (List Byte)) (ltMax : BitVec 8) (ltNsym : BitVec 9) : Prop where
  max_pos : 1 ≤ ltMax.toNat
  size : lt.length = ltMax.toNat
  nsym : ltNsym.toNat = lt.flatten.length
  counts : ∀ e ∈ lt, e.length ≤ 255
  distinct : lt.flatten.Nodup
  last : ltEntry lt ltMax.toNat ≠ []
  kraft : kraftSum lt ltMax.toNat = 2 ^ ltMax.toNat ∨ ∃ sym, lt = [[sym]]

/-- The first codeword of length L, as a number (R202). -/
def firstCode (lt : List (List Byte)) : Nat → Nat
  | 0 => 0
  | 1 => 0
  | len + 2 => 2 * (firstCode lt (len + 1) + (ltEntry lt (len + 1)).length)

/-- A symbol has a codeword (R54). -/
def HasCode (s : State) (sym : Byte) : Prop := fileGet s.codeLen sym ≠ 0#8

/-- CODE_LEN of a symbol as a number. -/
def codeLength (s : State) (sym : Byte) : Nat := (fileGet s.codeLen sym).toNat

/-- The code tables are those ASSIGN makes from the length table held (R200, R54). -/
def CodesMatchTable (s : State) : Prop :=
  s.codeLen = (assignCodes s.lt s.ltMax.toNat).len ∧
    s.codeVal = (assignCodes s.lt s.ltMax.toNat).val

/-- A state whose codes come from a length table of R53. -/
def CodesOk (s : State) : Prop :=
  s.codesValid = true ∧ TableOk s.lt s.ltMax s.ltNsym ∧ CodesMatchTable s

/-- No codeword begins the bits (R240: none of their beginnings is in DMAP). -/
def NoCodeBegins (s : State) (bits : BitSeq) : Prop :=
  ∀ sym, HasCode s sym → ∀ more, bits ≠ s.codeword sym ++ more

/-! ### Header loads (R60, R264 to R266) -/

/-- The bytes a load in progress has accepted (R263): N, the counts, the symbols. -/
def loadedCount (ld : Loader) : Nat := ((lengths 255).map ld.count).sum

/-- The symbols a load in progress has read, by ascending length. -/
def loadedSymbols (ld : Loader) : List Byte := (lengths 255).flatMap ld.entry

/-- A header load in progress, in each of its phases (R60, R264, R265, R266). -/
structure LoadOk (ld : Loader) : Prop where
  phaseN : ld.phase = .n → ld = Loader.started
  range : ld.phase ≠ .n → 1 ≤ ld.idx.toNat ∧ ld.idx.toNat ≤ ld.n.toNat
  total : ld.total.toNat = loadedCount ld
  total_le : loadedCount ld ≤ 256
  countsLater : ld.phase = .counts → ∀ len, ld.idx.toNat ≤ len → ld.count len = 0
  countsNoSymbols : ld.phase = .counts → loadedSymbols ld = [] ∧ ld.left = 0#9
  countsPos : ld.phase = .counts → ld.pos.toNat = ld.idx.toNat
  symsLast : ld.phase = .syms → 0 < ld.count ld.n.toNat
  symsBeyond : ld.phase = .syms → ∀ len, ld.n.toNat < len → ld.count len = 0
  symsBefore : ld.phase = .syms → ∀ len, len < ld.idx.toNat → (ld.entry len).length = ld.count len
  symsHere : ld.phase = .syms → 0 < ld.left.toNat ∧
    (ld.entry ld.idx.toNat).length + ld.left.toNat = ld.count ld.idx.toNat
  symsAfter : ld.phase = .syms → ∀ len, ld.idx.toNat < len → ld.entry len = []
  symsPos : ld.phase = .syms → ld.pos.toNat = 1 + ld.n.toNat + (loadedSymbols ld).length
  distinct : (loadedSymbols ld).Nodup
  seen : ∀ sym : Byte, ld.seen.getLsbD sym.toNat = true ↔ sym ∈ loadedSymbols ld

/-! ### Invariants -/

/-- The relations between the flags (R50, R306). -/
structure FlagsOk (s : State) : Prop where
  treeNoTable : s.treeValid = true → s.ltValid = false
  codesTable : s.codesValid = true → s.ltValid = true
  encCodes : s.encAct = true → s.codesValid = true
  decCodes : s.decAct = true → s.codesValid = true
  loadNoTree : s.ld.active = true → s.treeValid = false
  loadNoTable : s.ld.active = true → s.ltValid = false
  loadNoCodes : s.ld.active = true → s.codesValid = false

/-- What a flag guards is empty while the flag is 0 (R37, R38, R50, R57, R58, R60, R222, R242), and
HOLD_V is 1 exactly in a decode session (R241, R242). Three values are the model's choice (DEDUCED,
log 13): ROOT = 0 and NLEAF = 0 in noTree, of which R50 empties TREE alone, and LD_PHASE = N in
noLoad, where R60 says 0 or empty. -/
structure GuardsOk (s : State) : Prop where
  noError : s.err = false → s.cause = .none ∧ s.errInfo = 0#32
  errorCause : s.err = true → s.cause ≠ .none
  noTree : s.treeValid = false → s.tree = [] ∧ s.root = 0 ∧ s.nleaf = 0
  noTable : s.ltValid = false → s.lt = [] ∧ s.ltMax = 0#8 ∧ s.ltNsym = 0#9
  noCodes : s.codesValid = false → s.codeLen = Vector.replicate 256 0#8 ∧
    s.codeVal = Vector.replicate 256 0#255
  noEnc : s.encAct = false → s.encAcc = []
  noDec : s.decAct = false → s.dbits = [] ∧ s.hold = 0#8
  holdDec : s.holdV = s.decAct
  noLoad : s.ld.active = false → s.ld = Loader.idle

/-- The capacities (R57, R61, R243). -/
structure BoundsOk (s : State) : Prop where
  encAcc : s.encAcc.length ≤ 7
  dbits : s.dbits = [] ∨ s.dbits.length < s.ltMax.toNat
  outq : s.outq.length ≤ Config.outqDepth

/-- The invariant that concerns flags, guarded state and capacities; through GuardsOk it holds log 13's
values of ROOT, NLEAF and LD_PHASE while these are not in use. -/
structure CoreInv (s : State) : Prop where
  flags : FlagsOk s
  guards : GuardsOk s
  bounds : BoundsOk s

/-- The invariant of the whole block: the tree, the table, the codes and the header load held are
what the spec says they are. -/
structure BlockInv (s : State) : Prop where
  core : CoreInv s
  tree : s.treeValid = true → TreeOk s.tree s.root s.nleaf
  table : s.ltValid = true → TableOk s.lt s.ltMax s.ltNsym
  codes : s.codesValid = true → CodesMatchTable s
  load : s.ld.active = true → LoadOk s.ld

end Sys2Proof.Machine
end

