-- ==== Sys2Proof/Certificates/Slice0/Obligations.lean ====
section
/-! DEFINITION. The statements for the provers, each a numbered rule of spec/ or drawn from several
of them. OBLIGATIONS.json lists them with the rules they cite. A state is any state unless a
statement says otherwise; where a statement needs a state that a run can reach, it takes as a
premise one of the invariants of Safety.lean, and StepKeepsTheCoreInvariant and
StepKeepsTheBlockInvariant state those. -/

open Sys2Proof Sys2Proof.Machine

/-! ### Decoding -/

/-- Decoding and encoding agree, both ways, for every command and every operand (R110, R112, R115):
a word decodes to a command exactly when it is that command's word. -/
def Obligations.DecodeReadsExactlyTheEncodings : Prop :=
  ∀ (w : Word) (i : Instr), decode w = .ok i ↔ w = encode i

/-- R114: the words that are no command are exactly those with an unassigned OP, with RSV ≠ 0, or with
ARG ≠ 0 for a command that takes no operand. -/
def Obligations.DecodeRejectsExactlyTheIllegalWords : Prop :=
  ∀ w : Word, (∃ e, decode w = .error e) ↔ IllegalWord w

/-- Words written out by hand from R110 and R112, one of each family, decode to their commands. -/
def Obligations.HandWrittenWordsDecode : Prop :=
  decode 0x00000000#32 = .ok .nop ∧ decode 0x01000000#32 = .ok .sreset ∧
    decode 0x10000000#32 = .ok .build ∧ decode 0x11000000#32 = .ok .derive ∧
    decode 0x12000000#32 = .ok .assign ∧ decode 0x22000041#32 = .ok (.hdrByte 0x41#8) ∧
    decode 0x30000042#32 = .ok (.enc 0x42#8) ∧ decode 0x31000000#32 = .ok .encFlush ∧
    decode 0x400000F4#32 = .ok (.decFeed 0xF4#8) ∧ decode 0x41000001#32 = .ok (.decFinish 0x01#8)

/-! ### Steps -/

/-- A step runs the decoded command: when a command is in execution and no host access reaches the
block before it completes, the step is exec of the decoded command, with BUSY = 0 again (R31, R90;
the latch is the model's, log 2). exec and step are those of the build with this hardware's
parameters (R8, R64). -/
def Obligations.StepRunsTheDecodedCommand : Prop :=
  (∀ (s : State) (c : InFlight) (i : Instr), s.cmd = some c →
    (c.left = 0 ∨ s.bus.pending = []) → decode c.word = .ok i →
    step s = exec i { s with cmd := none }) ∧
  (∀ (i : Instr) (s : State), exec i s = execIn Config.hardware i s) ∧
  (∀ s : State, step s = stepIn Config.hardware s) ∧
  Config.hardware.lMax = 255 ∧ Config.hardware.outqDepth = 1024

/-- Otherwise a step serves the host's next event, one access nearer to the completion of the command
in execution, if there is one; with no event and no command the state is held (R90, R326; the
host's list and the durations are the model's, logs 1, 2, 15). -/
def Obligations.StepServesTheHostOtherwise : Prop :=
  (∀ (s : State) (e : BusEvent) (rest : List BusEvent), s.cmd = none → s.bus.pending = e :: rest →
    step s = serveEvent Config.hardware e { s with bus := { s.bus with pending := rest } }) ∧
  (∀ (s : State) (w : Word) (k : Nat) (e : BusEvent) (rest : List BusEvent),
    s.cmd = some ⟨w, k + 1⟩ → s.bus.pending = e :: rest →
    step s = serveEvent Config.hardware e
      { s with cmd := some ⟨w, k⟩, bus := { s.bus with pending := rest } }) ∧
  (∀ s : State, s.cmd = none → s.bus.pending = [] → step s = .next s)

/-- R114: an illegal word raises ILLEGAL_COMMAND, cause 6, with the whole word in ERR_INFO, unless ERR
is already 1, and then it is ignored. -/
def Obligations.IllegalWordRaisesIllegalCommand : Prop :=
  (∀ (s : State) (w : Word), IllegalWord w → s.cmd = some ⟨w, 0⟩ → s.err = false →
    step s = .next { s with cmd := none, err := true, cause := .illegalCommand, errInfo := w }) ∧
  (∀ (s : State) (w : Word), IllegalWord w → s.cmd = some ⟨w, 0⟩ → s.err = true →
    step s = .next { s with cmd := none }) ∧
  Cause.illegalCommand.code = 6#8

/-- No command is refused, and a step stops only on a host access that R81 makes illegal: every other
step answers a next state (R353: each command always completes). -/
def Obligations.OnlyAnIllegalAccessStops : Prop :=
  (∀ (i : Instr) (s : State), ∃ t, exec i s = .next t) ∧
  ∀ s : State, (∃ t, step s = .next t) ∨
    ∃ width off, accessLegal width off = false ∧ step s = .fault (.busError width off) ∧
      ∃ e rest, s.bus.pending = e :: rest ∧
        (e = .read width off ∨ ∃ v, e = .write width off v)

/-! ### Errors -/

/-- R302: while ERR = 1 every command but SRESET changes nothing, a CMD write of any word but SRESET's
is ignored, and the host can still write CTRL, CODE_SEL and FREQ, read registers and drain OUTQ. -/
def Obligations.ErrorStateIgnoresEveryCommandButSreset : Prop :=
  ∀ s : State, s.err = true →
    (∀ i : Instr, i ≠ .sreset → exec i s = .next s) ∧
    (s.busy = false →
      (∀ w : Word, w ≠ 0x01000000#32 → s.busWrite 0x018#11 w = s) ∧
      (∀ v : Word, s.busWrite 0x030#11 v = { s with codeSel := v.extractLsb' 0 8 }) ∧
      (∀ v : Word, s.busWrite 0x008#11 v = s.writeCtrl v) ∧
      (∀ (sym : Byte) (v : Word),
        s.busWrite (freqOffset sym) v = { s with freq := fileSet s.freq sym v }) ∧
      (∀ off : Offset, (s.busRead off).bus.reads =
        s.bus.reads ++ [⟨off, s.regWord (regAt off)⟩]) ∧
      (s.busRead 0x01C#11).outq = s.outq.tail)

/-- R301: a command that raises an error writes ERR, CAUSE and ERR_INFO and nothing else; the code is
one of R300's, 1 to 10. -/
def Obligations.AnErrorDiscardsEveryOtherWrite : Prop :=
  ∀ (i : Instr) (s t : State), s.err = false → exec i s = .next t → t.err = true →
    t = { s with err := true, cause := t.cause, errInfo := t.errInfo } ∧
      1 ≤ t.cause.code.toNat ∧ t.cause.code.toNat ≤ 10

/-- R303: the error state is left only by SRESET or reset, and then ERR, CAUSE and ERR_INFO and every
table and session have their reset values; no error nests, since no other command runs while
ERR = 1. -/
def Obligations.OnlySresetOrResetLeavesTheErrorState : Prop :=
  (∀ s t : State, step s = .next t → s.err = true → t.err = false →
    ((∃ c, s.cmd = some c ∧ c.word = 0x01000000#32) ∨ ∃ rest, s.bus.pending = .reset :: rest) ∧
    t.cause = .none ∧ t.errInfo = 0#32 ∧
    t = { State.reset with policy := t.policy, ie := t.ie, cmd := t.cmd, bus := t.bus }) ∧
  (∀ s t : State, s.err = true → exec .sreset s = .next t → t.err = false) ∧
  (∀ s : State, s.hardReset.err = false) ∧
  ∀ (s : State) (i : Instr), s.err = true → i ≠ .sreset → exec i s = .next s

/-- SEQUENCE_ERROR is raised exactly when R306's table says so, with the command's OP byte as its info
(R300). -/
def Obligations.SequenceErrorExactlyWhenThePreconditionFails : Prop :=
  ∀ (i : Instr) (s : State), s.err = false →
    (sequenceFails i s = true →
      exec i s = .next { s with
        err := true, cause := .sequenceError, errInfo := i.opcode.setWidth 32 }) ∧
    ∀ t, exec i s = .next t → t.cause = .sequenceError → s.cause = .none →
      sequenceFails i s = true

/-! ### Control commands -/

/-- R141, R342: SRESET gives every element of R65 its reset value, in every state, the error state
included, except CTRL (POLICY and IE), which keeps its value. The host's side of the bus and the
latch are the model's own and stay. -/
def Obligations.SresetRestoresEverythingButCtrl : Prop :=
  ∀ s : State, exec .sreset s = .next
    { policy := s.policy, ie := s.ie, cmd := s.cmd, bus := s.bus
      freq := Vector.replicate 256 0#32, codeSel := 0#8
      err := false, cause := .none, errInfo := 0#32
      treeValid := false, tree := [], root := 0, nleaf := 0
      ltValid := false, lt := [], ltMax := 0#8, ltNsym := 0#9
      codesValid := false, codeLen := Vector.replicate 256 0#8
      codeVal := Vector.replicate 256 0#255
      encAct := false, encAcc := [], decAct := false, dbits := [], hold := 0#8, holdV := false
      ld := State.reset.ld, outq := [] }

/-- R140, R142: NOP changes nothing, in every state; CLR_FREQ makes every FREQ entry 0, in every state
with ERR = 0, and changes nothing else. -/
def Obligations.NopAndClrFreqWriteOnlyFreq : Prop :=
  (∀ s : State, exec .nop s = .next s) ∧
  ∀ s : State, s.err = false → ∃ f : Vector (BitVec 32) 256,
    exec .clrFreq s = .next { s with freq := f } ∧ ∀ sym, fileGet f sym = 0#32

/-! ### BUILD -/

/-- R160, R162 to R165, R167: with some frequency non-zero and no header load or session open, BUILD
leaves a tree with one leaf per symbol present, holding its frequency, each merge taking the two
least (frequency, index) nodes in order, no sum overflowing, and the root's frequency the sum of
all; it clears the table and the codes and changes nothing else. -/
def Obligations.BuildLeavesTheHuffmanTree : Prop :=
  ∀ s : State, s.err = false → s.ld.active = false → s.encAct = false → s.decAct = false →
    (∃ sym, fileGet s.freq sym ≠ 0#32) →
    ∃ tree root,
      exec .build s = .next { s with
        treeValid := true, tree := tree, root := root
        nleaf := (symbols.filter fun sym => decide (fileGet s.freq sym ≠ 0#32)).length
        ltValid := false, lt := [], ltMax := 0#8, ltNsym := 0#9
        codesValid := false, codeLen := Vector.replicate 256 0#8
        codeVal := Vector.replicate 256 0#255 } ∧
      TreeOk tree root (symbols.filter fun sym => decide (fileGet s.freq sym ≠ 0#32)).length ∧
      MergesTakeTheLeast tree ∧
      (∀ sym f, .leaf sym f ∈ tree ↔ f = fileGet s.freq sym ∧ f ≠ 0#32) ∧
      nodeFreq tree root = (symbols.map fun sym => (fileGet s.freq sym).toNat).sum

/-- R161: with every frequency 0, BUILD raises EMPTY_INPUT (cause 1, ERR_INFO 0) and changes nothing
else. -/
def Obligations.BuildOfAnEmptyFrequencyTable : Prop :=
  (∀ s : State, s.err = false → s.ld.active = false → s.encAct = false → s.decAct = false →
    (∀ sym, fileGet s.freq sym = 0#32) →
    exec .build s = .next { s with err := true, cause := .emptyInput, errInfo := 0#32 }) ∧
  Cause.emptyInput.code = 1#8

/-- R166, R182, R206: one symbol alone gives a one-leaf tree; where the policy does not reject it,
DERIVE forces the table to length 1, consumes the tree (R187), clears the codes and changes nothing
else (what ROOT and NLEAF are then is left open); ASSIGN gives the symbol the codeword "0", and the
bit 1 is no codeword. -/
def Obligations.OneSymbolGetsTheCodewordZero : Prop :=
  ∀ (s : State) (sym : Byte), s.err = false → s.ld.active = false → s.encAct = false →
    s.decAct = false → (∀ x, fileGet s.freq x ≠ 0#32 ↔ x = sym) →
    ∃ u : State, exec .build s = .next u ∧ u.treeValid = true ∧
      u.tree = [.leaf sym (fileGet s.freq sym)] ∧ u.root = 0 ∧ u.nleaf = 1 ∧
      (policyRejects s.policy [⟨sym, fileGet s.freq sym, 1⟩] = false →
        ∃ v t : State, exec .derive u = .next v ∧
          v = { u with
            treeValid := false, tree := [], root := v.root, nleaf := v.nleaf
            ltValid := true, lt := [[sym]], ltMax := 1#8, ltNsym := 1#9
            codesValid := false, codeLen := Vector.replicate 256 0#8
            codeVal := Vector.replicate 256 0#255 } ∧
          exec .assign v = .next t ∧ t.codesValid = true ∧
          codeLength t sym = 1 ∧ fileGet t.codeVal sym = 0#255 ∧ t.codeword sym = [false] ∧
          (∀ x, HasCode t x → x = sym) ∧ t.dmap 1 0 = some sym ∧
          ∀ len v', (len, v') ≠ (1, 0) → t.dmap len v' = none)

/-! ### DERIVE -/

/-- R180, R181, R187: with a tree of two or more leaves held and none of DERIVE's checks failing,
DERIVE files every leaf under its depth, left to right, consumes the tree, clears the codes and
changes nothing else. That ROOT and NLEAF are 0 once the tree is consumed is the model's choice
(DEDUCED, log 13). -/
def Obligations.DeriveFilesEveryLeafUnderItsDepth : Prop :=
  ∀ (s : State) (leaves : List LeafAt), s.err = false → s.treeValid = true → 2 ≤ s.nleaf →
    TreeOk s.tree s.root s.nleaf → LeavesUnder s.tree s.root 0 leaves →
    (∀ leaf ∈ leaves, leaf.len ≤ 255) → policyRejects s.policy leaves = false →
    (∀ len, (symbolsAt leaves len).length ≤ 255) →
    ∃ lt ltMax ltNsym,
      exec .derive s = .next { s with
        treeValid := false, tree := [], root := 0, nleaf := 0
        ltValid := true, lt := lt, ltMax := ltMax, ltNsym := ltNsym
        codesValid := false, codeLen := Vector.replicate 256 0#8
        codeVal := Vector.replicate 256 0#255 } ∧
      lt.length = ltMax.toNat ∧ (∃ leaf ∈ leaves, leaf.len = ltMax.toNat) ∧
      (∀ leaf ∈ leaves, leaf.len ≤ ltMax.toNat) ∧ ltNsym.toNat = leaves.length ∧
      ∀ len, 1 ≤ len → len ≤ ltMax.toNat →
        ltEntry lt len = (leaves.filter fun leaf => decide (leaf.len = len)).map LeafAt.sym

/-- R186: DERIVE reports the first error that applies, SEQUENCE_ERROR, then CODE_TOO_LONG, then
UNCOMPRESSIBLE, then COUNT_OVERFLOW with the least overfull length (R184); this build has
L_MAX = 255 (R183). In any build (R8) a depth above its L_MAX is CODE_TOO_LONG, and a depth within it
is derived as here. -/
def Obligations.DeriveReportsTheFirstErrorThatApplies : Prop :=
  (∀ s : State, s.err = false →
    (s.treeValid = false → exec .derive s = .next { s with
      err := true, cause := .sequenceError, errInfo := 0x11#32 }) ∧
    (s.treeValid = true →
      (maxLength s.treeLeaves > 255 → exec .derive s = .next { s with
        err := true, cause := .codeTooLong
        errInfo := BitVec.ofNat 32 (maxLength s.treeLeaves) }) ∧
      (maxLength s.treeLeaves ≤ 255 →
        (policyRejects s.policy s.treeLeaves = true → exec .derive s = .next { s with
          err := true, cause := .uncompressible, errInfo := s.policy.code.setWidth 32 }) ∧
        (policyRejects s.policy s.treeLeaves = false →
          ∀ len, 1 ≤ len → (symbolsAt s.treeLeaves len).length > 255 →
            (∀ k, 1 ≤ k → k < len → (symbolsAt s.treeLeaves k).length ≤ 255) →
            exec .derive s = .next { s with
              err := true, cause := .countOverflow, errInfo := BitVec.ofNat 32 len })))) ∧
  ∀ (p : Params) (s : State), p.legal = true → s.err = false → s.treeValid = true →
    (maxLength s.treeLeaves > p.lMax → execIn p .derive s = .next { s with
      err := true, cause := .codeTooLong
      errInfo := BitVec.ofNat 32 (maxLength s.treeLeaves) }) ∧
    (maxLength s.treeLeaves ≤ p.lMax → execIn p .derive s = exec .derive s)

/-- R185: OFF never rejects, ALL8 rejects exactly the table with all 256 symbols at length 8, and
NO_SAVINGS rejects exactly when 1 + M + Σ_L |D[L]| + ceil(payload_bits / 8) + 1 is at least the
input's size. -/
def Obligations.PolicyRejectsByContainerSize : Prop :=
  ∀ leaves : List LeafAt, (∀ leaf ∈ leaves, 1 ≤ leaf.len) →
    policyRejects .off leaves = false ∧
    (policyRejects .all8 leaves = true ↔
      maxLength leaves = 8 ∧ (symbolsAt leaves 8).length = 256) ∧
    (policyRejects .noSavings leaves = true ↔
      1 + maxLength leaves +
          ((lengths (maxLength leaves)).map fun len => (symbolsAt leaves len).length).sum +
          ((leaves.map fun leaf => leaf.freq.toNat * leaf.len).sum + 7) / 8 + 1 ≥
        (leaves.map fun leaf => leaf.freq.toNat).sum)

/-- R188: the table DERIVE writes from a tree with at least two leaves satisfies Kraft's equality, and
(R52, R53) it is a length table as the spec says one is. -/
def Obligations.DerivedTablesSatisfyKraftsEquality : Prop :=
  ∀ s t : State, s.treeValid = true → TreeOk s.tree s.root s.nleaf → 2 ≤ s.nleaf →
    exec .derive s = .next t → t.err = false →
    kraftSum t.lt t.ltMax.toNat = 2 ^ t.ltMax.toNat ∧ TableOk t.lt t.ltMax t.ltNsym

/-! ### ASSIGN -/

/-- R200, R202, R205, R207: with a length table held and no header load, ASSIGN gives symbol j of
LT[L] the length L and the value first(L) + j, gives every other symbol no codeword, and changes
nothing else. -/
def Obligations.AssignGivesTheCanonicalCodes : Prop :=
  ∀ s : State, s.err = false → s.ld.active = false → s.ltValid = true →
    TableOk s.lt s.ltMax s.ltNsym →
    ∃ t : State, exec .assign s = .next t ∧
      t = { s with codesValid := true, codeLen := t.codeLen, codeVal := t.codeVal } ∧
      (∀ len j sym, 1 ≤ len → len ≤ s.ltMax.toNat → (ltEntry s.lt len)[j]? = some sym →
        codeLength t sym = len ∧ (fileGet t.codeVal sym).toNat = firstCode s.lt len + j) ∧
      ∀ sym, sym ∉ s.lt.flatten →
        fileGet t.codeLen sym = 0#8 ∧ fileGet t.codeVal sym = 0#255

/-- R267 and R200: an ASSIGN while a header load is in progress raises MALFORMED_HEADER with reason 6
and the number of header bytes received, whatever else holds. -/
def Obligations.AssignDuringALoadReportsTruncation : Prop :=
  ∀ s : State, s.err = false → s.ld.active = true →
    exec .assign s = .next { s with
      err := true, cause := .malformedHeader
      errInfo := BitVec.ofNat 32 (6 * 2 ^ 24 + s.ld.pos.toNat) }

/-- R55: while codes are held, the codewords are pairwise distinct and no codeword is the beginning of
another. -/
def Obligations.CodewordsArePrefixFree : Prop :=
  ∀ s : State, CodesOk s → ∀ a b : Byte, a ≠ b → HasCode s a → HasCode s b →
    s.codeword a ≠ s.codeword b ∧ ∀ more, s.codeword b ≠ s.codeword a ++ more

/-- R56: the decode view is the exact inverse of the encode view. -/
def Obligations.DecodeViewInvertsTheEncodeView : Prop :=
  ∀ s : State, CodesOk s → ∀ (sym : Byte) (len v : Nat),
    s.dmap len v = some sym ↔
      0 < len ∧ codeLength s sym = len ∧ (fileGet s.codeVal sym).toNat = v

/-! ### ENC and ENC_FLUSH -/

/-- R220, R87, R88: with a codeword for the symbol and room for the whole bytes, ENC appends the
codeword, most significant bit first, to the pending bits, pushes the whole bytes, keeps the fewer
than 8 bits left, opens the session and changes nothing else. Where CODE_VAL is 2^CODE_LEN or more,
which no run reaches, the codeword being its low bits is the model's choice (DESIGN CHOICE, log 22). -/
def Obligations.EncAppendsTheCodeword : Prop :=
  ∀ (s : State) (sym : Byte), s.err = false → s.codesValid = true → HasCode s sym →
    s.outq.length + (s.encAcc.length + codeLength s sym) / 8 ≤ 1024 →
    ∃ (cw acc : BitSeq) (out : List Byte),
      exec (.enc sym) s = .next
        { s with outq := s.outq ++ out, encAcc := acc, encAct := true } ∧
      cw.length = codeLength s sym ∧
      (∀ k, k < codeLength s sym →
        cw[k]? = some ((fileGet s.codeVal sym).getLsbD (codeLength s sym - 1 - k))) ∧
      unpackBytes out ++ acc = s.encAcc ++ cw ∧ acc.length < 8

/-- R220's errors after the sequence check: NO_CODE with the symbol, then OUTQ_OVERFLOW with the number
of bytes that would be pushed. -/
def Obligations.EncErrors : Prop :=
  (∀ (s : State) (sym : Byte), s.err = false → s.codesValid = true → ¬ HasCode s sym →
    exec (.enc sym) s = .next { s with
      err := true, cause := .noCode, errInfo := sym.setWidth 32 }) ∧
  ∀ (s : State) (sym : Byte), s.err = false → s.codesValid = true → HasCode s sym →
    s.outq.length + (s.encAcc.length + codeLength s sym) / 8 > 1024 →
    exec (.enc sym) s = .next { s with
      err := true, cause := .outqOverflow
      errInfo := BitVec.ofNat 32 ((s.encAcc.length + codeLength s sym) / 8) }

/-- R222, R223, R224: ENC_FLUSH pushes the pending bits padded with zeros to a byte, if there are any,
and then their padding count, and with none pending the single byte 0; it closes the session and
changes nothing else. Where those bytes do not fit it raises OUTQ_OVERFLOW with their number (R61). -/
def Obligations.EncFlushPadsAndPushesTheTrailer : Prop :=
  ∀ s : State, s.err = false → s.codesValid = true → s.encAcc.length ≤ 7 →
    (s.encAcc = [] → s.outq.length + 1 ≤ 1024 →
      exec .encFlush s = .next
        { s with outq := s.outq ++ [0#8], encAcc := [], encAct := false }) ∧
    (s.encAcc ≠ [] → s.outq.length + 2 ≤ 1024 →
      ∃ b : Byte, byteBits b = s.encAcc ++ List.replicate (8 - s.encAcc.length) false ∧
        exec .encFlush s = .next { s with
          outq := s.outq ++ [b, BitVec.ofNat 8 (8 - s.encAcc.length)]
          encAcc := [], encAct := false }) ∧
    (s.encAcc = [] → s.outq.length + 1 > 1024 →
      exec .encFlush s = .next { s with
        err := true, cause := .outqOverflow, errInfo := 1#32 }) ∧
    (s.encAcc ≠ [] → s.outq.length + 2 > 1024 →
      exec .encFlush s = .next { s with
        err := true, cause := .outqOverflow, errInfo := 2#32 })

/-- R225: an encode session of the symbols xs pushes ceil(B / 8) payload bytes and one trailer byte,
(8 − B mod 8) mod 8, where B is the sum of the code lengths; (R221, R227) the payload's bits are the
codewords in input order followed by the padding zeros. Where a CODE_VAL is 2^CODE_LEN or more, which
no run reaches, the codeword being its low bits is the model's choice (DESIGN CHOICE, log 22). -/
def Obligations.AnEncodeSessionPacksTheCodewordsInOrder : Prop :=
  ∀ (s : State) (xs : List Byte) (b : Nat), s.err = false → s.codesValid = true →
    s.encAcc = [] → (∀ x ∈ xs, HasCode s x) → b = (xs.map (codeLength s)).sum →
    s.outq.length + (b + 7) / 8 + 1 ≤ 1024 →
    ∃ payload : List Byte,
      execAll (encSymbols xs ++ [.encFlush]) s = .next { s with
        outq := s.outq ++ payload ++ [BitVec.ofNat 8 ((8 - b % 8) % 8)]
        encAcc := [], encAct := false } ∧
      payload.length = (b + 7) / 8 ∧
      unpackBytes payload =
        xs.flatMap s.codeword ++ List.replicate ((8 - b % 8) % 8) false

/-! ### DEC_FEED and DEC_FINISH -/

/-- R241: with no byte held, DEC_FEED only holds its byte; with a byte held, its bits are appended to
DBITS, the codewords at the front are decoded and pushed, and the bits left, fewer than LT_MAX and
beginning no codeword, stay in DBITS. Nothing else changes. Where the symbols do not fit it raises
OUTQ_OVERFLOW with their number (R61). -/
def Obligations.DecFeedDecodesTheHeldByte : Prop :=
  ∀ (s : State) (b : Byte), s.err = false → CodesOk s →
    (s.holdV = false → s.outq.length ≤ 1024 →
      exec (.decFeed b) s = .next { s with hold := b, holdV := true, decAct := true }) ∧
    (∀ (xs : List Byte) (rest : BitSeq), s.holdV = true → (∀ x ∈ xs, HasCode s x) →
      s.dbits ++ byteBits s.hold = xs.flatMap s.codeword ++ rest → NoCodeBegins s rest →
      rest.length < s.ltMax.toNat →
      (s.outq.length + xs.length ≤ 1024 →
        exec (.decFeed b) s = .next { s with
          outq := s.outq ++ xs, dbits := rest, hold := b, holdV := true, decAct := true }) ∧
      (s.outq.length + xs.length > 1024 →
        exec (.decFeed b) s = .next { s with
          err := true, cause := .outqOverflow, errInfo := BitVec.ofNat 32 xs.length }))

/-- R242: with a padding count of 0 to 7 (0 if no byte is held), DEC_FINISH drops the last bits of the
held byte, decodes what is left exactly, pushes the symbols, closes the session and changes nothing
else. Where the symbols do not fit it raises OUTQ_OVERFLOW with their number (R61). -/
def Obligations.DecFinishDecodesTheTail : Prop :=
  ∀ (s : State) (pad : Byte) (xs : List Byte), s.err = false → CodesOk s → pad.toNat ≤ 7 →
    (s.holdV = false → pad = 0#8) → (∀ x ∈ xs, HasCode s x) →
    s.dbits ++ (if s.holdV = true then (byteBits s.hold).take (8 - pad.toNat) else []) =
      xs.flatMap s.codeword →
    (s.outq.length + xs.length ≤ 1024 →
      exec (.decFinish pad) s = .next { s with
        outq := s.outq ++ xs, dbits := [], hold := 0#8, holdV := false, decAct := false }) ∧
    (s.outq.length + xs.length > 1024 →
      exec (.decFinish pad) s = .next { s with
        err := true, cause := .outqOverflow, errInfo := BitVec.ofNat 32 xs.length })

/-- R242's trailer checks, first in their order: a padding count above 7 is INVALID_DATA reason 3, and
then a non-zero padding count with no byte held is reason 4. -/
def Obligations.DecFinishChecksTheTrailerFirst : Prop :=
  ∀ (s : State) (pad : Byte), s.err = false → s.codesValid = true →
    (pad.toNat > 7 → exec (.decFinish pad) s = .next { s with
      err := true, cause := .invalidData, errInfo := 3#32 }) ∧
    (pad.toNat ≤ 7 → pad ≠ 0#8 → s.holdV = false → exec (.decFinish pad) s = .next { s with
      err := true, cause := .invalidData, errInfo := 4#32 })

/-- R242, R244: a payload cut inside a codeword leaves bits at DEC_FINISH, which raises INVALID_DATA
reason 2 with their number, and nothing is pushed. -/
def Obligations.ACutCodewordIsInvalidData : Prop :=
  ∀ (s : State) (pad : Byte) (xs : List Byte) (rest : BitSeq), s.err = false → CodesOk s →
    s.holdV = true → pad.toNat ≤ 7 → (∀ x ∈ xs, HasCode s x) →
    s.dbits ++ (byteBits s.hold).take (8 - pad.toNat) = xs.flatMap s.codeword ++ rest →
    rest ≠ [] → rest.length < s.ltMax.toNat → NoCodeBegins s rest →
    exec (.decFinish pad) s = .next { s with
      err := true, cause := .invalidData
      errInfo := BitVec.ofNat 32 (rest.length * 2 ^ 16 + 2) }

/-- R245: with a table that satisfies Kraft's equality decoding never fails, whatever the bits, and
neither DEC_FEED nor DEC_FINISH raises INVALID_DATA reason 1; with the one-symbol table decoding fails
as soon as a 1 bit is at the front, and the command that finds it there raises INVALID_DATA reason 1
with the number of bits from it on, and changes nothing else. What is left over is shorter than
LT_MAX (R243). -/
def Obligations.DecodingFailsOnlyForTheOneSymbolTable : Prop :=
  ∀ s : State, CodesOk s →
    (kraftSum s.lt s.ltMax.toNat = 2 ^ s.ltMax.toNat →
      (∀ bits, ∃ rest out, greedy s.dmap bits s.ltMax.toNat = .ok (rest, out) ∧
        rest.length < s.ltMax.toNat) ∧
      ∀ (i : Instr) (b : Byte) (t : State), i = .decFeed b ∨ i = .decFinish b → s.err = false →
        exec i s = .next t → t.err = true → t.cause = .invalidData →
        t.errInfo.toNat % 256 ≠ 1) ∧
    (∀ sym, s.lt = [[sym]] →
      (∀ bits, greedy s.dmap (true :: bits) s.ltMax.toNat = .error (bits.length + 1)) ∧
      (∀ (b : Byte) (n : Nat) (rest : BitSeq), s.err = false → s.holdV = true →
        s.dbits ++ byteBits s.hold = List.replicate n false ++ true :: rest →
        exec (.decFeed b) s = .next { s with
          err := true, cause := .invalidData
          errInfo := BitVec.ofNat 32 ((rest.length + 1) * 2 ^ 16 + 1) }) ∧
      ∀ (pad : Byte) (n : Nat) (rest : BitSeq), s.err = false → pad.toNat ≤ 7 →
        (s.holdV = false → pad = 0#8) →
        s.dbits ++ (if s.holdV = true then (byteBits s.hold).take (8 - pad.toNat) else []) =
          List.replicate n false ++ true :: rest →
        exec (.decFinish pad) s = .next { s with
          err := true, cause := .invalidData
          errInfo := BitVec.ofNat 32 ((rest.length + 1) * 2 ^ 16 + 1) })

/-- R248, R227: decoding inverts encoding. Encode the symbols xs and flush; feed the payload bytes back
and finish with the trailer; the bytes pushed are xs, no error is raised, and the rest of the state
is as before. -/
def Obligations.DecodingInvertsEncoding : Prop :=
  ∀ (s : State) (xs : List Byte), s.err = false → CodesOk s → s.encAct = false →
    s.encAcc = [] → s.decAct = false → s.dbits = [] → s.hold = 0#8 → s.holdV = false →
    s.outq = [] → (∀ x ∈ xs, HasCode s x) → xs.length ≤ 1024 →
    ((xs.map (codeLength s)).sum + 7) / 8 + 1 ≤ 1024 →
    ∃ (payload : List Byte) (trailer : Byte),
      execAll (encSymbols xs ++ [.encFlush]) s =
        .next { s with outq := payload ++ [trailer] } ∧
      execAll (decodePayload payload trailer) s = .next { s with outq := xs }

/-! ### The length-table port -/

/-- R260: with a length table held and room, HDR_EMIT pushes LT_MAX, the count of each length 1..LT_MAX,
and the symbols by ascending length in discovery order, and changes nothing else; with too little
room it raises OUTQ_OVERFLOW with the number of bytes (R61). -/
def Obligations.HdrEmitPushesTheHeader : Prop :=
  ∀ s : State, s.err = false → s.ltValid = true → TableOk s.lt s.ltMax s.ltNsym →
    (s.outq.length + 1 + s.ltMax.toNat + s.ltNsym.toNat ≤ 1024 →
      ∃ counts : List Byte, counts.map BitVec.toNat = s.lt.map List.length ∧
        exec .hdrEmit s = .next
          { s with outq := s.outq ++ s.ltMax :: counts ++ s.lt.flatten }) ∧
    (s.outq.length + 1 + s.ltMax.toNat + s.ltNsym.toNat > 1024 →
      exec .hdrEmit s = .next { s with
        err := true, cause := .outqOverflow
        errInfo := BitVec.ofNat 32 (1 + s.ltMax.toNat + s.ltNsym.toNat) })

/-- R262: with no session open, HDR_BEGIN clears the tree, the table and the codes and starts a header
load, restarting one in progress, and changes nothing else; with a session open it raises
SEQUENCE_ERROR. That ROOT and NLEAF become 0 with the tree is the model's choice (DEDUCED,
log 13). -/
def Obligations.HdrBeginStartsALoad : Prop :=
  (∀ s : State, s.err = false → s.encAct = false → s.decAct = false →
    exec .hdrBegin s = .next { s with
      treeValid := false, tree := [], root := 0, nleaf := 0
      ltValid := false, lt := [], ltMax := 0#8, ltNsym := 0#9
      codesValid := false, codeLen := Vector.replicate 256 0#8
      codeVal := Vector.replicate 256 0#255
      ld :=
        { active := true, phase := .n, n := 0#8, counts := Vector.replicate 255 0#8, idx := 0#8
          left := 0#9, total := 0#9, lt := Vector.replicate 255 [], seen := 0#256
          pos := 0#10 } }) ∧
  ∀ s : State, s.err = false → s.encAct = true ∨ s.decAct = true →
    exec .hdrBegin s = .next { s with
      err := true, cause := .sequenceError, errInfo := 0x21#32 }

/-- R264, R263: the first header byte is N; 0 is MALFORMED_HEADER reason 1 at its position (in this
build no byte is above L_MAX = 255), any other starts the counts at length 1. In any build (R8) a byte
above its L_MAX is reason 1 too. -/
def Obligations.TheFirstHeaderByteIsN : Prop :=
  (∀ (s : State) (b : Byte), s.err = false → s.ld.active = true → s.ld.phase = .n →
    (b = 0#8 → exec (.hdrByte b) s = .next { s with
      err := true, cause := .malformedHeader
      errInfo := BitVec.ofNat 32 (1 * 2 ^ 24 + s.ld.pos.toNat) }) ∧
    (b ≠ 0#8 → exec (.hdrByte b) s = .next { s with
      ld := { s.ld with n := b, idx := 1#8, phase := .counts, pos := s.ld.pos + 1#10 } })) ∧
  ∀ (p : Params) (s : State) (b : Byte), s.err = false → s.ld.active = true →
    s.ld.phase = .n →
    (b = 0#8 ∨ b.toNat > p.lMax → execIn p (.hdrByte b) s = .next { s with
      err := true, cause := .malformedHeader
      errInfo := BitVec.ofNat 32 (1 * 2 ^ 24 + s.ld.pos.toNat) }) ∧
    (b ≠ 0#8 → b.toNat ≤ p.lMax → execIn p (.hdrByte b) s = .next { s with
      ld := { s.ld with n := b, idx := 1#8, phase := .counts, pos := s.ld.pos + 1#10 } })

/-- R265, R263: a count byte. More than 256 symbols in all is reason 2; below length N the count is
stored and the next length comes; at length N a count of 0 is reason 3, and otherwise the symbols of
the least length that has any come next. -/
def Obligations.CountBytesFillTheCounts : Prop :=
  ∀ (s : State) (b : Byte), s.err = false → s.ld.active = true → s.ld.phase = .counts →
    1 ≤ s.ld.idx.toNat → s.ld.idx.toNat ≤ s.ld.n.toNat →
    (s.ld.total.toNat + b.toNat > 256 → exec (.hdrByte b) s = .next { s with
      err := true, cause := .malformedHeader
      errInfo := BitVec.ofNat 32 (2 * 2 ^ 24 + s.ld.pos.toNat) }) ∧
    (s.ld.total.toNat + b.toNat ≤ 256 →
      (s.ld.idx.toNat < s.ld.n.toNat → ∃ ld : Loader,
        exec (.hdrByte b) s = .next { s with ld := ld } ∧
        ld = { s.ld with
          counts := ld.counts, total := BitVec.ofNat 9 (s.ld.total.toNat + b.toNat)
          idx := s.ld.idx + 1#8, pos := s.ld.pos + 1#10 } ∧
        ∀ len, ld.count len =
          if len = s.ld.idx.toNat then b.toNat else s.ld.count len) ∧
      (s.ld.idx = s.ld.n → b = 0#8 → exec (.hdrByte b) s = .next { s with
        err := true, cause := .malformedHeader
        errInfo := BitVec.ofNat 32 (3 * 2 ^ 24 + s.ld.pos.toNat) }) ∧
      (s.ld.idx = s.ld.n → b ≠ 0#8 → ∃ ld : Loader,
        exec (.hdrByte b) s = .next { s with ld := ld } ∧
        ld = { s.ld with
          counts := ld.counts, total := BitVec.ofNat 9 (s.ld.total.toNat + b.toNat)
          idx := ld.idx, left := ld.left, phase := .syms, pos := s.ld.pos + 1#10 } ∧
        (∀ len, ld.count len =
          if len = s.ld.idx.toNat then b.toNat else s.ld.count len) ∧
        0 < ld.count ld.idx.toNat ∧ (∀ len, len < ld.idx.toNat → ld.count len = 0) ∧
        ld.left.toNat = ld.count ld.idx.toNat))

/-- R266, R263: a symbol byte. A repeated symbol is reason 4; otherwise it joins its length, and if more
are expected the load goes on; after a length's last symbol the next length that has any comes; after
the last symbol of all, Kraft's test decides between reason 5 and the completed table, with every
other LD element 0 or empty (the rule names no phase for then, and LD_PHASE is left open). -/
def Obligations.SymbolBytesFillTheTable : Prop :=
  ∀ (s : State) (b : Byte), s.err = false → s.ld.active = true → s.ld.phase = .syms →
    LoadOk s.ld →
    (b ∈ loadedSymbols s.ld → exec (.hdrByte b) s = .next { s with
      err := true, cause := .malformedHeader
      errInfo := BitVec.ofNat 32 (4 * 2 ^ 24 + s.ld.pos.toNat) }) ∧
    (b ∉ loadedSymbols s.ld →
      (1 < s.ld.left.toNat ∨ s.ld.idx.toNat < s.ld.n.toNat → ∃ ld : Loader,
        exec (.hdrByte b) s = .next { s with ld := ld } ∧
        ld = { s.ld with
          lt := ld.lt, seen := ld.seen, idx := ld.idx, left := ld.left
          pos := s.ld.pos + 1#10 } ∧
        (∀ len, ld.entry len =
          if len = s.ld.idx.toNat then s.ld.entry len ++ [b] else s.ld.entry len) ∧
        (∀ sym : Byte, ld.seen.getLsbD sym.toNat =
          (s.ld.seen.getLsbD sym.toNat || decide (sym = b))) ∧
        (1 < s.ld.left.toNat → ld.idx = s.ld.idx ∧ ld.left.toNat + 1 = s.ld.left.toNat) ∧
        (s.ld.left.toNat = 1 → s.ld.idx.toNat < ld.idx.toNat ∧
          0 < s.ld.count ld.idx.toNat ∧
          (∀ len, s.ld.idx.toNat < len → len < ld.idx.toNat → s.ld.count len = 0) ∧
          ld.left.toNat = s.ld.count ld.idx.toNat)) ∧
      (s.ld.left.toNat = 1 → s.ld.idx = s.ld.n →
        (kraftOk s.ld.count s.ld.n.toNat = true → ∃ (lt : List (List Byte)) (ph : LdPhase),
          exec (.hdrByte b) s = .next { s with
            lt := lt, ltMax := s.ld.n, ltNsym := s.ld.total, ltValid := true
            ld := { Loader.idle with phase := ph } } ∧
          lt.length = s.ld.n.toNat ∧
          ∀ len, 1 ≤ len → len ≤ s.ld.n.toNat → ltEntry lt len =
            if len = s.ld.idx.toNat then s.ld.entry len ++ [b] else s.ld.entry len) ∧
        (kraftOk s.ld.count s.ld.n.toNat = false → exec (.hdrByte b) s = .next { s with
          err := true, cause := .malformedHeader
          errInfo := BitVec.ofNat 32 (5 * 2 ^ 24 + s.ld.pos.toNat) })))

/-- R268: the bytes that HDR_EMIT pushes for a length table, loaded byte by byte, complete on the last
byte and rebuild the identical table, in any state with no session open. Any table of R53 is meant,
and DERIVE writes no other (DerivedTablesSatisfyKraftsEquality, OneSymbolGetsTheCodewordZero). That
ROOT and NLEAF are 0 with no tree held, and LD_PHASE N with no load in progress, is the model's choice
(DEDUCED, log 13). -/
def Obligations.HeaderRoundTripRebuildsTheTable : Prop :=
  ∀ (s t u : State) (bytes : List Byte), s.err = false → s.ltValid = true →
    TableOk s.lt s.ltMax s.ltNsym → exec .hdrEmit s = .next t → t.err = false →
    t.outq = s.outq ++ bytes → u.err = false → u.encAct = false → u.decAct = false →
    execAll (hdrLoad bytes) u = .next { u with
      treeValid := false, tree := [], root := 0, nleaf := 0
      ltValid := true, lt := s.lt, ltMax := s.ltMax, ltNsym := s.ltNsym
      codesValid := false, codeLen := Vector.replicate 256 0#8
      codeVal := Vector.replicate 256 0#255
      ld := Loader.idle }

/-! ### The output queue and the frame of every command -/

/-- R61: every command but SRESET only appends to OUTQ, only HDR_EMIT, ENC, ENC_FLUSH, DEC_FEED and
DEC_FINISH append anything, and a queue within its capacity stays so. -/
def Obligations.CommandsOnlyAppendToTheQueue : Prop :=
  ∀ (i : Instr) (s t : State), i ≠ .sreset → exec i s = .next t →
    ∃ out : List Byte, t.outq = s.outq ++ out ∧
      (s.outq.length ≤ 1024 → t.outq.length ≤ 1024) ∧
      (out ≠ [] → i = .hdrEmit ∨ i = .encFlush ∨ (∃ x, i = .enc x) ∨ (∃ b, i = .decFeed b) ∨
        ∃ p, i = .decFinish p)

/-- R346: the most bytes each command pushes. -/
def Obligations.MostBytesACommandPushes : Prop :=
  ∀ (i : Instr) (s t : State), BlockInv s → i ≠ .sreset → exec i s = .next t →
    t.outq.length ≤ s.outq.length +
      match i with
      | .hdrEmit => min (1 + s.ltMax.toNat + s.ltNsym.toNat) 512
      | .enc x => min ((s.encAcc.length + codeLength s x) / 8) 32
      | .encFlush => 2
      | .decFeed _ => min (s.dbits.length + 8) 262
      | .decFinish _ => min (s.dbits.length + 8) 262
      | .nop => 0
      | .sreset => 0
      | .clrFreq => 0
      | .build => 0
      | .derive => 0
      | .assign => 0
      | .hdrBegin => 0
      | .hdrByte _ => 0

/-- What each kind of state is written by: no command touches the host's side of the bus or the latch;
no command writes CTRL, and only SRESET writes CODE_SEL; FREQ is written by CLR_FREQ and SRESET
alone, TREE by BUILD, DERIVE, HDR_BEGIN and SRESET, the table by BUILD, DERIVE, HDR_BEGIN, HDR_BYTE
and SRESET, the codes by BUILD, DERIVE, ASSIGN, HDR_BEGIN and SRESET, the encoder by ENC, ENC_FLUSH
and SRESET, the decoder by DEC_FEED, DEC_FINISH and SRESET, the loader by HDR_BEGIN, HDR_BYTE and
SRESET (the "Flags written" lines of the command rules). -/
def Obligations.WhatEachCommandMayWrite : Prop :=
  ∀ (i : Instr) (s t : State), exec i s = .next t →
    t.bus = s.bus ∧ t.cmd = s.cmd ∧ t.policy = s.policy ∧ t.ie = s.ie ∧
    (t.codeSel ≠ s.codeSel → i = .sreset) ∧
    (t.freq ≠ s.freq → i = .clrFreq ∨ i = .sreset) ∧
    ((t.treeValid, t.tree, t.root, t.nleaf) ≠ (s.treeValid, s.tree, s.root, s.nleaf) →
      i = .build ∨ i = .derive ∨ i = .hdrBegin ∨ i = .sreset) ∧
    ((t.ltValid, t.lt, t.ltMax, t.ltNsym) ≠ (s.ltValid, s.lt, s.ltMax, s.ltNsym) →
      i = .build ∨ i = .derive ∨ i = .hdrBegin ∨ (∃ b, i = .hdrByte b) ∨ i = .sreset) ∧
    ((t.codesValid, t.codeLen, t.codeVal) ≠ (s.codesValid, s.codeLen, s.codeVal) →
      i = .build ∨ i = .derive ∨ i = .assign ∨ i = .hdrBegin ∨ i = .sreset) ∧
    ((t.encAct, t.encAcc) ≠ (s.encAct, s.encAcc) →
      (∃ x, i = .enc x) ∨ i = .encFlush ∨ i = .sreset) ∧
    ((t.decAct, t.dbits, t.hold, t.holdV) ≠ (s.decAct, s.dbits, s.hold, s.holdV) →
      (∃ b, i = .decFeed b) ∨ (∃ p, i = .decFinish p) ∨ i = .sreset) ∧
    (t.ld ≠ s.ld → i = .hdrBegin ∨ (∃ b, i = .hdrByte b) ∨ i = .sreset)

/-! ### The register window -/

/-- R40: a read of OUT_DATA with bytes queued returns VALID and the head and pops it; with none queued
it returns 0 and changes nothing; it works while ERR = 1, and writes are ignored. -/
def Obligations.OutDataReadPopsTheQueue : Prop :=
  ∀ s : State, s.busy = false →
    (∀ (b : Byte) (rest : List Byte), s.outq = b :: rest →
      s.busRead 0x01C#11 = { s with
        outq := rest
        bus := { s.bus with reads := s.bus.reads ++ [⟨0x01C#11, 1#1 ++ 0#23 ++ b⟩] } }) ∧
    (s.outq = [] → s.busRead 0x01C#11 = { s with
      bus := { s.bus with reads := s.bus.reads ++ [⟨0x01C#11, 0#32⟩] } }) ∧
    ∀ v : Word, s.busWrite 0x01C#11 v = s

/-- R80, R85: with BUSY = 0 a read of any register but OUT_DATA returns the register's value and changes
nothing: only the host's record of the value grows, and the same read again returns the same value. -/
def Obligations.OtherReadsHaveNoSideEffect : Prop :=
  ∀ (s : State) (off : Offset), s.busy = false → off.toNat % 4 = 0 → off ≠ 0x01C#11 →
    s.busRead off = { s with
      bus := { s.bus with reads := s.bus.reads ++ [⟨off, s.regWord (regAt off)⟩] } } ∧
    (s.busRead off).busRead off = { s with
      bus := { s.bus with
        reads := s.bus.reads ++
          [⟨off, s.regWord (regAt off)⟩, ⟨off, s.regWord (regAt off)⟩] } }

/-- R33, R34, R37 to R39, R41 to R43, R46, R47: what the plain registers read, by offset, CAUSE with the
codes of R300; PARAM reads the L_MAX and the OUTQ_DEPTH of any build (R8). -/
def Obligations.RegistersReadTheirFields : Prop :=
  (∀ (p : Params) (s : State), p.legal = true → p.outqDepth < 2 ^ 16 →
    (s.regWord (regAt 0x004#11) p).toNat = p.lMax + p.outqDepth * 2 ^ 16) ∧
  ∀ s : State,
    s.regWord (regAt 0x000#11) = 0x48554631#32 ∧ s.regWord (regAt 0x004#11) = 0x040000FF#32 ∧
    (s.regWord (regAt 0x010#11)).toNat =
      (match s.cause with
        | .none => 0
        | .emptyInput => 1
        | .codeTooLong => 2
        | .uncompressible => 3
        | .malformedHeader => 4
        | .invalidData => 5
        | .illegalCommand => 6
        | .sequenceError => 7
        | .countOverflow => 8
        | .noCode => 9
        | .outqOverflow => 10) ∧
    s.regWord (regAt 0x014#11) = s.errInfo ∧
    s.regWord (regAt 0x018#11) = 0#32 ∧
    (s.outq.length ≤ 1024 → (s.regWord (regAt 0x020#11)).toNat = s.outq.length) ∧
    s.regWord (regAt 0x024#11) = 0#24 ++ s.ltMax ∧
    s.regWord (regAt 0x028#11) = 0#23 ++ s.ltNsym ∧
    s.regWord (regAt 0x030#11) = 0#24 ++ s.codeSel ∧
    s.regWord (regAt 0x034#11) = 0#24 ++ fileGet s.codeLen s.codeSel

/-- R36: each bit of STATUS, IRQ among them as ERR ∧ CTRL.IE (R63, R320); writes are ignored, and it
reads 0 after reset. -/
def Obligations.StatusBits : Prop :=
  (∀ (s : State) (v : Word), s.busWrite 0x00C#11 v = s) ∧
  State.reset.regWord (regAt 0x00C#11) = 0#32 ∧
  ∀ s : State,
    let w := s.regWord (regAt 0x00C#11)
    w.getLsbD 0 = s.busy ∧ w.getLsbD 1 = s.err ∧ w.getLsbD 2 = s.treeValid ∧
    w.getLsbD 3 = s.ltValid ∧ w.getLsbD 4 = s.codesValid ∧ w.getLsbD 5 = s.ld.active ∧
    w.getLsbD 6 = s.encAct ∧ w.getLsbD 7 = s.decAct ∧ w.getLsbD 8 = s.holdV ∧
    w.getLsbD 9 = (s.err && s.ie) ∧ ∀ n, 10 ≤ n → w.getLsbD n = false

/-- R44: the fields of BITPOS. -/
def Obligations.BitPosFields : Prop :=
  ∀ s : State, s.encAcc.length ≤ 7 → s.dbits.length ≤ 262 →
    let w := s.regWord (regAt 0x02C#11)
    (w.extractLsb' 0 3).toNat = s.encAcc.length ∧ w.extractLsb' 3 5 = 0#5 ∧
    byteBits (w.extractLsb' 8 8) =
      s.encAcc ++ List.replicate (8 - s.encAcc.length) false ∧
    (w.extractLsb' 16 9).toNat = s.dbits.length ∧ w.extractLsb' 25 7 = 0#7

/-- R48, R83: CODE_WORD0..7 show the selected codeword, least significant word first. -/
def Obligations.CodeWordsShowTheSelectedCodeword : Prop :=
  ∀ (s : State) (k b : Nat), k < 8 → b < 32 →
    (s.regWord (regAt (BitVec.ofNat 11 (0x038 + 4 * k)))).getLsbD b =
      (fileGet s.codeVal s.codeSel).getLsbD (32 * k + b)

/-- R35: a write of CTRL sets IE from bit 8 and POLICY from bits [1:0] unless they are 3, ignores every
other bit, CTRL reads back as POLICY and IE with every other bit 0, and after reset POLICY is ALL8
and IE is 0. -/
def Obligations.CtrlWritesPolicyAndInterruptEnable : Prop :=
  State.reset.policy = .all8 ∧ State.reset.ie = false ∧
  (∀ (s : State) (v : Word), s.busy = false → ∃ p : Policy,
    s.busWrite 0x008#11 v = { s with policy := p, ie := v.getLsbD 8 } ∧
    (v.toNat % 4 = 0 → p = .off) ∧ (v.toNat % 4 = 1 → p = .all8) ∧
    (v.toNat % 4 = 2 → p = .noSavings) ∧ (v.toNat % 4 = 3 → p = s.policy)) ∧
  ∀ s : State, (s.regWord (regAt 0x008#11)).toNat =
    (match s.policy with | .off => 0 | .all8 => 1 | .noSavings => 2) +
      if s.ie = true then 256 else 0

/-- R45, R46: a write of FREQ[s] stores all 32 bits, a read returns them, and no other entry and nothing
else changes; a write of CODE_SEL stores its low byte, which reads back, and changes nothing else. -/
def Obligations.FreqAndCodeSelReadBackWhatIsWritten : Prop :=
  (∀ (s : State) (sym : Byte) (v : Word), s.busy = false → ∃ f : Vector (BitVec 32) 256,
    s.busWrite (freqOffset sym) v = { s with freq := f } ∧ fileGet f sym = v ∧
    (∀ x, x ≠ sym → fileGet f x = fileGet s.freq x) ∧
    (s.busWrite (freqOffset sym) v).regWord (regAt (freqOffset sym)) = v ∧
    (freqOffset sym).toNat = 0x400 + 4 * sym.toNat) ∧
  ∀ (s : State) (v : Word), s.busy = false →
    s.busWrite 0x030#11 v = { s with codeSel := BitVec.ofNat 8 (v.toNat % 256) } ∧
    ((s.busWrite 0x030#11 v).regWord (regAt 0x030#11)).toNat = v.toNat % 256

/-- R49 and the read-only rows of R32: writes to read-only registers and to reserved offsets are
ignored, and reserved offsets read 0. -/
def Obligations.ReadOnlyAndReservedOffsetsIgnoreWrites : Prop :=
  ∀ (s : State) (off : Offset) (v : Word), off.toNat % 4 = 0 → off.toNat < 0x400 →
    off ≠ 0x008#11 → off ≠ 0x018#11 → off ≠ 0x030#11 →
    s.busWrite off v = s ∧ (0x058 ≤ off.toNat → s.regWord (regAt off) = 0#32)

/-- R81, R304: an access of another width, or at an offset that is not a multiple of 4, is a bus error:
the host program faults, and no state in which ERR, CAUSE or ERR_INFO was written comes about. An
aligned 32-bit access is served. -/
def Obligations.IllegalAccessesAreBusErrors : Prop :=
  ∀ (s : State) (width : Width) (off : Offset) (v : Word) (rest : List BusEvent),
    s.cmd = none →
    (width ≠ .w32 ∨ off.toNat % 4 ≠ 0 →
      (s.bus.pending = .read width off :: rest → step s = .fault (.busError width off)) ∧
      (s.bus.pending = .write width off v :: rest → step s = .fault (.busError width off))) ∧
    (width = .w32 → off.toNat % 4 = 0 →
      (s.bus.pending = .read width off :: rest →
        step s = .next (State.busRead { s with bus := { s.bus with pending := rest } } off)) ∧
      (s.bus.pending = .write width off v :: rest →
        step s = .next (State.busWrite { s with bus := { s.bus with pending := rest } } off v)))

/-- R39, R31, R36: a CMD write issues its word: BUSY reads 1 until the command completes, and nothing
else of the block changes. (The latch and the durations are the model's, log 2.) -/
def Obligations.CmdWriteIssuesTheCommand : Prop :=
  ∀ (s : State) (w : Word), s.busy = false → (s.err = false ∨ w = 0x01000000#32) →
    ∃ (left : Nat) (later : List Nat),
      s.busWrite 0x018#11 w = { s with
        cmd := some ⟨w, left⟩, bus := { s.bus with durations := later } } ∧
      (s.busWrite 0x018#11 w).statusWord.getLsbD 0 = true

/-- R352: while BUSY = 1 every write is dropped, OUT_DATA reads 0 and pops nothing, STATUS, ID, PARAM
and CTRL read as always (STATUS with BUSY = 1), any other read returns a free value (log 3; it holds
for every value), and no read changes the block. That a host sees BUSY = 1 at all is the model's
choice among those R352 allows (logs 2, 5). -/
def Obligations.BusyDropsAccesses : Prop :=
  ∀ s : State, s.busy = true →
    (∀ (off : Offset) (v : Word), s.busWrite off v = s) ∧
    (s.busRead 0x01C#11).bus.reads = s.bus.reads ++ [⟨0x01C#11, 0#32⟩] ∧
    (s.busRead 0x00C#11).bus.reads = s.bus.reads ++ [⟨0x00C#11, s.statusWord⟩] ∧
    s.statusWord.getLsbD 0 = true ∧
    (s.busRead 0x000#11).bus.reads = s.bus.reads ++ [⟨0x000#11, 0x48554631#32⟩] ∧
    (s.busRead 0x004#11).bus.reads = s.bus.reads ++ [⟨0x004#11, 0x040000FF#32⟩] ∧
    (s.busRead 0x008#11).bus.reads = s.bus.reads ++ [⟨0x008#11, s.ctrlWord⟩] ∧
    (∀ off : Offset, off.toNat % 4 = 0 →
      off ∉ [0x000#11, 0x004#11, 0x008#11, 0x00C#11, 0x01C#11] →
      ∃ n, (s.busRead off).bus.reads = s.bus.reads ++ [⟨off, Config.busyRead n⟩]) ∧
    ∀ off : Offset, s.busRead off = { s with bus := (s.busRead off).bus }

/-! ### Reset and invariants -/

/-- R65: the value of every state element after reset, by register and field. That LD_PHASE reads N,
where R65 says 0 / empty, is the model's choice (DEDUCED, log 13). -/
def Obligations.ResetValues : Prop :=
  let s := State.reset
  s.policy = .all8 ∧ s.ie = false ∧ (∀ sym, fileGet s.freq sym = 0#32) ∧ s.codeSel = 0#8 ∧
  s.busy = false ∧ s.err = false ∧ s.cause.code = 0#8 ∧ s.errInfo = 0#32 ∧
  s.treeValid = false ∧ s.tree = [] ∧ s.root = 0 ∧ s.nleaf = 0 ∧
  s.ltValid = false ∧ s.lt = [] ∧ s.ltMax = 0#8 ∧ s.ltNsym = 0#9 ∧
  s.codesValid = false ∧ (∀ sym, fileGet s.codeLen sym = 0#8 ∧ fileGet s.codeVal sym = 0#255) ∧
  (∀ len v, s.dmap len v = none) ∧
  s.encAct = false ∧ s.encAcc = [] ∧ s.decAct = false ∧ s.dbits = [] ∧ s.hold = 0#8 ∧
  s.holdV = false ∧ s.ld.active = false ∧ s.ld.phase = .n ∧ s.ld.n = 0#8 ∧
  (∀ len, s.ld.count len = 0) ∧ s.ld.idx = 0#8 ∧ s.ld.left = 0#9 ∧ s.ld.total = 0#9 ∧
  (∀ len, s.ld.entry len = []) ∧ s.ld.seen = 0#256 ∧ s.ld.pos = 0#10 ∧ s.outq = [] ∧
  s.irq = false

/-- R340: when the reset input is asserted every element takes its reset value, CTRL included, and a
command in execution is abandoned with no effect. -/
def Obligations.ResetInputRestoresEverything : Prop :=
  ∀ (s : State) (rest : List BusEvent), s.bus.pending = .reset :: rest →
    (s.cmd = none ∨ ∃ w k, s.cmd = some ⟨w, k + 1⟩) →
    step s = .next { State.reset with bus := { s.bus with pending := rest } }

/-- The state after reset meets both invariants (with LD_PHASE = N among them, the model's choice:
DEDUCED, log 13). -/
def Obligations.ResetMeetsTheInvariants : Prop := CoreInv State.reset ∧ BlockInv State.reset

/-- Every step keeps the relations between the flags (R50, R306), the emptiness of what they guard
(R37, R38, R50, R57, R58, R60; R222, R241 and R242 for the sessions) and the capacities (R57, R61,
R243), from every state that meets them. That ROOT and NLEAF are 0 while TREE_VALID = 0, and LD_PHASE
N while LD_ACTIVE = 0, is the model's choice (DEDUCED, log 13). -/
def Obligations.StepKeepsTheCoreInvariant : Prop :=
  ∀ s t : State, CoreInv s → step s = .next t → CoreInv t

/-- Every step keeps the invariant of the whole block, from every state that meets it: the tree held is
one BUILD makes (R51), the table one of R53, the codes those of the table (R54), and a header load in
progress consistent with the bytes it has accepted (R60). It contains the core invariant, whose ROOT
and NLEAF of 0 while TREE_VALID = 0 and LD_PHASE of N while LD_ACTIVE = 0 are the model's choice
(DEDUCED, log 13). -/
def Obligations.StepKeepsTheBlockInvariant : Prop :=
  ∀ s t : State, BlockInv s → step s = .next t → BlockInv t
end

