-- ==== Sys2Proof/Laws/Bits.lean ====
section
/-! SUPPORT. Bit sequences: the two conversions between integers and bits undo each other, and packing
bits into bytes loses none (spec/00_scope.md rule R10, spec/20_memory.md rules R87, R88). -/

namespace Sys2Proof.Machine

@[simp] theorem bitsMsb_length (v n : Nat) : (bitsMsb v n).length = n := by simp [bitsMsb]

@[simp] theorem bitsMsb_getElem? (v n k : Nat) :
    (bitsMsb v n)[k]? = if k < n then some (v.testBit (n - 1 - k)) else none := by
  unfold bitsMsb
  rw [List.getElem?_map]
  split
  · next h => rw [List.getElem?_range h, Option.map_some]
  · next h => rw [List.getElem?_eq_none (by simpa using h), Option.map_none]

@[simp] theorem bitsVal_nil : bitsVal [] = 0 := rfl

@[simp] theorem zeroBits_length (n : Nat) : (zeroBits n).length = n := List.length_replicate

/-- The value of a sequence extended by one bit. -/
theorem bitsVal_append_singleton (b : BitSeq) (x : Bool) :
    bitsVal (b ++ [x]) = 2 * bitsVal b + x.toNat := by
  simp [bitsVal, List.foldl_append]

theorem bitsVal_lt (b : BitSeq) : bitsVal b < 2 ^ b.length := by
  induction b using List.reverseRecOn with
  | nil => simp
  | append_singleton b x ih =>
    rw [bitsVal_append_singleton, List.length_append, List.length_singleton, Nat.pow_succ]
    have := Bool.toNat_le x
    omega

/-- bits_msb extended by one bit at the end. -/
theorem bitsMsb_succ (v n : Nat) : bitsMsb v (n + 1) = bitsMsb (v / 2) n ++ [v.testBit 0] := by
  unfold bitsMsb
  rw [List.range_succ, List.map_append, List.map_singleton]
  congr 1
  · apply List.map_congr_left
    intro k hk
    rw [List.mem_range] at hk
    rw [Nat.testBit_div_two]
    congr 1
    omega
  · simp

@[simp] theorem bitsMsb_zero (v : Nat) : bitsMsb v 0 = [] := rfl

/-- The bits of an integer give it back, modulo the width. -/
theorem bitsVal_bitsMsb (v n : Nat) : bitsVal (bitsMsb v n) = v % 2 ^ n := by
  induction n generalizing v with
  | zero => simp [Nat.mod_one]
  | succ n ih =>
    rw [bitsMsb_succ, bitsVal_append_singleton, ih, Nat.testBit_zero, Nat.pow_succ]
    have h : (decide (v % 2 = 1)).toNat = v % 2 := by
      rcases Nat.mod_two_eq_zero_or_one v with h | h <;> simp [h]
    rw [h, Nat.mul_comm (2 ^ n) 2, Nat.mod_mul]
    omega

/-- The value of a sequence gives its bits back. -/
theorem bitsMsb_bitsVal (b : BitSeq) : bitsMsb (bitsVal b) b.length = b := by
  induction b using List.reverseRecOn with
  | nil => rfl
  | append_singleton b x ih =>
    rw [bitsVal_append_singleton, List.length_append, List.length_singleton, bitsMsb_succ]
    have h1 : (2 * bitsVal b + x.toNat) / 2 = bitsVal b := by
      have := Bool.toNat_le x
      omega
    have h2 : (2 * bitsVal b + x.toNat).testBit 0 = x := by
      cases x <;> simp [Nat.testBit_zero]
    rw [h1, h2, ih]

/-- Two sequences of one length with one value are equal. -/
theorem bits_eq_of_bitsVal {a b : BitSeq} (hl : a.length = b.length) (hv : bitsVal a = bitsVal b) :
    a = b := by
  rw [← bitsMsb_bitsVal a, ← bitsMsb_bitsVal b, hl, hv]

@[simp] theorem byteBits_length (b : Byte) : (byteBits b).length = 8 := by simp [byteBits]

/-- A byte's bits make the byte again. -/
@[simp] theorem bitsByte_byteBits (b : Byte) : bitsByte (byteBits b) = b := by
  rw [bitsByte, byteBits, bitsVal_bitsMsb, Nat.mod_eq_of_lt b.isLt, BitVec.ofNat_toNat,
    BitVec.setWidth_eq]

/-- Eight bits are the bits of the byte they make. -/
theorem byteBits_bitsByte {b : BitSeq} (h : b.length = 8) : byteBits (bitsByte b) = b := by
  have hv := bitsVal_lt b
  rw [h] at hv
  rw [byteBits, bitsByte, BitVec.toNat_ofNat, Nat.mod_eq_of_lt hv, ← h, bitsMsb_bitsVal]

@[simp] theorem packBytes_length (n : Nat) (bits : BitSeq) : (packBytes n bits).length = n := by
  induction n generalizing bits with
  | zero => rfl
  | succ n ih => simp [packBytes, ih]

@[simp] theorem unpackBytes_nil : unpackBytes [] = [] := rfl

@[simp] theorem unpackBytes_cons (b : Byte) (bs : List Byte) :
    unpackBytes (b :: bs) = byteBits b ++ unpackBytes bs := by simp [unpackBytes]

theorem unpackBytes_append (a b : List Byte) :
    unpackBytes (a ++ b) = unpackBytes a ++ unpackBytes b := by simp [unpackBytes]

@[simp] theorem unpackBytes_length (bs : List Byte) : (unpackBytes bs).length = 8 * bs.length := by
  induction bs with
  | nil => rfl
  | cons b bs ih => simp [ih]; omega

/-- Packing the whole bytes of a sequence keeps every bit. -/
theorem unpackBytes_packBytes {n : Nat} {bits : BitSeq} (h : 8 * n ≤ bits.length) :
    unpackBytes (packBytes n bits) = bits.take (8 * n) := by
  induction n generalizing bits with
  | zero => simp [packBytes]
  | succ n ih =>
    have h8 : (bits.take 8).length = 8 := by rw [List.length_take]; omega
    rw [packBytes, unpackBytes_cons, byteBits_bitsByte h8,
      ih (by rw [List.length_drop]; omega), show 8 * (n + 1) = 8 + 8 * n by omega,
      List.take_add]

/-- Packing splits a sequence into whole bytes and fewer than 8 bits left over. -/
theorem packBytes_split (bits : BitSeq) :
    unpackBytes (packBytes (bits.length / 8) bits) ++ bits.drop (8 * (bits.length / 8)) = bits ∧
      (bits.drop (8 * (bits.length / 8))).length < 8 := by
  constructor
  · rw [unpackBytes_packBytes (by omega), List.take_append_drop]
  · rw [List.length_drop]
    omega

end Sys2Proof.Machine
end

