-- ==== Sys2Proof/Laws/Files.lean ====
section
/-! SUPPORT. What the operations on files and tables do: reads after writes, the lists of symbols and
of lengths, and the loader's tables. -/

namespace Sys2Proof.Machine

@[simp] theorem fileGet_fileSet_same {α : Type} (t : Vector α 256) (sym : Byte) (v : α) :
    fileGet (fileSet t sym v) sym = v := by
  simp [fileGet, fileSet]

theorem fileGet_fileSet_ne {α : Type} (t : Vector α 256) {sym x : Byte} (v : α) (h : x ≠ sym) :
    fileGet (fileSet t sym v) x = fileGet t x := by
  have : sym.toNat ≠ x.toNat := fun e => h (BitVec.eq_of_toNat_eq e.symm)
  simp [fileGet, fileSet, Vector.getElem_set_ne, this]

@[simp] theorem fileGet_replicate {α : Type} (v : α) (sym : Byte) :
    fileGet (Vector.replicate 256 v) sym = v := by
  simp [fileGet]

/-- Two files with the same entries are the same file. -/
theorem file_ext {α : Type} {t u : Vector α 256} (h : ∀ sym, fileGet t sym = fileGet u sym) :
    t = u := by
  ext i hi
  have := h (BitVec.ofNat 8 i)
  simpa [fileGet, Nat.mod_eq_of_lt hi] using this

@[simp] theorem mem_symbols (sym : Byte) : sym ∈ symbols := by
  simp only [symbols, List.mem_map, List.mem_range]
  exact ⟨sym.toNat, sym.isLt, by simp⟩

@[simp] theorem symbols_length : symbols.length = 256 := by simp [symbols]

/-- The symbols stand in ascending order, each once. -/
theorem symbols_ascending : symbols.Pairwise fun a b => a.toNat < b.toNat := by
  unfold symbols
  rw [List.pairwise_map]
  refine List.Pairwise.imp_of_mem ?_ List.pairwise_lt_range
  intro a b ha hb hab
  rw [List.mem_range] at ha hb
  simpa [BitVec.toNat_ofNat, Nat.mod_eq_of_lt ha, Nat.mod_eq_of_lt hb] using hab

theorem symbols_nodup : symbols.Nodup :=
  symbols_ascending.imp fun h e => by simp [e] at h

@[simp] theorem mem_lengths (n len : Nat) : len ∈ lengths n ↔ 1 ≤ len ∧ len ≤ n := by
  simp only [lengths, List.mem_map, List.mem_range]
  exact ⟨by rintro ⟨k, hk, rfl⟩; omega, fun h => ⟨len - 1, by omega, by omega⟩⟩

@[simp] theorem lengths_length (n : Nat) : (lengths n).length = n := by simp [lengths]

@[simp] theorem lengths_zero : lengths 0 = [] := rfl

theorem lengths_succ (n : Nat) : lengths (n + 1) = lengths n ++ [n + 1] := by
  simp [lengths, List.range_succ]

/-- The lengths stand in ascending order. -/
theorem lengths_ascending (n : Nat) : (lengths n).Pairwise (· < ·) := by
  unfold lengths
  rw [List.pairwise_map]
  exact List.pairwise_lt_range.imp fun h => by omega

/-- find? over the lengths gives the least length that passes. -/
theorem find_lengths_eq_some {n len : Nat} {p : Nat → Bool} :
    (lengths n).find? p = some len ↔
      1 ≤ len ∧ len ≤ n ∧ p len = true ∧ ∀ k, 1 ≤ k → k < len → p k = false := by
  induction n with
  | zero => simp; omega
  | succ n ih =>
    rw [lengths_succ, List.find?_append, Option.or_eq_some_iff, ih, List.find?_eq_none]
    simp only [mem_lengths, List.find?_singleton]
    constructor
    · rintro (⟨h1, h2, h3, h4⟩ | ⟨hn, h⟩)
      · exact ⟨h1, by omega, h3, h4⟩
      · split at h
        · next hp =>
          simp only [Option.some.injEq] at h
          subst h
          exact ⟨by omega, le_refl _, hp, fun k h1 h2 => by
            simpa using hn k ⟨h1, by omega⟩⟩
        · cases h
    · rintro ⟨h1, h2, h3, h4⟩
      rcases Nat.lt_or_ge n len with hlt | hge
      · obtain rfl : len = n + 1 := by omega
        exact .inr ⟨fun k hk => by simp [h4 k hk.1 (by omega)], by simp [h3]⟩
      · exact .inl ⟨h1, hge, h3, h4⟩

/-- An entry of a length table past its end is empty. -/
theorem ltEntry_of_gt {lt : List (List Byte)} {len : Nat} (h : lt.length < len) :
    ltEntry lt len = [] := by
  simp [ltEntry, List.getD, List.getElem?_eq_none (show lt.length ≤ len - 1 by omega)]

/-- A length table is the list of its entries. -/
theorem map_ltEntry_lengths (lt : List (List Byte)) :
    (lengths lt.length).map (ltEntry lt) = lt := by
  apply List.ext_getElem
  · simp
  · intro i h1 h2
    simp [lengths, ltEntry, List.getD, List.getElem?_eq_getElem h2]

/-! ### The loader's tables -/

theorem Loader.count_of_range {ld : Loader} {len : Nat} (h : ¬ (1 ≤ len ∧ len ≤ 255)) :
    ld.count len = 0 := by
  simp [Loader.count, h]

theorem Loader.entry_of_range {ld : Loader} {len : Nat} (h : ¬ (1 ≤ len ∧ len ≤ 255)) :
    ld.entry len = [] := by
  simp [Loader.entry, h]

theorem Loader.count_le (ld : Loader) (len : Nat) : ld.count len ≤ 255 := by
  unfold Loader.count
  split
  · exact Nat.le_of_lt_succ (BitVec.isLt _)
  · exact Nat.zero_le _

/-- What a stored count reads as, at every length. -/
theorem Loader.count_setCount (ld : Loader) {at_ : Nat} (h : 1 ≤ at_ ∧ at_ ≤ 255) (b : Byte)
    (len : Nat) :
    (ld.setCount at_ b).count len = if len = at_ then b.toNat else ld.count len := by
  unfold Loader.setCount
  rw [dif_pos h]
  unfold Loader.count
  by_cases hl : 1 ≤ len ∧ len ≤ 255
  · rw [dif_pos hl, dif_pos hl]
    split
    · next e => subst e; simp
    · next e => rw [Vector.getElem_set_ne _ _ (by omega)]
  · rw [dif_neg hl, dif_neg hl, if_neg (by rintro rfl; exact hl h)]

/-- What an entry reads as after a symbol was appended, at every length. -/
theorem Loader.entry_append (ld : Loader) {at_ : Nat} (h : 1 ≤ at_ ∧ at_ ≤ 255) (b : Byte)
    (len : Nat) :
    (ld.append at_ b).entry len = if len = at_ then ld.entry len ++ [b] else ld.entry len := by
  unfold Loader.append
  rw [dif_pos h]
  unfold Loader.entry
  by_cases hl : 1 ≤ len ∧ len ≤ 255
  · rw [dif_pos hl, dif_pos hl]
    split
    · next e => subst e; simp
    · next e => rw [Vector.getElem_set_ne _ _ (by omega)]
  · rw [dif_neg hl, dif_neg hl, if_neg (by rintro rfl; exact hl h)]

@[simp] theorem Loader.idle_count (len : Nat) : Loader.idle.count len = 0 := by
  unfold Loader.count Loader.idle
  split <;> simp

@[simp] theorem Loader.idle_entry (len : Nat) : Loader.idle.entry len = [] := by
  unfold Loader.entry Loader.idle
  split <;> simp

/-- Where some length above `after` has a symbol, nextLength is the least such length. -/
theorem Loader.nextLength_spec {ld : Loader} {after len : Nat} (h : after < len)
    (hc : 0 < ld.count len) :
    after < ld.nextLength after ∧ ld.nextLength after ≤ len ∧ 0 < ld.count (ld.nextLength after) ∧
      ∀ k, after < k → k < ld.nextLength after → ld.count k = 0 := by
  have hr : 1 ≤ len ∧ len ≤ 255 := by
    by_contra hn
    simp [Loader.count_of_range hn] at hc
  unfold Loader.nextLength
  cases hf : (lengths 255).find? fun k => decide (after < k) && decide (0 < ld.count k) with
  | none =>
    have := List.find?_eq_none.1 hf len (by simp [hr])
    simp [h, hc] at this
  | some m =>
    obtain ⟨h1, h2, h3, h4⟩ := find_lengths_eq_some.1 hf
    simp only [Bool.and_eq_true, decide_eq_true_eq] at h3
    refine ⟨h3.1, ?_, h3.2, fun k hk hkm => ?_⟩
    · by_contra hlt
      have := h4 len hr.1 (by simpa using hlt)
      simp [h, hc] at this
    · have := h4 k (by omega) hkm
      simp only [Bool.and_eq_false_iff, decide_eq_false_iff_not] at this
      omega

end Sys2Proof.Machine
end

