-- ==== Sys2Proof/Laws/Decoder.lean ====
section
/-! SUPPORT. The matching function of spec/45_bit_unpacker.md rule R240: what a match is, that the bound
on the rounds never ends the loop, one round of it, and what its result says. -/

namespace Sys2Proof.Machine

theorem dmapLookup_eq_some {codeLen : Vector (BitVec 8) 256} {codeVal : Vector (BitVec 255) 256}
    {len v : Nat} {sym : Byte} (h : dmapLookup codeLen codeVal len v = some sym) :
    0 < len ∧ (fileGet codeLen sym).toNat = len ∧ (fileGet codeVal sym).toNat = v := by
  have := List.find?_some h
  simp only [Bool.and_eq_true, decide_eq_true_eq] at this
  exact ⟨this.1.1, this.1.2, this.2⟩

theorem dmapLookup_eq_none {codeLen : Vector (BitVec 8) 256} {codeVal : Vector (BitVec 255) 256}
    {len v : Nat} : dmapLookup codeLen codeVal len v = none ↔
      ∀ sym, ¬ (0 < len ∧ (fileGet codeLen sym).toNat = len ∧
        (fileGet codeVal sym).toNat = v) := by
  unfold dmapLookup
  rw [List.find?_eq_none]
  simp only [mem_symbols, Bool.and_eq_true, decide_eq_true_eq, true_implies, and_assoc]

variable {dmap : Nat → Nat → Option Byte} {maxLen : Nat}

theorem matchCode_eq_none {bits : BitSeq} : matchCode dmap bits maxLen = none ↔
    ∀ k, 1 ≤ k → k ≤ bits.length → k ≤ maxLen → dmap k (bitsVal (bits.take k)) = none := by
  unfold matchCode
  rw [List.findSome?_eq_none_iff]
  simp only [mem_lengths, Option.map_eq_none_iff, Nat.le_min, and_imp]

/-- A match is a length within bounds whose bits DMAP knows, and no shorter one is. -/
theorem matchCode_eq_some {bits : BitSeq} {k : Nat} {sym : Byte}
    (h : matchCode dmap bits maxLen = some (k, sym)) :
    1 ≤ k ∧ k ≤ bits.length ∧ k ≤ maxLen ∧ dmap k (bitsVal (bits.take k)) = some sym ∧
      ∀ j, 1 ≤ j → j < k → dmap j (bitsVal (bits.take j)) = none := by
  unfold matchCode at h
  obtain ⟨l1, a, l2, hl, ha, hn⟩ := List.findSome?_eq_some_iff.1 h
  rw [Option.map_eq_some_iff] at ha
  obtain ⟨sym', hd, e⟩ := ha
  simp only [Prod.mk.injEq] at e
  obtain ⟨rfl, rfl⟩ := e
  have hmem : a ∈ lengths (min bits.length maxLen) := by rw [hl]; simp
  rw [mem_lengths, Nat.le_min] at hmem
  refine ⟨hmem.1, hmem.2.1, hmem.2.2, hd, fun j h1 hj => ?_⟩
  have hjm : j ∈ lengths (min bits.length maxLen) := by
    rw [mem_lengths, Nat.le_min]
    omega
  have hord := lengths_ascending (min bits.length maxLen)
  rw [hl] at hjm hord
  rw [List.pairwise_append, List.pairwise_cons] at hord
  rcases List.mem_append.1 hjm with hj1 | hj2
  · simpa using hn j hj1
  · rcases List.mem_cons.1 hj2 with rfl | hj3
    · omega
    · have := hord.2.1.1 j hj3
      omega

/-- The first match there is, is the match. -/
theorem matchCode_of_first {bits : BitSeq} {k : Nat} {sym : Byte} (h1 : 1 ≤ k)
    (hk : k ≤ bits.length) (hm : k ≤ maxLen) (hd : dmap k (bitsVal (bits.take k)) = some sym)
    (hn : ∀ j, 1 ≤ j → j < k → dmap j (bitsVal (bits.take j)) = none) :
    matchCode dmap bits maxLen = some (k, sym) := by
  cases h : matchCode dmap bits maxLen with
  | none =>
    have := matchCode_eq_none.1 h k h1 hk hm
    rw [hd] at this
    cases this
  | some p =>
    obtain ⟨k', sym'⟩ := p
    obtain ⟨h1', _, _, hd', hn'⟩ := matchCode_eq_some h
    have : k' = k := by
      rcases Nat.lt_trichotomy k' k with hlt | he | hgt
      · rw [hn k' h1' hlt] at hd'; cases hd'
      · exact he
      · rw [hn' k h1 hgt] at hd; cases hd
    subst this
    rw [hd] at hd'
    simpa using hd'.symm

/-- More rounds than bits are as good as any number of rounds. -/
theorem greedyLoop_enough {fuel : Nat} {bits : BitSeq} (h : bits.length < fuel) :
    greedyLoop dmap maxLen fuel bits = greedy dmap bits maxLen := by
  suffices ∀ n fuel fuel' (bits : BitSeq), bits.length ≤ n → bits.length < fuel →
      bits.length < fuel' →
      greedyLoop dmap maxLen fuel bits = greedyLoop dmap maxLen fuel' bits from
    this bits.length _ _ bits (le_refl _) h (by omega)
  intro n
  induction n with
  | zero =>
    intro fuel fuel' bits hn hf hf'
    obtain ⟨f, rfl⟩ : ∃ f, fuel = f + 1 := ⟨fuel - 1, by omega⟩
    obtain ⟨f', rfl⟩ : ∃ f', fuel' = f' + 1 := ⟨fuel' - 1, by omega⟩
    obtain rfl : bits = [] := List.eq_nil_of_length_eq_zero (by omega)
    simp [greedyLoop, matchCode]
  | succ n ih =>
    intro fuel fuel' bits hn hf hf'
    obtain ⟨f, rfl⟩ : ∃ f, fuel = f + 1 := ⟨fuel - 1, by omega⟩
    obtain ⟨f', rfl⟩ : ∃ f', fuel' = f' + 1 := ⟨fuel' - 1, by omega⟩
    rw [greedyLoop, greedyLoop]
    cases hm : matchCode dmap bits maxLen with
    | none => rfl
    | some p =>
      obtain ⟨h1, hk, _⟩ := matchCode_eq_some (show _ = some (p.1, p.2) from hm)
      simp only [ih f f' (bits.drop p.1) (by rw [List.length_drop]; omega)
        (by rw [List.length_drop]; omega) (by rw [List.length_drop]; omega)]

/-- One round of greedy where a codeword is at the front. -/
theorem greedy_of_match {bits : BitSeq} {k : Nat} {sym : Byte}
    (h : matchCode dmap bits maxLen = some (k, sym)) :
    greedy dmap bits maxLen =
      match greedy dmap (bits.drop k) maxLen with
      | .ok (rest, out) => .ok (rest, sym :: out)
      | .error m => .error m := by
  obtain ⟨h1, hk, _⟩ := matchCode_eq_some h
  rw [← greedyLoop_enough (fuel := bits.length) (bits := bits.drop k)
    (by rw [List.length_drop]; omega)]
  cases hr : greedyLoop dmap maxLen bits.length (bits.drop k) with
  | ok r => simp [greedy, greedyLoop, h, hr]
  | error m => simp [greedy, greedyLoop, h, hr]

/-- The last round of greedy, where no codeword is at the front. -/
theorem greedy_of_no_match {bits : BitSeq} (h : matchCode dmap bits maxLen = none) :
    greedy dmap bits maxLen =
      if bits.length ≥ maxLen then .error bits.length else .ok (bits, []) := by
  rw [greedy, greedyLoop, h]

/-- What greedy leaves is shorter than maxlen, and each symbol cost at least one bit (R243). -/
theorem greedy_ok {bits rest : BitSeq} {out : List Byte}
    (h : greedy dmap bits maxLen = .ok (rest, out)) :
    rest.length < maxLen ∧ out.length + rest.length ≤ bits.length := by
  suffices ∀ n (bits rest : BitSeq) (out : List Byte), bits.length ≤ n →
      greedy dmap bits maxLen = .ok (rest, out) →
      rest.length < maxLen ∧ out.length + rest.length ≤ bits.length from
    this bits.length bits rest out (le_refl _) h
  intro n
  induction n with
  | zero =>
    intro bits rest out hn h
    obtain rfl : bits = [] := List.eq_nil_of_length_eq_zero (by omega)
    rw [greedy_of_no_match (by simp [matchCode])] at h
    split at h
    · cases h
    · next hl =>
      simp only [Except.ok.injEq, Prod.mk.injEq] at h
      obtain ⟨rfl, rfl⟩ := h
      exact ⟨by simp at hl ⊢; omega, by simp⟩
  | succ n ih =>
    intro bits rest out hn h
    cases hm : matchCode dmap bits maxLen with
    | none =>
      rw [greedy_of_no_match hm] at h
      split at h
      · cases h
      · next hl =>
        simp only [Except.ok.injEq, Prod.mk.injEq] at h
        obtain ⟨rfl, rfl⟩ := h
        exact ⟨by omega, by simp⟩
    | some p =>
      obtain ⟨h1, hk, _⟩ := matchCode_eq_some (show _ = some (p.1, p.2) from hm)
      rw [greedy_of_match (show _ = some (p.1, p.2) from hm)] at h
      split at h
      · next rest' out' hg =>
        simp only [Except.ok.injEq, Prod.mk.injEq] at h
        obtain ⟨rfl, rfl⟩ := h
        have := ih (bits.drop p.1) rest' out' (by rw [List.length_drop]; omega) hg
        rw [List.length_drop] at this
        exact ⟨this.1, by simp only [List.length_cons]; omega⟩
      · cases h

end Sys2Proof.Machine
end

