-- ==== Sys2Proof/Laws/State.lean ====
section
/-! SUPPORT. One lemma per field for the state after reset and after each named update of the state,
so that no proof unfolds an update. -/

namespace Sys2Proof.Machine

@[simp] theorem State.reset_policy : State.reset.policy = .all8 := rfl
@[simp] theorem State.reset_ie : State.reset.ie = false := rfl
@[simp] theorem State.reset_freq : State.reset.freq = Vector.replicate 256 0#32 := rfl
@[simp] theorem State.reset_codeSel : State.reset.codeSel = 0#8 := rfl
@[simp] theorem State.reset_cmd : State.reset.cmd = none := rfl
@[simp] theorem State.reset_err : State.reset.err = false := rfl
@[simp] theorem State.reset_cause : State.reset.cause = .none := rfl
@[simp] theorem State.reset_errInfo : State.reset.errInfo = 0#32 := rfl
@[simp] theorem State.reset_treeValid : State.reset.treeValid = false := rfl
@[simp] theorem State.reset_tree : State.reset.tree = [] := rfl
@[simp] theorem State.reset_root : State.reset.root = 0 := rfl
@[simp] theorem State.reset_nleaf : State.reset.nleaf = 0 := rfl
@[simp] theorem State.reset_ltValid : State.reset.ltValid = false := rfl
@[simp] theorem State.reset_lt : State.reset.lt = [] := rfl
@[simp] theorem State.reset_ltMax : State.reset.ltMax = 0#8 := rfl
@[simp] theorem State.reset_ltNsym : State.reset.ltNsym = 0#9 := rfl
@[simp] theorem State.reset_codesValid : State.reset.codesValid = false := rfl
@[simp] theorem State.reset_codeLen : State.reset.codeLen = Vector.replicate 256 0#8 := rfl
@[simp] theorem State.reset_codeVal : State.reset.codeVal = Vector.replicate 256 0#255 := rfl
@[simp] theorem State.reset_encAct : State.reset.encAct = false := rfl
@[simp] theorem State.reset_encAcc : State.reset.encAcc = [] := rfl
@[simp] theorem State.reset_decAct : State.reset.decAct = false := rfl
@[simp] theorem State.reset_dbits : State.reset.dbits = [] := rfl
@[simp] theorem State.reset_hold : State.reset.hold = 0#8 := rfl
@[simp] theorem State.reset_holdV : State.reset.holdV = false := rfl
@[simp] theorem State.reset_ld : State.reset.ld = Loader.idle := rfl
@[simp] theorem State.reset_outq : State.reset.outq = [] := rfl
@[simp] theorem State.reset_bus : State.reset.bus = Bus.empty := rfl

@[simp] theorem State.takeError_policy (s : State) (r : Raise) :
    (s.takeError r).policy = s.policy := rfl
@[simp] theorem State.takeError_ie (s : State) (r : Raise) : (s.takeError r).ie = s.ie := rfl
@[simp] theorem State.takeError_freq (s : State) (r : Raise) : (s.takeError r).freq = s.freq := rfl
@[simp] theorem State.takeError_codeSel (s : State) (r : Raise) :
    (s.takeError r).codeSel = s.codeSel := rfl
@[simp] theorem State.takeError_cmd (s : State) (r : Raise) : (s.takeError r).cmd = s.cmd := rfl
@[simp] theorem State.takeError_err (s : State) (r : Raise) : (s.takeError r).err = true := rfl
@[simp] theorem State.takeError_cause (s : State) (r : Raise) :
    (s.takeError r).cause = r.cause := rfl
@[simp] theorem State.takeError_errInfo (s : State) (r : Raise) :
    (s.takeError r).errInfo = r.info := rfl
@[simp] theorem State.takeError_treeValid (s : State) (r : Raise) :
    (s.takeError r).treeValid = s.treeValid := rfl
@[simp] theorem State.takeError_tree (s : State) (r : Raise) : (s.takeError r).tree = s.tree := rfl
@[simp] theorem State.takeError_root (s : State) (r : Raise) : (s.takeError r).root = s.root := rfl
@[simp] theorem State.takeError_nleaf (s : State) (r : Raise) :
    (s.takeError r).nleaf = s.nleaf := rfl
@[simp] theorem State.takeError_ltValid (s : State) (r : Raise) :
    (s.takeError r).ltValid = s.ltValid := rfl
@[simp] theorem State.takeError_lt (s : State) (r : Raise) : (s.takeError r).lt = s.lt := rfl
@[simp] theorem State.takeError_ltMax (s : State) (r : Raise) :
    (s.takeError r).ltMax = s.ltMax := rfl
@[simp] theorem State.takeError_ltNsym (s : State) (r : Raise) :
    (s.takeError r).ltNsym = s.ltNsym := rfl
@[simp] theorem State.takeError_codesValid (s : State) (r : Raise) :
    (s.takeError r).codesValid = s.codesValid := rfl
@[simp] theorem State.takeError_codeLen (s : State) (r : Raise) :
    (s.takeError r).codeLen = s.codeLen := rfl
@[simp] theorem State.takeError_codeVal (s : State) (r : Raise) :
    (s.takeError r).codeVal = s.codeVal := rfl
@[simp] theorem State.takeError_encAct (s : State) (r : Raise) :
    (s.takeError r).encAct = s.encAct := rfl
@[simp] theorem State.takeError_encAcc (s : State) (r : Raise) :
    (s.takeError r).encAcc = s.encAcc := rfl
@[simp] theorem State.takeError_decAct (s : State) (r : Raise) :
    (s.takeError r).decAct = s.decAct := rfl
@[simp] theorem State.takeError_dbits (s : State) (r : Raise) :
    (s.takeError r).dbits = s.dbits := rfl
@[simp] theorem State.takeError_hold (s : State) (r : Raise) : (s.takeError r).hold = s.hold := rfl
@[simp] theorem State.takeError_holdV (s : State) (r : Raise) :
    (s.takeError r).holdV = s.holdV := rfl
@[simp] theorem State.takeError_ld (s : State) (r : Raise) : (s.takeError r).ld = s.ld := rfl
@[simp] theorem State.takeError_outq (s : State) (r : Raise) : (s.takeError r).outq = s.outq := rfl
@[simp] theorem State.takeError_bus (s : State) (r : Raise) : (s.takeError r).bus = s.bus := rfl

@[simp] theorem State.clearTree_policy (s : State) : s.clearTree.policy = s.policy := rfl
@[simp] theorem State.clearTree_ie (s : State) : s.clearTree.ie = s.ie := rfl
@[simp] theorem State.clearTree_freq (s : State) : s.clearTree.freq = s.freq := rfl
@[simp] theorem State.clearTree_codeSel (s : State) : s.clearTree.codeSel = s.codeSel := rfl
@[simp] theorem State.clearTree_cmd (s : State) : s.clearTree.cmd = s.cmd := rfl
@[simp] theorem State.clearTree_err (s : State) : s.clearTree.err = s.err := rfl
@[simp] theorem State.clearTree_cause (s : State) : s.clearTree.cause = s.cause := rfl
@[simp] theorem State.clearTree_errInfo (s : State) : s.clearTree.errInfo = s.errInfo := rfl
@[simp] theorem State.clearTree_treeValid (s : State) : s.clearTree.treeValid = false := rfl
@[simp] theorem State.clearTree_tree (s : State) : s.clearTree.tree = [] := rfl
@[simp] theorem State.clearTree_root (s : State) : s.clearTree.root = 0 := rfl
@[simp] theorem State.clearTree_nleaf (s : State) : s.clearTree.nleaf = 0 := rfl
@[simp] theorem State.clearTree_ltValid (s : State) : s.clearTree.ltValid = s.ltValid := rfl
@[simp] theorem State.clearTree_lt (s : State) : s.clearTree.lt = s.lt := rfl
@[simp] theorem State.clearTree_ltMax (s : State) : s.clearTree.ltMax = s.ltMax := rfl
@[simp] theorem State.clearTree_ltNsym (s : State) : s.clearTree.ltNsym = s.ltNsym := rfl
@[simp] theorem State.clearTree_codesValid (s : State) :
    s.clearTree.codesValid = s.codesValid := rfl
@[simp] theorem State.clearTree_codeLen (s : State) : s.clearTree.codeLen = s.codeLen := rfl
@[simp] theorem State.clearTree_codeVal (s : State) : s.clearTree.codeVal = s.codeVal := rfl
@[simp] theorem State.clearTree_encAct (s : State) : s.clearTree.encAct = s.encAct := rfl
@[simp] theorem State.clearTree_encAcc (s : State) : s.clearTree.encAcc = s.encAcc := rfl
@[simp] theorem State.clearTree_decAct (s : State) : s.clearTree.decAct = s.decAct := rfl
@[simp] theorem State.clearTree_dbits (s : State) : s.clearTree.dbits = s.dbits := rfl
@[simp] theorem State.clearTree_hold (s : State) : s.clearTree.hold = s.hold := rfl
@[simp] theorem State.clearTree_holdV (s : State) : s.clearTree.holdV = s.holdV := rfl
@[simp] theorem State.clearTree_ld (s : State) : s.clearTree.ld = s.ld := rfl
@[simp] theorem State.clearTree_outq (s : State) : s.clearTree.outq = s.outq := rfl
@[simp] theorem State.clearTree_bus (s : State) : s.clearTree.bus = s.bus := rfl

@[simp] theorem State.clearTable_policy (s : State) : s.clearTable.policy = s.policy := rfl
@[simp] theorem State.clearTable_ie (s : State) : s.clearTable.ie = s.ie := rfl
@[simp] theorem State.clearTable_freq (s : State) : s.clearTable.freq = s.freq := rfl
@[simp] theorem State.clearTable_codeSel (s : State) : s.clearTable.codeSel = s.codeSel := rfl
@[simp] theorem State.clearTable_cmd (s : State) : s.clearTable.cmd = s.cmd := rfl
@[simp] theorem State.clearTable_err (s : State) : s.clearTable.err = s.err := rfl
@[simp] theorem State.clearTable_cause (s : State) : s.clearTable.cause = s.cause := rfl
@[simp] theorem State.clearTable_errInfo (s : State) : s.clearTable.errInfo = s.errInfo := rfl
@[simp] theorem State.clearTable_treeValid (s : State) : s.clearTable.treeValid = s.treeValid := rfl
@[simp] theorem State.clearTable_tree (s : State) : s.clearTable.tree = s.tree := rfl
@[simp] theorem State.clearTable_root (s : State) : s.clearTable.root = s.root := rfl
@[simp] theorem State.clearTable_nleaf (s : State) : s.clearTable.nleaf = s.nleaf := rfl
@[simp] theorem State.clearTable_ltValid (s : State) : s.clearTable.ltValid = false := rfl
@[simp] theorem State.clearTable_lt (s : State) : s.clearTable.lt = [] := rfl
@[simp] theorem State.clearTable_ltMax (s : State) : s.clearTable.ltMax = 0#8 := rfl
@[simp] theorem State.clearTable_ltNsym (s : State) : s.clearTable.ltNsym = 0#9 := rfl
@[simp] theorem State.clearTable_codesValid (s : State) :
    s.clearTable.codesValid = s.codesValid := rfl
@[simp] theorem State.clearTable_codeLen (s : State) : s.clearTable.codeLen = s.codeLen := rfl
@[simp] theorem State.clearTable_codeVal (s : State) : s.clearTable.codeVal = s.codeVal := rfl
@[simp] theorem State.clearTable_encAct (s : State) : s.clearTable.encAct = s.encAct := rfl
@[simp] theorem State.clearTable_encAcc (s : State) : s.clearTable.encAcc = s.encAcc := rfl
@[simp] theorem State.clearTable_decAct (s : State) : s.clearTable.decAct = s.decAct := rfl
@[simp] theorem State.clearTable_dbits (s : State) : s.clearTable.dbits = s.dbits := rfl
@[simp] theorem State.clearTable_hold (s : State) : s.clearTable.hold = s.hold := rfl
@[simp] theorem State.clearTable_holdV (s : State) : s.clearTable.holdV = s.holdV := rfl
@[simp] theorem State.clearTable_ld (s : State) : s.clearTable.ld = s.ld := rfl
@[simp] theorem State.clearTable_outq (s : State) : s.clearTable.outq = s.outq := rfl
@[simp] theorem State.clearTable_bus (s : State) : s.clearTable.bus = s.bus := rfl

@[simp] theorem State.clearCodes_policy (s : State) : s.clearCodes.policy = s.policy := rfl
@[simp] theorem State.clearCodes_ie (s : State) : s.clearCodes.ie = s.ie := rfl
@[simp] theorem State.clearCodes_freq (s : State) : s.clearCodes.freq = s.freq := rfl
@[simp] theorem State.clearCodes_codeSel (s : State) : s.clearCodes.codeSel = s.codeSel := rfl
@[simp] theorem State.clearCodes_cmd (s : State) : s.clearCodes.cmd = s.cmd := rfl
@[simp] theorem State.clearCodes_err (s : State) : s.clearCodes.err = s.err := rfl
@[simp] theorem State.clearCodes_cause (s : State) : s.clearCodes.cause = s.cause := rfl
@[simp] theorem State.clearCodes_errInfo (s : State) : s.clearCodes.errInfo = s.errInfo := rfl
@[simp] theorem State.clearCodes_treeValid (s : State) : s.clearCodes.treeValid = s.treeValid := rfl
@[simp] theorem State.clearCodes_tree (s : State) : s.clearCodes.tree = s.tree := rfl
@[simp] theorem State.clearCodes_root (s : State) : s.clearCodes.root = s.root := rfl
@[simp] theorem State.clearCodes_nleaf (s : State) : s.clearCodes.nleaf = s.nleaf := rfl
@[simp] theorem State.clearCodes_ltValid (s : State) : s.clearCodes.ltValid = s.ltValid := rfl
@[simp] theorem State.clearCodes_lt (s : State) : s.clearCodes.lt = s.lt := rfl
@[simp] theorem State.clearCodes_ltMax (s : State) : s.clearCodes.ltMax = s.ltMax := rfl
@[simp] theorem State.clearCodes_ltNsym (s : State) : s.clearCodes.ltNsym = s.ltNsym := rfl
@[simp] theorem State.clearCodes_codesValid (s : State) : s.clearCodes.codesValid = false := rfl
@[simp] theorem State.clearCodes_codeLen (s : State) :
    s.clearCodes.codeLen = Vector.replicate 256 0#8 := rfl
@[simp] theorem State.clearCodes_codeVal (s : State) :
    s.clearCodes.codeVal = Vector.replicate 256 0#255 := rfl
@[simp] theorem State.clearCodes_encAct (s : State) : s.clearCodes.encAct = s.encAct := rfl
@[simp] theorem State.clearCodes_encAcc (s : State) : s.clearCodes.encAcc = s.encAcc := rfl
@[simp] theorem State.clearCodes_decAct (s : State) : s.clearCodes.decAct = s.decAct := rfl
@[simp] theorem State.clearCodes_dbits (s : State) : s.clearCodes.dbits = s.dbits := rfl
@[simp] theorem State.clearCodes_hold (s : State) : s.clearCodes.hold = s.hold := rfl
@[simp] theorem State.clearCodes_holdV (s : State) : s.clearCodes.holdV = s.holdV := rfl
@[simp] theorem State.clearCodes_ld (s : State) : s.clearCodes.ld = s.ld := rfl
@[simp] theorem State.clearCodes_outq (s : State) : s.clearCodes.outq = s.outq := rfl
@[simp] theorem State.clearCodes_bus (s : State) : s.clearCodes.bus = s.bus := rfl

@[simp] theorem State.pushBytes_policy (s : State) (out : List Byte) :
    (s.pushBytes out).policy = s.policy := rfl
@[simp] theorem State.pushBytes_ie (s : State) (out : List Byte) :
    (s.pushBytes out).ie = s.ie := rfl
@[simp] theorem State.pushBytes_freq (s : State) (out : List Byte) :
    (s.pushBytes out).freq = s.freq := rfl
@[simp] theorem State.pushBytes_codeSel (s : State) (out : List Byte) :
    (s.pushBytes out).codeSel = s.codeSel := rfl
@[simp] theorem State.pushBytes_cmd (s : State) (out : List Byte) :
    (s.pushBytes out).cmd = s.cmd := rfl
@[simp] theorem State.pushBytes_err (s : State) (out : List Byte) :
    (s.pushBytes out).err = s.err := rfl
@[simp] theorem State.pushBytes_cause (s : State) (out : List Byte) :
    (s.pushBytes out).cause = s.cause := rfl
@[simp] theorem State.pushBytes_errInfo (s : State) (out : List Byte) :
    (s.pushBytes out).errInfo = s.errInfo := rfl
@[simp] theorem State.pushBytes_treeValid (s : State) (out : List Byte) :
    (s.pushBytes out).treeValid = s.treeValid := rfl
@[simp] theorem State.pushBytes_tree (s : State) (out : List Byte) :
    (s.pushBytes out).tree = s.tree := rfl
@[simp] theorem State.pushBytes_root (s : State) (out : List Byte) :
    (s.pushBytes out).root = s.root := rfl
@[simp] theorem State.pushBytes_nleaf (s : State) (out : List Byte) :
    (s.pushBytes out).nleaf = s.nleaf := rfl
@[simp] theorem State.pushBytes_ltValid (s : State) (out : List Byte) :
    (s.pushBytes out).ltValid = s.ltValid := rfl
@[simp] theorem State.pushBytes_lt (s : State) (out : List Byte) :
    (s.pushBytes out).lt = s.lt := rfl
@[simp] theorem State.pushBytes_ltMax (s : State) (out : List Byte) :
    (s.pushBytes out).ltMax = s.ltMax := rfl
@[simp] theorem State.pushBytes_ltNsym (s : State) (out : List Byte) :
    (s.pushBytes out).ltNsym = s.ltNsym := rfl
@[simp] theorem State.pushBytes_codesValid (s : State) (out : List Byte) :
    (s.pushBytes out).codesValid = s.codesValid := rfl
@[simp] theorem State.pushBytes_codeLen (s : State) (out : List Byte) :
    (s.pushBytes out).codeLen = s.codeLen := rfl
@[simp] theorem State.pushBytes_codeVal (s : State) (out : List Byte) :
    (s.pushBytes out).codeVal = s.codeVal := rfl
@[simp] theorem State.pushBytes_encAct (s : State) (out : List Byte) :
    (s.pushBytes out).encAct = s.encAct := rfl
@[simp] theorem State.pushBytes_encAcc (s : State) (out : List Byte) :
    (s.pushBytes out).encAcc = s.encAcc := rfl
@[simp] theorem State.pushBytes_decAct (s : State) (out : List Byte) :
    (s.pushBytes out).decAct = s.decAct := rfl
@[simp] theorem State.pushBytes_dbits (s : State) (out : List Byte) :
    (s.pushBytes out).dbits = s.dbits := rfl
@[simp] theorem State.pushBytes_hold (s : State) (out : List Byte) :
    (s.pushBytes out).hold = s.hold := rfl
@[simp] theorem State.pushBytes_holdV (s : State) (out : List Byte) :
    (s.pushBytes out).holdV = s.holdV := rfl
@[simp] theorem State.pushBytes_ld (s : State) (out : List Byte) :
    (s.pushBytes out).ld = s.ld := rfl
@[simp] theorem State.pushBytes_outq (s : State) (out : List Byte) :
    (s.pushBytes out).outq = s.outq ++ out := rfl
@[simp] theorem State.pushBytes_bus (s : State) (out : List Byte) :
    (s.pushBytes out).bus = s.bus := rfl

@[simp] theorem State.softReset_policy (s : State) : s.softReset.policy = s.policy := rfl
@[simp] theorem State.softReset_ie (s : State) : s.softReset.ie = s.ie := rfl
@[simp] theorem State.softReset_freq (s : State) :
    s.softReset.freq = Vector.replicate 256 0#32 := rfl
@[simp] theorem State.softReset_codeSel (s : State) : s.softReset.codeSel = 0#8 := rfl
@[simp] theorem State.softReset_cmd (s : State) : s.softReset.cmd = s.cmd := rfl
@[simp] theorem State.softReset_err (s : State) : s.softReset.err = false := rfl
@[simp] theorem State.softReset_cause (s : State) : s.softReset.cause = .none := rfl
@[simp] theorem State.softReset_errInfo (s : State) : s.softReset.errInfo = 0#32 := rfl
@[simp] theorem State.softReset_treeValid (s : State) : s.softReset.treeValid = false := rfl
@[simp] theorem State.softReset_tree (s : State) : s.softReset.tree = [] := rfl
@[simp] theorem State.softReset_root (s : State) : s.softReset.root = 0 := rfl
@[simp] theorem State.softReset_nleaf (s : State) : s.softReset.nleaf = 0 := rfl
@[simp] theorem State.softReset_ltValid (s : State) : s.softReset.ltValid = false := rfl
@[simp] theorem State.softReset_lt (s : State) : s.softReset.lt = [] := rfl
@[simp] theorem State.softReset_ltMax (s : State) : s.softReset.ltMax = 0#8 := rfl
@[simp] theorem State.softReset_ltNsym (s : State) : s.softReset.ltNsym = 0#9 := rfl
@[simp] theorem State.softReset_codesValid (s : State) : s.softReset.codesValid = false := rfl
@[simp] theorem State.softReset_codeLen (s : State) :
    s.softReset.codeLen = Vector.replicate 256 0#8 := rfl
@[simp] theorem State.softReset_codeVal (s : State) :
    s.softReset.codeVal = Vector.replicate 256 0#255 := rfl
@[simp] theorem State.softReset_encAct (s : State) : s.softReset.encAct = false := rfl
@[simp] theorem State.softReset_encAcc (s : State) : s.softReset.encAcc = [] := rfl
@[simp] theorem State.softReset_decAct (s : State) : s.softReset.decAct = false := rfl
@[simp] theorem State.softReset_dbits (s : State) : s.softReset.dbits = [] := rfl
@[simp] theorem State.softReset_hold (s : State) : s.softReset.hold = 0#8 := rfl
@[simp] theorem State.softReset_holdV (s : State) : s.softReset.holdV = false := rfl
@[simp] theorem State.softReset_ld (s : State) : s.softReset.ld = Loader.idle := rfl
@[simp] theorem State.softReset_outq (s : State) : s.softReset.outq = [] := rfl
@[simp] theorem State.softReset_bus (s : State) : s.softReset.bus = s.bus := rfl

@[simp] theorem State.hardReset_policy (s : State) : s.hardReset.policy = .all8 := rfl
@[simp] theorem State.hardReset_ie (s : State) : s.hardReset.ie = false := rfl
@[simp] theorem State.hardReset_freq (s : State) :
    s.hardReset.freq = Vector.replicate 256 0#32 := rfl
@[simp] theorem State.hardReset_codeSel (s : State) : s.hardReset.codeSel = 0#8 := rfl
@[simp] theorem State.hardReset_cmd (s : State) : s.hardReset.cmd = none := rfl
@[simp] theorem State.hardReset_err (s : State) : s.hardReset.err = false := rfl
@[simp] theorem State.hardReset_cause (s : State) : s.hardReset.cause = .none := rfl
@[simp] theorem State.hardReset_errInfo (s : State) : s.hardReset.errInfo = 0#32 := rfl
@[simp] theorem State.hardReset_treeValid (s : State) : s.hardReset.treeValid = false := rfl
@[simp] theorem State.hardReset_tree (s : State) : s.hardReset.tree = [] := rfl
@[simp] theorem State.hardReset_root (s : State) : s.hardReset.root = 0 := rfl
@[simp] theorem State.hardReset_nleaf (s : State) : s.hardReset.nleaf = 0 := rfl
@[simp] theorem State.hardReset_ltValid (s : State) : s.hardReset.ltValid = false := rfl
@[simp] theorem State.hardReset_lt (s : State) : s.hardReset.lt = [] := rfl
@[simp] theorem State.hardReset_ltMax (s : State) : s.hardReset.ltMax = 0#8 := rfl
@[simp] theorem State.hardReset_ltNsym (s : State) : s.hardReset.ltNsym = 0#9 := rfl
@[simp] theorem State.hardReset_codesValid (s : State) : s.hardReset.codesValid = false := rfl
@[simp] theorem State.hardReset_codeLen (s : State) :
    s.hardReset.codeLen = Vector.replicate 256 0#8 := rfl
@[simp] theorem State.hardReset_codeVal (s : State) :
    s.hardReset.codeVal = Vector.replicate 256 0#255 := rfl
@[simp] theorem State.hardReset_encAct (s : State) : s.hardReset.encAct = false := rfl
@[simp] theorem State.hardReset_encAcc (s : State) : s.hardReset.encAcc = [] := rfl
@[simp] theorem State.hardReset_decAct (s : State) : s.hardReset.decAct = false := rfl
@[simp] theorem State.hardReset_dbits (s : State) : s.hardReset.dbits = [] := rfl
@[simp] theorem State.hardReset_hold (s : State) : s.hardReset.hold = 0#8 := rfl
@[simp] theorem State.hardReset_holdV (s : State) : s.hardReset.holdV = false := rfl
@[simp] theorem State.hardReset_ld (s : State) : s.hardReset.ld = Loader.idle := rfl
@[simp] theorem State.hardReset_outq (s : State) : s.hardReset.outq = [] := rfl
@[simp] theorem State.hardReset_bus (s : State) : s.hardReset.bus = s.bus := rfl

@[simp] theorem State.recordRead_policy (s : State) (off : Offset) (v : Word) :
    (s.recordRead off v).policy = s.policy := rfl
@[simp] theorem State.recordRead_ie (s : State) (off : Offset) (v : Word) :
    (s.recordRead off v).ie = s.ie := rfl
@[simp] theorem State.recordRead_freq (s : State) (off : Offset) (v : Word) :
    (s.recordRead off v).freq = s.freq := rfl
@[simp] theorem State.recordRead_codeSel (s : State) (off : Offset) (v : Word) :
    (s.recordRead off v).codeSel = s.codeSel := rfl
@[simp] theorem State.recordRead_cmd (s : State) (off : Offset) (v : Word) :
    (s.recordRead off v).cmd = s.cmd := rfl
@[simp] theorem State.recordRead_err (s : State) (off : Offset) (v : Word) :
    (s.recordRead off v).err = s.err := rfl
@[simp] theorem State.recordRead_cause (s : State) (off : Offset) (v : Word) :
    (s.recordRead off v).cause = s.cause := rfl
@[simp] theorem State.recordRead_errInfo (s : State) (off : Offset) (v : Word) :
    (s.recordRead off v).errInfo = s.errInfo := rfl
@[simp] theorem State.recordRead_treeValid (s : State) (off : Offset) (v : Word) :
    (s.recordRead off v).treeValid = s.treeValid := rfl
@[simp] theorem State.recordRead_tree (s : State) (off : Offset) (v : Word) :
    (s.recordRead off v).tree = s.tree := rfl
@[simp] theorem State.recordRead_root (s : State) (off : Offset) (v : Word) :
    (s.recordRead off v).root = s.root := rfl
@[simp] theorem State.recordRead_nleaf (s : State) (off : Offset) (v : Word) :
    (s.recordRead off v).nleaf = s.nleaf := rfl
@[simp] theorem State.recordRead_ltValid (s : State) (off : Offset) (v : Word) :
    (s.recordRead off v).ltValid = s.ltValid := rfl
@[simp] theorem State.recordRead_lt (s : State) (off : Offset) (v : Word) :
    (s.recordRead off v).lt = s.lt := rfl
@[simp] theorem State.recordRead_ltMax (s : State) (off : Offset) (v : Word) :
    (s.recordRead off v).ltMax = s.ltMax := rfl
@[simp] theorem State.recordRead_ltNsym (s : State) (off : Offset) (v : Word) :
    (s.recordRead off v).ltNsym = s.ltNsym := rfl
@[simp] theorem State.recordRead_codesValid (s : State) (off : Offset) (v : Word) :
    (s.recordRead off v).codesValid = s.codesValid := rfl
@[simp] theorem State.recordRead_codeLen (s : State) (off : Offset) (v : Word) :
    (s.recordRead off v).codeLen = s.codeLen := rfl
@[simp] theorem State.recordRead_codeVal (s : State) (off : Offset) (v : Word) :
    (s.recordRead off v).codeVal = s.codeVal := rfl
@[simp] theorem State.recordRead_encAct (s : State) (off : Offset) (v : Word) :
    (s.recordRead off v).encAct = s.encAct := rfl
@[simp] theorem State.recordRead_encAcc (s : State) (off : Offset) (v : Word) :
    (s.recordRead off v).encAcc = s.encAcc := rfl
@[simp] theorem State.recordRead_decAct (s : State) (off : Offset) (v : Word) :
    (s.recordRead off v).decAct = s.decAct := rfl
@[simp] theorem State.recordRead_dbits (s : State) (off : Offset) (v : Word) :
    (s.recordRead off v).dbits = s.dbits := rfl
@[simp] theorem State.recordRead_hold (s : State) (off : Offset) (v : Word) :
    (s.recordRead off v).hold = s.hold := rfl
@[simp] theorem State.recordRead_holdV (s : State) (off : Offset) (v : Word) :
    (s.recordRead off v).holdV = s.holdV := rfl
@[simp] theorem State.recordRead_ld (s : State) (off : Offset) (v : Word) :
    (s.recordRead off v).ld = s.ld := rfl
@[simp] theorem State.recordRead_outq (s : State) (off : Offset) (v : Word) :
    (s.recordRead off v).outq = s.outq := rfl
@[simp] theorem State.recordRead_bus (s : State) (off : Offset) (v : Word) :
    (s.recordRead off v).bus = { s.bus with reads := s.bus.reads ++ [⟨off, v⟩] } := rfl

@[simp] theorem State.latch_policy (s : State) (w : Word) : (s.latch w).policy = s.policy := rfl
@[simp] theorem State.latch_ie (s : State) (w : Word) : (s.latch w).ie = s.ie := rfl
@[simp] theorem State.latch_freq (s : State) (w : Word) : (s.latch w).freq = s.freq := rfl
@[simp] theorem State.latch_codeSel (s : State) (w : Word) : (s.latch w).codeSel = s.codeSel := rfl
@[simp] theorem State.latch_cmd (s : State) (w : Word) : (s.latch w).cmd = some ⟨w, 0⟩ := rfl
@[simp] theorem State.latch_err (s : State) (w : Word) : (s.latch w).err = s.err := rfl
@[simp] theorem State.latch_cause (s : State) (w : Word) : (s.latch w).cause = s.cause := rfl
@[simp] theorem State.latch_errInfo (s : State) (w : Word) : (s.latch w).errInfo = s.errInfo := rfl
@[simp] theorem State.latch_treeValid (s : State) (w : Word) :
    (s.latch w).treeValid = s.treeValid := rfl
@[simp] theorem State.latch_tree (s : State) (w : Word) : (s.latch w).tree = s.tree := rfl
@[simp] theorem State.latch_root (s : State) (w : Word) : (s.latch w).root = s.root := rfl
@[simp] theorem State.latch_nleaf (s : State) (w : Word) : (s.latch w).nleaf = s.nleaf := rfl
@[simp] theorem State.latch_ltValid (s : State) (w : Word) : (s.latch w).ltValid = s.ltValid := rfl
@[simp] theorem State.latch_lt (s : State) (w : Word) : (s.latch w).lt = s.lt := rfl
@[simp] theorem State.latch_ltMax (s : State) (w : Word) : (s.latch w).ltMax = s.ltMax := rfl
@[simp] theorem State.latch_ltNsym (s : State) (w : Word) : (s.latch w).ltNsym = s.ltNsym := rfl
@[simp] theorem State.latch_codesValid (s : State) (w : Word) :
    (s.latch w).codesValid = s.codesValid := rfl
@[simp] theorem State.latch_codeLen (s : State) (w : Word) : (s.latch w).codeLen = s.codeLen := rfl
@[simp] theorem State.latch_codeVal (s : State) (w : Word) : (s.latch w).codeVal = s.codeVal := rfl
@[simp] theorem State.latch_encAct (s : State) (w : Word) : (s.latch w).encAct = s.encAct := rfl
@[simp] theorem State.latch_encAcc (s : State) (w : Word) : (s.latch w).encAcc = s.encAcc := rfl
@[simp] theorem State.latch_decAct (s : State) (w : Word) : (s.latch w).decAct = s.decAct := rfl
@[simp] theorem State.latch_dbits (s : State) (w : Word) : (s.latch w).dbits = s.dbits := rfl
@[simp] theorem State.latch_hold (s : State) (w : Word) : (s.latch w).hold = s.hold := rfl
@[simp] theorem State.latch_holdV (s : State) (w : Word) : (s.latch w).holdV = s.holdV := rfl
@[simp] theorem State.latch_ld (s : State) (w : Word) : (s.latch w).ld = s.ld := rfl
@[simp] theorem State.latch_outq (s : State) (w : Word) : (s.latch w).outq = s.outq := rfl
@[simp] theorem State.latch_bus (s : State) (w : Word) : (s.latch w).bus = s.bus := rfl

@[simp] theorem State.takeEvent_policy (s : State) (rest : List BusEvent) :
    (s.takeEvent rest).policy = s.policy := rfl
@[simp] theorem State.takeEvent_ie (s : State) (rest : List BusEvent) :
    (s.takeEvent rest).ie = s.ie := rfl
@[simp] theorem State.takeEvent_freq (s : State) (rest : List BusEvent) :
    (s.takeEvent rest).freq = s.freq := rfl
@[simp] theorem State.takeEvent_codeSel (s : State) (rest : List BusEvent) :
    (s.takeEvent rest).codeSel = s.codeSel := rfl
@[simp] theorem State.takeEvent_cmd (s : State) (rest : List BusEvent) :
    (s.takeEvent rest).cmd = s.cmd.map fun c => { c with left := c.left - 1 } := rfl
@[simp] theorem State.takeEvent_err (s : State) (rest : List BusEvent) :
    (s.takeEvent rest).err = s.err := rfl
@[simp] theorem State.takeEvent_cause (s : State) (rest : List BusEvent) :
    (s.takeEvent rest).cause = s.cause := rfl
@[simp] theorem State.takeEvent_errInfo (s : State) (rest : List BusEvent) :
    (s.takeEvent rest).errInfo = s.errInfo := rfl
@[simp] theorem State.takeEvent_treeValid (s : State) (rest : List BusEvent) :
    (s.takeEvent rest).treeValid = s.treeValid := rfl
@[simp] theorem State.takeEvent_tree (s : State) (rest : List BusEvent) :
    (s.takeEvent rest).tree = s.tree := rfl
@[simp] theorem State.takeEvent_root (s : State) (rest : List BusEvent) :
    (s.takeEvent rest).root = s.root := rfl
@[simp] theorem State.takeEvent_nleaf (s : State) (rest : List BusEvent) :
    (s.takeEvent rest).nleaf = s.nleaf := rfl
@[simp] theorem State.takeEvent_ltValid (s : State) (rest : List BusEvent) :
    (s.takeEvent rest).ltValid = s.ltValid := rfl
@[simp] theorem State.takeEvent_lt (s : State) (rest : List BusEvent) :
    (s.takeEvent rest).lt = s.lt := rfl
@[simp] theorem State.takeEvent_ltMax (s : State) (rest : List BusEvent) :
    (s.takeEvent rest).ltMax = s.ltMax := rfl
@[simp] theorem State.takeEvent_ltNsym (s : State) (rest : List BusEvent) :
    (s.takeEvent rest).ltNsym = s.ltNsym := rfl
@[simp] theorem State.takeEvent_codesValid (s : State) (rest : List BusEvent) :
    (s.takeEvent rest).codesValid = s.codesValid := rfl
@[simp] theorem State.takeEvent_codeLen (s : State) (rest : List BusEvent) :
    (s.takeEvent rest).codeLen = s.codeLen := rfl
@[simp] theorem State.takeEvent_codeVal (s : State) (rest : List BusEvent) :
    (s.takeEvent rest).codeVal = s.codeVal := rfl
@[simp] theorem State.takeEvent_encAct (s : State) (rest : List BusEvent) :
    (s.takeEvent rest).encAct = s.encAct := rfl
@[simp] theorem State.takeEvent_encAcc (s : State) (rest : List BusEvent) :
    (s.takeEvent rest).encAcc = s.encAcc := rfl
@[simp] theorem State.takeEvent_decAct (s : State) (rest : List BusEvent) :
    (s.takeEvent rest).decAct = s.decAct := rfl
@[simp] theorem State.takeEvent_dbits (s : State) (rest : List BusEvent) :
    (s.takeEvent rest).dbits = s.dbits := rfl
@[simp] theorem State.takeEvent_hold (s : State) (rest : List BusEvent) :
    (s.takeEvent rest).hold = s.hold := rfl
@[simp] theorem State.takeEvent_holdV (s : State) (rest : List BusEvent) :
    (s.takeEvent rest).holdV = s.holdV := rfl
@[simp] theorem State.takeEvent_ld (s : State) (rest : List BusEvent) :
    (s.takeEvent rest).ld = s.ld := rfl
@[simp] theorem State.takeEvent_outq (s : State) (rest : List BusEvent) :
    (s.takeEvent rest).outq = s.outq := rfl
@[simp] theorem State.takeEvent_bus (s : State) (rest : List BusEvent) :
    (s.takeEvent rest).bus = { s.bus with pending := rest } := rfl

end Sys2Proof.Machine
end

