-- ==== Sys2Proof/Laws/Ops.lean ====
section
/-! SUPPORT. What the shared operations can do, said once: how a command ends, what pushing answers, and
what each command's result is, so that a proof over all commands splits into these cases. -/

namespace Sys2Proof.Machine

/-! ### How a command ends -/

theorem completeCommand_err {s : State} (h : s.err = true) (r : Except Raise State) :
    completeCommand s r = .next s := by simp [completeCommand, h]

theorem completeCommand_ok {s t : State} (h : s.err = false) :
    completeCommand s (.ok t) = .next t := by simp [completeCommand, h]

theorem completeCommand_error {s : State} (h : s.err = false) (r : Raise) :
    completeCommand s (.error r) = .next (s.takeError r) := by simp [completeCommand, h]

/-- A completed command is ignored, or leaves its result, or takes its error. -/
theorem completeCommand_cases {s t : State} {r : Except Raise State}
    (h : completeCommand s r = .next t) :
    (s.err = true ∧ t = s) ∨ (s.err = false ∧ r = .ok t) ∨
      ∃ e, s.err = false ∧ r = .error e ∧ t = s.takeError e := by
  unfold completeCommand at h
  split at h
  · next he => exact .inl ⟨he, by simpa using h.symm⟩
  · next he =>
    rw [Bool.not_eq_true] at he
    cases r with
    | ok u => exact .inr (.inl ⟨he, by simpa using h⟩)
    | error e => exact .inr (.inr ⟨e, he, rfl, by simpa using h.symm⟩)

/-- Every command answers a next state. -/
theorem completeCommand_next (s : State) (r : Except Raise State) :
    ∃ t, completeCommand s r = .next t := by
  unfold completeCommand
  split
  · exact ⟨s, rfl⟩
  · cases r with
    | ok t => exact ⟨t, rfl⟩
    | error e => exact ⟨_, rfl⟩

/-! ### The build -/

@[simp] theorem hardware_lMax : Config.hardware.lMax = 255 := rfl
@[simp] theorem hardware_outqDepth : Config.hardware.outqDepth = 1024 := rfl
@[simp] theorem reducedBuild_lMax (n : Nat) : (Config.reducedBuild n).lMax = n := rfl
@[simp] theorem reducedBuild_outqDepth (n : Nat) : (Config.reducedBuild n).outqDepth = 1024 := rfl

/-! ### Pushing -/

variable {p : Params}

/-- Pushing answers the bytes appended, within the capacity, or OUTQ_OVERFLOW with their number. -/
theorem pushIfRoom_cases (p : Params) (s : State) (out : List Byte) :
    (s.outq.length + out.length ≤ p.outqDepth ∧ pushIfRoom p s out = .ok (s.pushBytes out)) ∨
      (s.outq.length + out.length > p.outqDepth ∧
        pushIfRoom p s out = .error ⟨.outqOverflow, BitVec.ofNat 32 out.length⟩) := by
  unfold pushIfRoom
  split
  · next h => exact .inr ⟨h, rfl⟩
  · next h => exact .inl ⟨by omega, rfl⟩

theorem pushIfRoom_ok {s : State} {out : List Byte}
    (h : s.outq.length + out.length ≤ p.outqDepth) :
    pushIfRoom p s out = .ok (s.pushBytes out) := by
  rcases pushIfRoom_cases p s out with ⟨_, e⟩ | ⟨hgt, _⟩
  · exact e
  · omega

theorem pushIfRoom_error {s : State} {out : List Byte}
    (h : s.outq.length + out.length > p.outqDepth) :
    pushIfRoom p s out = .error ⟨.outqOverflow, BitVec.ofNat 32 out.length⟩ := by
  rcases pushIfRoom_cases p s out with ⟨hle, _⟩ | ⟨_, e⟩
  · omega
  · exact e

/-- What a push that succeeds leaves. -/
theorem pushIfRoom_eq_ok {s t : State} {out : List Byte} (h : pushIfRoom p s out = .ok t) :
    t = s.pushBytes out ∧ s.outq.length + out.length ≤ p.outqDepth := by
  rcases pushIfRoom_cases p s out with ⟨hle, e⟩ | ⟨_, e⟩
  · rw [e] at h
    exact ⟨by simpa using h.symm, hle⟩
  · rw [e] at h
    cases h

/-! ### Commands -/

@[simp] theorem execIn_sreset (p : Params) (s : State) :
    execIn p .sreset s = .next s.softReset := rfl

@[simp] theorem exec_sreset (s : State) : exec .sreset s = .next s.softReset := rfl

/-- Every command but SRESET ends as completeCommand ends its result. -/
theorem execIn_eq_completeCommand {i : Instr} (h : i ≠ .sreset) (s : State) :
    execIn p i s = completeCommand s (commandResult p i s) := if_neg h

/-- exec is the machine of this hardware. -/
theorem exec_eq_execIn (i : Instr) (s : State) : exec i s = execIn Config.hardware i s := by
  cases i <;> rfl

theorem exec_eq_completeCommand {i : Instr} (h : i ≠ .sreset) (s : State) :
    exec i s = completeCommand s (commandResult Config.hardware i s) := by
  rw [exec_eq_execIn, execIn_eq_completeCommand h]

/-- What a command can do: SRESET, or ignored, or its result, or its error. -/
theorem execIn_cases {i : Instr} {s t : State} (h : execIn p i s = .next t) :
    (i = .sreset ∧ t = s.softReset) ∨ (i ≠ .sreset ∧ s.err = true ∧ t = s) ∨
      (i ≠ .sreset ∧ s.err = false ∧ commandResult p i s = .ok t) ∨
      ∃ e, i ≠ .sreset ∧ s.err = false ∧ commandResult p i s = .error e ∧ t = s.takeError e := by
  by_cases hi : i = .sreset
  · subst hi
    exact .inl ⟨rfl, by simpa using h.symm⟩
  · rw [execIn_eq_completeCommand hi] at h
    rcases completeCommand_cases h with ⟨he, ht⟩ | ⟨he, hr⟩ | ⟨e, he, hr, ht⟩
    · exact .inr (.inl ⟨hi, he, ht⟩)
    · exact .inr (.inr (.inl ⟨hi, he, hr⟩))
    · exact .inr (.inr (.inr ⟨e, hi, he, hr, ht⟩))

theorem exec_cases {i : Instr} {s t : State} (h : exec i s = .next t) :
    (i = .sreset ∧ t = s.softReset) ∨ (i ≠ .sreset ∧ s.err = true ∧ t = s) ∨
      (i ≠ .sreset ∧ s.err = false ∧ commandResult Config.hardware i s = .ok t) ∨
      ∃ e, i ≠ .sreset ∧ s.err = false ∧ commandResult Config.hardware i s = .error e ∧
        t = s.takeError e :=
  execIn_cases (exec_eq_execIn i s ▸ h)

/-- A command whose result is a state leaves it. -/
theorem execIn_of_ok {i : Instr} {s t : State} (hi : i ≠ .sreset) (he : s.err = false)
    (h : commandResult p i s = .ok t) : execIn p i s = .next t := by
  rw [execIn_eq_completeCommand hi, h, completeCommand_ok he]

theorem exec_of_ok {i : Instr} {s t : State} (hi : i ≠ .sreset) (he : s.err = false)
    (h : commandResult Config.hardware i s = .ok t) : exec i s = .next t := by
  rw [exec_eq_execIn, execIn_of_ok hi he h]

/-- A command whose result is an error takes it. -/
theorem execIn_of_error {i : Instr} {s : State} {e : Raise} (hi : i ≠ .sreset) (he : s.err = false)
    (h : commandResult p i s = .error e) : execIn p i s = .next (s.takeError e) := by
  rw [execIn_eq_completeCommand hi, h, completeCommand_error he]

theorem exec_of_error {i : Instr} {s : State} {e : Raise} (hi : i ≠ .sreset) (he : s.err = false)
    (h : commandResult Config.hardware i s = .error e) : exec i s = .next (s.takeError e) := by
  rw [exec_eq_execIn, execIn_of_error hi he h]

end Sys2Proof.Machine
end

