-- ==== Sys2Proof/Laws/PerInstr.lean ====
section
/-! SUPPORT. What holds of every command as syntax, one lemma per command: it is well formed, its word
passes the three checks of spec/30_encoding.md rule R114, and the word's fields are its OP, a zero RSV
and its ARG (R110). -/

namespace Sys2Proof.Laws.Encoding

/-- A command is well formed, and its word is legal with the fields of R110. -/
def Statement (i : Instr) : Prop :=
  i.wellFormed = true ∧ wordLegal (encode i) = true ∧ cmdOp (encode i) = i.opcode ∧
    cmdRsv (encode i) = 0#16 ∧ cmdArg (encode i) = i.argByte

/-- The fields of the word made of an OP, a zero RSV and an ARG. -/
theorem fields (op arg : Byte) :
    cmdOp (op ++ 0#16 ++ arg) = op ∧ cmdRsv (op ++ 0#16 ++ arg) = 0#16 ∧
      cmdArg (op ++ 0#16 ++ arg) = arg := by
  refine ⟨?_, ?_, ?_⟩
  all_goals
    apply BitVec.eq_of_getElem_eq
    intro i hi
    simp only [cmdOp, cmdRsv, cmdArg, BitVec.getElem_extractLsb', BitVec.getLsbD_append,
      BitVec.getLsbD_zero, BitVec.getElem_zero]
  · rw [if_neg (by omega), if_neg (by omega), show 24 + i - 8 - 16 = i by omega,
      BitVec.getLsbD_eq_getElem hi]
  · rw [if_neg (by omega), if_pos (by omega)]
  · rw [if_pos (by omega), Nat.zero_add, BitVec.getLsbD_eq_getElem hi]

/-- A command whose OP and ARG pass the checks has a legal word. -/
theorem of_wellFormed {i : Instr} (h : i.wellFormed = true) : Statement i := by
  obtain ⟨ho, hr, ha⟩ := fields i.opcode i.argByte
  refine ⟨h, ?_, ho, hr, ha⟩
  unfold Instr.wellFormed at h
  rw [Bool.and_eq_true] at h
  unfold wordLegal encode
  rw [ho, hr, ha, h.1, h.2]
  rfl

theorem nop : Statement .nop := of_wellFormed rfl
theorem sreset : Statement .sreset := of_wellFormed rfl
theorem clrFreq : Statement .clrFreq := of_wellFormed rfl
theorem build : Statement .build := of_wellFormed rfl
theorem derive : Statement .derive := of_wellFormed rfl
theorem assign : Statement .assign := of_wellFormed rfl
theorem hdrEmit : Statement .hdrEmit := of_wellFormed rfl
theorem hdrBegin : Statement .hdrBegin := of_wellFormed rfl
theorem hdrByte (b : Byte) : Statement (.hdrByte b) := of_wellFormed rfl
theorem enc (sym : Byte) : Statement (.enc sym) := of_wellFormed rfl
theorem encFlush : Statement .encFlush := of_wellFormed rfl
theorem decFeed (b : Byte) : Statement (.decFeed b) := of_wellFormed rfl
theorem decFinish (pad : Byte) : Statement (.decFinish pad) := of_wellFormed rfl

end Sys2Proof.Laws.Encoding
end

