-- ==== Sys2Proof/Laws/Registers.lean ====
section
/-! SUPPORT. Which register stands at each offset of the window (spec/10_state.md rule R32), and
everything a legal read and a legal write of the host can do. -/

namespace Sys2Proof.Machine

/-! ### The register map -/

@[simp] theorem regAt_id : regAt 0x000#11 = .id := rfl
@[simp] theorem regAt_param : regAt 0x004#11 = .param := rfl
@[simp] theorem regAt_ctrl : regAt 0x008#11 = .ctrl := rfl
@[simp] theorem regAt_status : regAt 0x00C#11 = .status := rfl
@[simp] theorem regAt_cause : regAt 0x010#11 = .cause := rfl
@[simp] theorem regAt_errInfo : regAt 0x014#11 = .errInfo := rfl
@[simp] theorem regAt_cmd : regAt 0x018#11 = .cmd := rfl
@[simp] theorem regAt_outData : regAt 0x01C#11 = .outData := rfl
@[simp] theorem regAt_outCount : regAt 0x020#11 = .outCount := rfl
@[simp] theorem regAt_maxLen : regAt 0x024#11 = .maxLen := rfl
@[simp] theorem regAt_nSym : regAt 0x028#11 = .nSym := rfl
@[simp] theorem regAt_bitPos : regAt 0x02C#11 = .bitPos := rfl
@[simp] theorem regAt_codeSel : regAt 0x030#11 = .codeSel := rfl
@[simp] theorem regAt_codeLen : regAt 0x034#11 = .codeLen := rfl

theorem freqOffset_toNat (sym : Byte) : (freqOffset sym).toNat = 0x400 + 4 * sym.toNat := by
  have := sym.isLt
  rw [freqOffset, BitVec.toNat_ofNat, Nat.mod_eq_of_lt (by omega)]

@[simp] theorem regAt_freqOffset (sym : Byte) : regAt (freqOffset sym) = .freq sym := by
  have h : (0x400 + 4 * sym.toNat - 0x400) / 4 = sym.toNat := by omega
  simp [regAt, freqOffset_toNat]

/-- CODE_WORDk stands at 0x038 + 4k. -/
theorem regAt_codeWord {k : Nat} (h : k < 8) :
    regAt (BitVec.ofNat 11 (0x038 + 4 * k)) = .codeWord k := by
  have hn : (BitVec.ofNat 11 (0x038 + 4 * k)).toNat = 0x038 + 4 * k := by
    rw [BitVec.toNat_ofNat, Nat.mod_eq_of_lt (by omega)]
  have hd : (0x038 + 4 * k - 0x038) / 4 = k := by omega
  simp only [regAt, hn, hd]
  rw [if_neg (by omega), if_neg (by omega), if_pos (by omega)]

theorem regIte_ne {p : Prop} [Decidable p] {a b c : Reg} (ha : a ≠ c) (hb : b ≠ c) :
    (if p then a else b) ≠ c := by
  split <;> assumption

/-- No offset below FREQ holds a FREQ entry. -/
theorem regAt_ne_freq {off : Offset} (h : off.toNat < 0x400) (sym : Byte) :
    regAt off ≠ .freq sym := by
  unfold regAt
  generalize off.toNat = o at h
  have h0 : ¬ 0x400 ≤ o := by omega
  simp only [h0, if_false]
  repeat' (apply regIte_ne)
  all_goals exact Reg.noConfusion

/-! ### Reads and writes -/

/-- What any legal read leaves: the host's record grows by the value read, a counter may advance, and
OUTQ may lose its head; nothing else changes. -/
theorem busRead_cases (s : State) (off : Offset) (p : Params := Config.hardware) : ∃ (v : Word) (free : Nat) (q : List Byte),
    s.busRead off p = { s with
      outq := q
      bus := { s.bus with reads := s.bus.reads ++ [⟨off, v⟩], freeReads := free } } ∧
    (q = s.outq ∨ s.busy = false ∧ q = s.outq.tail) := by
  unfold State.busRead
  split
  · unfold State.readBusy
    split
    all_goals exact ⟨_, _, _, rfl, .inl rfl⟩
  · next hb =>
    unfold State.readIdle
    split
    · exact ⟨_, _, _, rfl, .inr ⟨by simpa using hb, rfl⟩⟩
    · exact ⟨_, _, _, rfl, .inl rfl⟩

/-- A read while idle, at any offset but OUT_DATA's, only records the register's value. -/
theorem busRead_idle {s : State} {off : Offset} {p : Params} (hb : s.busy = false)
    (h : regAt off ≠ .outData) :
    s.busRead off p = s.recordRead off (s.regWord (regAt off) p) := by
  unfold State.busRead State.readIdle
  rw [hb, if_neg (by simp)]
  split
  · next he => exact absurd he h
  · rfl

/-- What any legal write leaves: nothing, or one register written, or a command issued. -/
theorem busWrite_cases (s : State) (off : Offset) (v : Word) :
    s.busWrite off v = s ∨
      (s.busy = false ∧ regAt off = .ctrl ∧ s.busWrite off v = s.writeCtrl v) ∨
      (s.busy = false ∧ regAt off = .cmd ∧ s.busWrite off v = s.issue v) ∨
      (s.busy = false ∧ regAt off = .codeSel ∧
        s.busWrite off v = { s with codeSel := v.extractLsb' 0 8 }) ∨
      ∃ sym, s.busy = false ∧ regAt off = .freq sym ∧
        s.busWrite off v = { s with freq := fileSet s.freq sym v } := by
  unfold State.busWrite
  split
  · exact .inl rfl
  · next hb =>
    rw [Bool.not_eq_true] at hb
    unfold State.writeIdle
    split
    · next h => exact .inr (.inl ⟨hb, h, rfl⟩)
    · next h => exact .inr (.inr (.inl ⟨hb, h, rfl⟩))
    · next h => exact .inr (.inr (.inr (.inl ⟨hb, h, rfl⟩)))
    · next h => exact .inr (.inr (.inr (.inr ⟨_, hb, h, rfl⟩)))
    · exact .inl rfl

/-- A write while idle is the write of the register at its offset. -/
theorem busWrite_idle {s : State} (hb : s.busy = false) (off : Offset) (v : Word) :
    s.busWrite off v = s.writeIdle off v := by
  unfold State.busWrite
  rw [hb, if_neg (by simp)]

/-- What issuing a word leaves: it is ignored, or it stands in execution and one duration is used. -/
theorem issue_cases (s : State) (w : Word) :
    (s.err = true ∧ w ≠ sresetWord ∧ s.issue w = s) ∨
      ((s.err = false ∨ w = sresetWord) ∧ s.issue w = { s with
        cmd := some ⟨w, s.bus.durations.headD 0⟩
        bus := { s.bus with durations := s.bus.durations.tail } }) := by
  unfold State.issue
  split
  · next h => exact .inl ⟨h.1, h.2, rfl⟩
  · next h =>
    refine .inr ⟨?_, rfl⟩
    by_contra hn
    rw [not_or, Bool.not_eq_false] at hn
    exact h hn

end Sys2Proof.Machine
end

