-- ==== Sys2Proof/Laws/Results.lean ====
section
/-! SUPPORT. For each command, everything its success says: the checks that passed and the state it
leaves. A proof about a command that completes cites one of these and unfolds nothing. -/

namespace Sys2Proof.Machine

variable {p : Params}

/-- A successful BUILD (R160). -/
theorem buildResult_ok {s t : State} (h : buildResult s = .ok t) :
    s.ld.active = false ∧ s.encAct = false ∧ s.decAct = false ∧ presentSymbols s.freq ≠ [] ∧
      t = { s.clearTable.clearCodes with
        tree := (buildTree s.freq).1
        root := (buildTree s.freq).2
        nleaf := (presentSymbols s.freq).length
        treeValid := true } := by
  unfold buildResult at h
  split at h
  · cases h
  · next hb =>
    split at h
    · cases h
    · next hp =>
      simp only [Bool.or_eq_true, not_or, Bool.not_eq_true] at hb
      exact ⟨hb.1.1, hb.1.2, hb.2, hp, by simpa using h.symm⟩

/-- A successful DERIVE (R180). -/
theorem deriveResult_ok {s t : State} (h : deriveResult p s = .ok t) :
    s.treeValid = true ∧ maxLength s.treeLeaves ≤ p.lMax ∧
      policyRejects s.policy s.treeLeaves = false ∧
      (∀ len, 1 ≤ len → len ≤ maxLength s.treeLeaves →
        (symbolsAt s.treeLeaves len).length ≤ 255) ∧
      t = { s.clearTree.clearCodes with
        ltValid := true
        lt := tableOf s.treeLeaves
        ltMax := BitVec.ofNat 8 (maxLength s.treeLeaves)
        ltNsym := BitVec.ofNat 9 s.treeLeaves.length } := by
  unfold deriveResult at h
  split at h
  · cases h
  · next h1 =>
    split at h
    · cases h
    · next h2 =>
      split at h
      · cases h
      · next h3 =>
        split at h
        · cases h
        · next h4 =>
          refine ⟨by simpa using h1, by omega, by simpa using h3, fun len hl hm => ?_,
            by simpa using h.symm⟩
          have := List.find?_eq_none.1 h4 len (by simp [hl, hm])
          simpa using this

/-- A successful ASSIGN (R200). -/
theorem assignResult_ok {s t : State} (h : assignResult s = .ok t) :
    s.ld.active = false ∧ s.ltValid = true ∧
      t = { s with
        codeLen := (assignCodes s.lt s.ltMax.toNat).len
        codeVal := (assignCodes s.lt s.ltMax.toNat).val
        codesValid := true } := by
  unfold assignResult at h
  split at h
  · cases h
  · next h1 =>
    split at h
    · cases h
    · next h2 => exact ⟨by simpa using h1, by simpa using h2, by simpa using h.symm⟩

/-- A successful HDR_EMIT (R260). -/
theorem hdrEmitResult_ok {s t : State} (h : hdrEmitResult p s = .ok t) :
    s.ltValid = true ∧ t = s.pushBytes (headerBytes s.lt s.ltMax) ∧
      s.outq.length + (headerBytes s.lt s.ltMax).length ≤ p.outqDepth := by
  unfold hdrEmitResult at h
  split at h
  · cases h
  · next h1 =>
    obtain ⟨ht, hl⟩ := pushIfRoom_eq_ok h
    exact ⟨by simpa using h1, ht, hl⟩

/-- A successful HDR_BEGIN (R262). -/
theorem hdrBeginResult_ok {s t : State} (h : hdrBeginResult s = .ok t) :
    s.encAct = false ∧ s.decAct = false ∧
      t = { s.clearTree.clearTable.clearCodes with ld := Loader.started } := by
  unfold hdrBeginResult at h
  split at h
  · cases h
  · next h1 =>
    simp only [Bool.or_eq_true, not_or, Bool.not_eq_true] at h1
    exact ⟨h1.1, h1.2, by simpa using h.symm⟩

/-- A successful HDR_BYTE (R263). -/
theorem hdrByteResult_ok {b : Byte} {s t : State}
    (h : hdrByteResult p b s = .ok t) :
    s.ld.active = true ∧ ∃ l, loadByte p.lMax s.ld b = .ok l ∧ t = s.afterLoad l := by
  unfold hdrByteResult at h
  split at h
  · cases h
  · next h1 =>
    cases hl : loadByte p.lMax s.ld b with
    | error r =>
      rw [hl] at h
      cases h
    | ok l =>
      rw [hl] at h
      exact ⟨by simpa using h1, l, rfl, by simpa using h.symm⟩

/-- A successful ENC (R220). -/
theorem encResult_ok {sym : Byte} {s t : State} (h : encResult p sym s = .ok t) :
    s.codesValid = true ∧ fileGet s.codeLen sym ≠ 0#8 ∧
      s.outq.length + (s.encBits sym).length / 8 ≤ p.outqDepth ∧
      t = { s with
        outq := s.outq ++ packBytes ((s.encBits sym).length / 8) (s.encBits sym)
        encAcc := (s.encBits sym).drop (8 * ((s.encBits sym).length / 8))
        encAct := true } := by
  unfold encResult at h
  split at h
  · cases h
  · next h1 =>
    split at h
    · cases h
    · next h2 =>
      obtain ⟨ht, hl⟩ := pushIfRoom_eq_ok h
      simp only [packBytes_length] at hl
      exact ⟨by simpa using h1, h2, hl, ht⟩

/-- A successful ENC_FLUSH (R222). -/
theorem encFlushResult_ok {s t : State} (h : encFlushResult p s = .ok t) :
    s.codesValid = true ∧ s.outq.length + (flushBytes s.encAcc).length ≤ p.outqDepth ∧
      t = { s with outq := s.outq ++ flushBytes s.encAcc, encAcc := [], encAct := false } := by
  unfold encFlushResult at h
  split at h
  · cases h
  · next h1 =>
    obtain ⟨ht, hl⟩ := pushIfRoom_eq_ok h
    exact ⟨by simpa using h1, hl, ht⟩

/-- Decoding from the front of bits succeeds exactly as greedy does. -/
theorem decodeBits_ok {s : State} {bits rest : BitSeq} {out : List Byte}
    (h : s.decodeBits bits = .ok (rest, out)) :
    greedy s.dmap bits s.ltMax.toNat = .ok (rest, out) := by
  unfold State.decodeBits at h
  split at h
  · cases h
  · next r hg =>
    simp only [Except.ok.injEq] at h
    rw [hg, h]

/-- A successful DEC_FEED (R241): a held byte was decoded, or none was held. -/
theorem decFeedResult_ok {b : Byte} {s t : State} (h : decFeedResult p b s = .ok t) :
    s.codesValid = true ∧ ∃ rest out,
      (s.holdV = true ∧
          greedy s.dmap (s.dbits ++ byteBits s.hold) s.ltMax.toNat = .ok (rest, out) ∨
        s.holdV = false ∧ rest = s.dbits ∧ out = []) ∧
      s.outq.length + out.length ≤ p.outqDepth ∧
      t = { s with
        outq := s.outq ++ out, dbits := rest, hold := b, holdV := true, decAct := true } := by
  unfold decFeedResult at h
  split at h
  · cases h
  · next h1 =>
    split at h
    · cases h
    · next bits out hf =>
      obtain ⟨ht, hl⟩ := pushIfRoom_eq_ok h
      refine ⟨by simpa using h1, bits, out, ?_, hl, ht⟩
      unfold State.feedBits at hf
      split at hf
      · next hv => exact .inl ⟨hv, decodeBits_ok hf⟩
      · next hv =>
        simp only [Except.ok.injEq, Prod.mk.injEq] at hf
        exact .inr ⟨by simpa using hv, hf.1.symm, hf.2.symm⟩

/-- A successful DEC_FINISH (R242). -/
theorem decFinishResult_ok {pad : Byte} {s t : State} (h : decFinishResult p pad s = .ok t) :
    s.codesValid = true ∧ pad.toNat ≤ 7 ∧ (s.holdV = false → pad = 0#8) ∧ ∃ out,
      greedy s.dmap (s.dbits ++ s.tailBits pad) s.ltMax.toNat = .ok ([], out) ∧
      s.outq.length + out.length ≤ p.outqDepth ∧
      t = { s with
        outq := s.outq ++ out, dbits := [], hold := 0#8, holdV := false, decAct := false } := by
  unfold decFinishResult at h
  split at h
  · cases h
  · next h1 =>
    split at h
    · cases h
    · next h2 =>
      split at h
      · cases h
      · next h3 =>
        split at h
        · cases h
        · next bits out hd =>
          split at h
          · cases h
          · next hb =>
            obtain ⟨ht, hl⟩ := pushIfRoom_eq_ok h
            rw [Decidable.not_not] at hb
            subst hb
            exact ⟨by simpa using h1, by omega, fun hv => by_contra fun hp => h3 ⟨hv, hp⟩, out,
              decodeBits_ok hd, hl, ht⟩

/-- What one accepted header byte can be: N, a count with more to come, the last count, a symbol with
more to come, or the last symbol of a table that passes Kraft's test (R264 to R266). -/
theorem loadByte_ok {lMax : Nat} {ld : Loader} {b : Byte} {l : LoadStep}
    (h : loadByte lMax ld b = .ok l) :
    (ld.phase = .n ∧ b ≠ 0#8 ∧ b.toNat ≤ lMax ∧
        l = .more { ld with n := b, idx := 1#8, phase := .counts }) ∨
      (ld.phase = .counts ∧ ld.total.toNat + b.toNat ≤ 256 ∧ ld.idx.toNat < ld.n.toNat ∧
        l = .more { ld.withCount b with idx := ld.idx + 1#8 }) ∨
      (ld.phase = .counts ∧ ld.total.toNat + b.toNat ≤ 256 ∧ ld.n.toNat ≤ ld.idx.toNat ∧
        b ≠ 0#8 ∧ l = .more { (ld.withCount b).toLength 0 with phase := .syms }) ∨
      (ld.phase = .syms ∧ ld.seen.getLsbD b.toNat = false ∧ (ld.withSymbol b).left ≠ 0#9 ∧
        l = .more (ld.withSymbol b)) ∨
      (ld.phase = .syms ∧ ld.seen.getLsbD b.toNat = false ∧ (ld.withSymbol b).left = 0#9 ∧
        ld.idx.toNat < ld.n.toNat ∧ l = .more ((ld.withSymbol b).toLength ld.idx.toNat)) ∨
      (ld.phase = .syms ∧ ld.seen.getLsbD b.toNat = false ∧ (ld.withSymbol b).left = 0#9 ∧
        ld.n.toNat ≤ ld.idx.toNat ∧ kraftOk ld.count ld.n.toNat = true ∧
        l = .complete ((lengths ld.n.toNat).map (ld.withSymbol b).entry) ld.n ld.total) := by
  unfold loadByte at h
  split at h
  · next hp =>
    unfold loadN at h
    split at h
    · cases h
    · next hb =>
      rw [not_or] at hb
      exact .inl ⟨hp, hb.1, by omega, by simpa using h.symm⟩
  · next hp =>
    unfold loadCount at h
    split at h
    · cases h
    · next ht =>
      split at h
      · next hi => exact .inr (.inl ⟨hp, by omega, hi, by simpa using h.symm⟩)
      · next hi =>
        split at h
        · cases h
        · next hb =>
          exact .inr (.inr (.inl ⟨hp, by omega, by omega, hb, by simpa using h.symm⟩))
  · next hp =>
    unfold loadSymbol at h
    split at h
    · cases h
    · next hs =>
      rw [Bool.not_eq_true] at hs
      split at h
      · next hl => exact .inr (.inr (.inr (.inl ⟨hp, hs, hl, by simpa using h.symm⟩)))
      · next hl =>
        rw [Decidable.not_not] at hl
        split at h
        · next hi =>
          exact .inr (.inr (.inr (.inr (.inl ⟨hp, hs, hl, hi, by simpa using h.symm⟩))))
        · next hi =>
          split at h
          · next hk =>
            exact .inr (.inr (.inr (.inr (.inr
              ⟨hp, hs, hl, by omega, hk, by simpa using h.symm⟩))))
          · cases h

end Sys2Proof.Machine
end

