-- ==== Sys2Proof/Laws/Step.lean ====
section
/-! SUPPORT. Everything one step can do: a command completes, a word that is no command takes its
error, or one event of the host is served. A proof about every step splits into these cases. -/

namespace Sys2Proof.Machine

/-- Which command completes next, and in which state. -/
theorem fetchCommand_eq_some {s u : State} {w : Word} :
    fetchCommand s = some (w, u) ↔ ∃ c, s.cmd = some c ∧ (c.left = 0 ∨ s.bus.pending = []) ∧
      c.word = w ∧ { s with cmd := none } = u := by
  unfold fetchCommand
  cases hc : s.cmd with
  | none => simp
  | some c =>
    simp only [Option.some.injEq, exists_eq_left']
    split
    · next h => simp [h]
    · next h => simp [h]

theorem fetchCommand_eq_none {s : State} :
    fetchCommand s = none ↔ ∀ c, s.cmd = some c → c.left ≠ 0 ∧ s.bus.pending ≠ [] := by
  unfold fetchCommand
  cases hc : s.cmd with
  | none => simp
  | some c =>
    simp only [Option.some.injEq, forall_eq']
    split
    · next h => simp only [reduceCtorEq, false_iff]; tauto
    · next h => simp only [true_iff]; tauto

/-- One event served: a legal read, a legal write, or the reset input. -/
theorem serveEvent_cases {p : Params} {e : BusEvent} {s t : State}
    (h : serveEvent p e s = .next t) :
    (∃ width off, e = .read width off ∧ accessLegal width off = true ∧
        t = s.busRead off p) ∨
      (∃ width off v, e = .write width off v ∧ accessLegal width off = true ∧
        t = s.busWrite off v) ∨
      (e = .reset ∧ t = s.hardReset) := by
  unfold serveEvent at h
  cases e with
  | read width off =>
    simp only at h
    split at h
    · next hl => exact .inl ⟨_, _, rfl, hl, by simpa using h.symm⟩
    · cases h
  | write width off v =>
    simp only at h
    split at h
    · next hl => exact .inr (.inl ⟨_, _, _, rfl, hl, by simpa using h.symm⟩)
    · cases h
  | reset => exact .inr (.inr ⟨rfl, by simpa using h.symm⟩)

/-- The host's side of a step: nothing to do, or one event served. -/
theorem serveHost_cases {p : Params} {s t : State} (h : serveHost p s = .next t) :
    (s.bus.pending = [] ∧ t = s) ∨
      ∃ e rest, s.bus.pending = e :: rest ∧ serveEvent p e (s.takeEvent rest) = .next t := by
  unfold serveHost at h
  split at h
  · next hp => exact .inl ⟨hp, by simpa using h.symm⟩
  · next e rest hp => exact .inr ⟨e, rest, hp, h⟩

/-- Everything a step that goes on can be. -/
theorem stepIn_cases {p : Params} {s t : State} (h : stepIn p s = .next t) :
    (∃ c i, s.cmd = some c ∧ (c.left = 0 ∨ s.bus.pending = []) ∧ decode c.word = .ok i ∧
        execIn p i { s with cmd := none } = .next t) ∨
      (∃ c e, s.cmd = some c ∧ (c.left = 0 ∨ s.bus.pending = []) ∧ decode c.word = .error e ∧
        execIllegal c.word { s with cmd := none } = .next t) ∨
      ((∀ c, s.cmd = some c → c.left ≠ 0 ∧ s.bus.pending ≠ []) ∧ serveHost p s = .next t) := by
  unfold stepIn at h
  split at h
  · next w u hf =>
    obtain ⟨c, hc, hw, rfl, rfl⟩ := fetchCommand_eq_some.1 hf
    split at h
    · next i hd => exact .inl ⟨c, i, hc, hw, hd, h⟩
    · next e hd => exact .inr (.inl ⟨c, e, hc, hw, hd, h⟩)
  · next hf => exact .inr (.inr ⟨fetchCommand_eq_none.1 hf, h⟩)

/-- step is the machine of this hardware. -/
theorem step_eq_stepIn (s : State) : step s = stepIn Config.hardware s := by
  unfold step stepIn
  cases fetchCommand s with
  | none => rfl
  | some c =>
    dsimp only
    cases decode c.1 with
    | ok i => exact exec_eq_execIn i c.2
    | error _ => rfl

/-- Everything a step of this hardware that goes on can be. -/
theorem step_cases {s t : State} (h : step s = .next t) :
    (∃ c i, s.cmd = some c ∧ (c.left = 0 ∨ s.bus.pending = []) ∧ decode c.word = .ok i ∧
        exec i { s with cmd := none } = .next t) ∨
      (∃ c e, s.cmd = some c ∧ (c.left = 0 ∨ s.bus.pending = []) ∧ decode c.word = .error e ∧
        execIllegal c.word { s with cmd := none } = .next t) ∨
      ((∀ c, s.cmd = some c → c.left ≠ 0 ∧ s.bus.pending ≠ []) ∧
        serveHost Config.hardware s = .next t) := by
  simp only [exec_eq_execIn]
  exact stepIn_cases (step_eq_stepIn s ▸ h)

/-- A latched command is the one that completes next. -/
theorem fetchCommand_latch (s : State) (w : Word) :
    fetchCommand (s.latch w) = some (w, { s with cmd := none }) := rfl

/-- An access that issues no command leaves BUSY, ERR and the decode session as they are. -/
theorem step_issuesNoCommand {s t : State} {e : BusEvent} {rest : List BusEvent}
    (hc : s.cmd = none) (hp : s.bus.pending = e :: rest) (he : issuesNoCommand e = true)
    (h : step s = .next t) : t.cmd = none ∧ t.err = s.err ∧ t.decAct = s.decAct := by
  obtain ⟨c, _, hs, _⟩ | ⟨c, _, hs, _⟩ | ⟨-, h⟩ := step_cases h
  · simp [hc] at hs
  · simp [hc] at hs
  obtain ⟨hn, -⟩ | ⟨e', rest', hp', h⟩ := serveHost_cases h
  · simp [hp] at hn
  obtain ⟨rfl, rfl⟩ : e = e' ∧ rest = rest' := by simpa [hp] using hp'
  obtain ⟨_, off, -, -, rfl⟩ | ⟨_, off, v, rfl, -, rfl⟩ | ⟨rfl, -⟩ := serveEvent_cases h
  · obtain ⟨_, _, _, hr, -⟩ := busRead_cases (s.takeEvent rest) off Config.hardware
    rw [hr]
    exact ⟨by simp [State.takeEvent, hc], rfl, rfl⟩
  · have hr : regAt off ≠ .cmd := by simpa [issuesNoCommand] using he
    obtain hw | ⟨-, -, hw⟩ | ⟨-, hr', -⟩ | ⟨-, -, hw⟩ | ⟨_, -, -, hw⟩ :=
      busWrite_cases (s.takeEvent rest) off v
    case inr.inr.inl => exact absurd hr' hr
    all_goals rw [hw]; exact ⟨by simp [State.takeEvent, State.writeCtrl, hc], rfl, rfl⟩
  · simp [issuesNoCommand] at he

theorem afterLastCommand_keeps {s t : State} (h : AfterLastCommand s t) (hc : s.cmd = none) :
    t.cmd = none ∧ t.err = s.err ∧ t.decAct = s.decAct := by
  induction h with
  | done s => exact ⟨hc, rfl, rfl⟩
  | access hp he hs _ ih =>
    obtain ⟨hc', he', hd'⟩ := step_issuesNoCommand hc hp he hs
    obtain ⟨h1, h2, h3⟩ := ih hc'
    exact ⟨h1, h2.trans he', h3.trans hd'⟩

/-- A decode that succeeds closes its session (R242, R247). -/
theorem decodeSucceeds_closed {s t : State} (h : DecodeSucceeds s t) :
    t.cmd = none ∧ t.err = false ∧ t.decAct = false := by
  obtain ⟨w, u, pad, hf, hd, hs, he⟩ := h
  obtain ⟨c, -, -, -, rfl⟩ := fetchCommand_eq_some.1 hf
  unfold step at hs
  rw [hf] at hs
  dsimp only at hs
  rw [hd] at hs
  obtain ⟨h, -⟩ | ⟨-, h, rfl⟩ | ⟨-, -, h⟩ | ⟨e, -, -, -, rfl⟩ := exec_cases hs
  · cases h
  · exact absurd (h.symm.trans he) (by simp)
  · obtain ⟨-, -, -, _, -, -, rfl⟩ := decFinishResult_ok h
    exact ⟨rfl, he, rfl⟩
  · simp at he

/-- A decompress call that is valid meets what every valid call does. -/
theorem decodeCallValid_callValid {s t : State} (h : DecodeCallValid s t) : callValid t = true := by
  obtain ⟨u, hs, ha, he⟩ := h
  obtain ⟨hc, hu, hd⟩ := decodeSucceeds_closed hs
  obtain ⟨-, h2, h3⟩ := afterLastCommand_keeps ha hc
  simp [callValid, he, h2, h3, hu, hd]

end Sys2Proof.Machine
end

