-- ==== Sys2Proof/Tests/Slice0.lean ====
section
/-! SUPPORT. Tests with expected results from the spec (spec/95_test_vectors.md, spec/30_encoding.md),
and, for every statement that has hypotheses, a witness that meets them. -/

namespace Sys2Proof.Tests

open Sys2Proof Sys2Proof.Machine

-- One theorem after another: checked side by side, their evaluations take more memory than there is.
set_option Elab.async false

/-! ### Decoding: words written out from R110 and R112, and words that are no command -/

theorem test_decode_nop : decode 0x00000000#32 = .ok .nop := by decide
theorem test_decode_sreset : decode 0x01000000#32 = .ok .sreset := by decide
theorem test_decode_clrFreq : decode 0x02000000#32 = .ok .clrFreq := by decide
theorem test_decode_build : decode 0x10000000#32 = .ok .build := by decide
theorem test_decode_derive : decode 0x11000000#32 = .ok .derive := by decide
theorem test_decode_assign : decode 0x12000000#32 = .ok .assign := by decide
theorem test_decode_hdrEmit : decode 0x20000000#32 = .ok .hdrEmit := by decide
theorem test_decode_hdrBegin : decode 0x21000000#32 = .ok .hdrBegin := by decide
theorem test_decode_hdrByte : decode 0x22000078#32 = .ok (.hdrByte 0x78#8) := by decide
theorem test_decode_enc : decode 0x30000041#32 = .ok (.enc 0x41#8) := by decide
theorem test_decode_encFlush : decode 0x31000000#32 = .ok .encFlush := by decide
theorem test_decode_decFeed : decode 0x400000F4#32 = .ok (.decFeed 0xF4#8) := by decide
theorem test_decode_decFinish : decode 0x41000001#32 = .ok (.decFinish 0x01#8) := by decide

/-- An operand byte is taken whole: its top and bottom bits reach the command. -/
theorem test_decode_operand_ends :
    decode 0x40000080#32 = .ok (.decFeed 0x80#8) ∧ decode 0x220000FF#32 = .ok (.hdrByte 0xFF#8) := by
  decide

/-- WellFormed, check 1: an OP that R112 does not assign is refused (V-X1). -/
theorem test_illformed_op :
    opAssigned 0x03#8 = false ∧ wordLegal 0x03000000#32 = false ∧
      decode 0x03000000#32 = .error .unassignedOp ∧ decode 0xFF000000#32 = .error .unassignedOp := by
  decide

/-- WellFormed, check 2: RSV ≠ 0 is refused, at either end of the field (V-X1, R114). -/
theorem test_illformed_rsv :
    rsvClear 0x0001#16 = false ∧ wordLegal 0x30010041#32 = false ∧
      decode 0x30010041#32 = .error .reservedNotZero ∧
      decode 0x00000100#32 = .error .reservedNotZero ∧
      decode 0x00800000#32 = .error .reservedNotZero := by
  decide

/-- WellFormed, check 3: ARG ≠ 0 on a command with no operand is refused (V-X1, V-C3). -/
theorem test_illformed_arg :
    argAllowed 0x10#8 0x01#8 = false ∧ wordLegal 0x10000001#32 = false ∧
      decode 0x10000001#32 = .error .operandNotTaken ∧
      decode 0x31000001#32 = .error .operandNotTaken ∧
      decode 0x01000001#32 = .error .operandNotTaken := by
  decide

theorem test_encode_words :
    encode .build = 0x10000000#32 ∧ encode (.enc 0x42#8) = 0x30000042#32 ∧
      encode (.decFinish 0x01#8) = 0x41000001#32 := by
  decide

theorem test_table_word : decodeTableWord 32 0x22000041 = some (.hdrByte 0x41#8) := by decide

/-! ### Small states -/

/-- What a command leaves, where it answers a next state. -/
def after (i : Instr) (s : State) : Option State :=
  match exec i s with
  | .next t => some t
  | .fault _ => none
  | .refused _ => none

/-- What a command leaves in another build, where it answers a next state. -/
def afterIn (p : Params) (i : Instr) (s : State) : Option State :=
  match execIn p i s with
  | .next t => some t
  | .fault _ => none
  | .refused _ => none

/-- What a step leaves, where it answers a next state. -/
def afterStep (s : State) : Option State :=
  match step s with
  | .next t => some t
  | .fault _ => none
  | .refused _ => none

/-- ERR, CAUSE's code and ERR_INFO. -/
def errorOf (s : State) : Bool × Nat × Word := (s.err, s.cause.code.toNat, s.errInfo)

/-- After reset, with these frequencies written. -/
def freqState (fs : List (Byte × Word)) : State :=
  { State.reset with freq := fs.foldl (fun f p => fileSet f p.1 p.2) State.reset.freq }

/-- "AAAAABBBCC" (V-B1). -/
def abcFreq : State := freqState [(0x41#8, 5#32), (0x42#8, 3#32), (0x43#8, 2#32)]

/-- A state that holds a tree. -/
def treeState (tree : List Node) (root nleaf : Nat) : State :=
  { State.reset with treeValid := true, tree := tree, root := root, nleaf := nleaf }

/-- The tree of V-B1. -/
def abcTree : List Node :=
  [.leaf 0x41#8 5#32, .leaf 0x42#8 3#32, .leaf 0x43#8 2#32, .internal 5#40 2 1, .internal 10#40 0 3]

def abcTreeState : State := treeState abcTree 4 3

/-- A state that holds a length table. -/
def tableState (lt : List (List Byte)) : State :=
  { State.reset with
    ltValid := true, lt := lt, ltMax := BitVec.ofNat 8 lt.length
    ltNsym := BitVec.ofNat 9 lt.flatten.length }

/-- A state that holds a length table and its codes. -/
def codesState (lt : List (List Byte)) : State :=
  { tableState lt with
    codesValid := true, codeLen := (assignCodes lt lt.length).len
    codeVal := (assignCodes lt lt.length).val }

/-- The table of V-D1 and the codes of V-A1: 'A' = 0, 'C' = 10, 'B' = 11. -/
def abcTable : List (List Byte) := [[0x41#8], [0x43#8, 0x42#8]]

def abcCodes : State := codesState abcTable

/-- The one-symbol table of V-D4 and its code. -/
def xCodes : State := codesState [[0x78#8]]

/-- A header load in progress: these bytes have been accepted. -/
def loadedWith (bytes : List Byte) : Loader :=
  bytes.foldl
    (fun ld b =>
      match loadByte 255 ld b with
      | .ok (.more l) => { l with pos := ld.pos + 1#10 }
      | .ok (.complete _ _ _) => ld
      | .error _ => ld)
    Loader.started

def loadState (bytes : List Byte) : State := { State.reset with ld := loadedWith bytes }

/-- abcCodes with an encode session open. -/
def encState (acc : BitSeq) (outq : List Byte) : State :=
  { abcCodes with encAct := true, encAcc := acc, outq := outq }

/-- abcCodes with a decode session open and a byte held. -/
def decState (dbits : BitSeq) (hold : Byte) : State :=
  { abcCodes with decAct := true, dbits := dbits, hold := hold, holdV := true }

/-- ERR = 1 after BUILD with FREQ all zero (V-B7). -/
def errState : State := { State.reset with err := true, cause := .emptyInput }

/-! ### One step of each command (spec/95_test_vectors.md part 2) -/

/-- V-C1. -/
theorem test_nop : after .nop abcCodes = some abcCodes := rfl

/-- V-C3: SRESET keeps CTRL and clears the error. -/
theorem test_sreset :
    (after .sreset { errState with policy := .off, ie := true }).map
      (fun t => (t.ctrlWord, t.statusWord)) = some (0x00000100#32, 0#32) := by
  decide +kernel

/-- V-C4. -/
theorem test_clrFreq : (after .clrFreq abcFreq).map (fun t => fileGet t.freq 0x41#8) = some 0#32 := by
  decide +kernel

/-- V-B1: the tree, and STATUS = 0x00000004. -/
theorem test_build :
    (after .build abcFreq).map (fun t => (t.tree, t.root, t.nleaf, t.statusWord)) =
      some (abcTree, 4, 3, 0x00000004#32) := by
  decide +kernel

/-- V-B2: among equal frequencies the least index goes first. -/
theorem test_build_ties :
    (after .build (freqState [(0x61#8, 5#32), (0x62#8, 2#32), (0x63#8, 1#32), (0x64#8, 1#32),
        (0x72#8, 2#32)])).map (fun t => (t.tree.drop 5, t.root)) =
      some ([.internal 2#40 2 3, .internal 4#40 1 4, .internal 6#40 5 6, .internal 11#40 0 7], 8) := by
  decide +kernel

/-- V-D1: discovery order is left first, and the tree is consumed. -/
theorem test_derive :
    (after .derive abcTreeState).map (fun t => (t.lt, t.ltMax, t.ltNsym, t.statusWord)) =
      some (abcTable, 2#8, 3#9, 0x00000008#32) := by
  decide +kernel

/-- The tree of V-D6, of depth 4. -/
def deepTreeState : State :=
  treeState [.leaf 0#8 1#32, .leaf 1#8 1#32, .leaf 2#8 2#32, .leaf 3#8 4#32, .leaf 4#8 8#32,
    .internal 2#40 0 1, .internal 4#40 2 5, .internal 8#40 3 6, .internal 16#40 4 7] 8 5

/-- V-D6: in the build with L_MAX = 3 a depth of 4 is CODE_TOO_LONG, and PARAM reads 0x04000003. -/
theorem test_derive_too_long :
    (afterIn (Config.reducedBuild 3) .derive deepTreeState).map
        (fun t => (errorOf t, t.statusWord)) = some ((true, 2, 4#32), 0x00000006#32) ∧
      deepTreeState.regWord (regAt 0x004#11) (Config.reducedBuild 3) = 0x04000003#32 := by
  decide +kernel

/-- V-A1: CODE_LEN and CODE_VAL of 'A', 'C' and 'B'. -/
theorem test_assign :
    (after .assign (tableState abcTable)).map
      (fun t => [0x41#8, 0x43#8, 0x42#8].map fun x => (fileGet t.codeLen x, fileGet t.codeVal x)) =
      some [(1#8, 0#255), (2#8, 2#255), (2#8, 3#255)] := by
  decide +kernel

/-- V-A7: ASSIGN with the header incomplete. -/
theorem test_assign_truncated :
    (after .assign (loadState [0x02#8, 0x01#8, 0x02#8, 0x41#8])).map
      (fun t => (errorOf t, t.statusWord)) =
      some ((true, 4, 0x06000004#32), 0x00000022#32) := by
  decide +kernel

/-- V-H2: the header of a table with an empty length. -/
theorem test_hdrEmit :
    (after .hdrEmit (tableState [[0x61#8], [], [0x63#8, 0x64#8, 0x62#8, 0x72#8]])).map State.outq =
      some [0x03#8, 0x01#8, 0x00#8, 0x04#8, 0x61#8, 0x63#8, 0x64#8, 0x62#8, 0x72#8] := by
  decide +kernel

/-- V-H6: HDR_BEGIN restarts a load. -/
theorem test_hdrBegin :
    (after .hdrBegin (loadState [0x02#8, 0x01#8])).map
      (fun t => (t.ld.phase, t.ld.pos, t.ld.n, t.ld.total, t.statusWord)) =
      some (.n, 0#10, 0#8, 0#9, 0x00000020#32) := by
  decide +kernel

/-- V-H2: after 03 01 00, the byte 04 ends the counts; LD_POS 4, LD_IDX 1, LD_LEFT 1, LD_TOTAL 5. -/
theorem test_hdrByte :
    (after (.hdrByte 0x04#8) (loadState [0x03#8, 0x01#8, 0x00#8])).map
      (fun t => (t.ld.phase, t.ld.pos, t.ld.idx, t.ld.left, t.ld.total)) =
      some (.syms, 4#10, 1#8, 1#9, 5#9) := by
  decide +kernel

/-- V-H4: 'A' repeated is reason 4; Kraft's test fails with reason 5; N above L_MAX is reason 1. -/
theorem test_hdrByte_errors :
    (after (.hdrByte 0x41#8) (loadState [0x02#8, 0x01#8, 0x02#8, 0x41#8, 0x43#8])).map errorOf =
        some (true, 4, 0x04000005#32) ∧
      (after (.hdrByte 0x42#8) (loadState [0x02#8, 0x01#8, 0x01#8, 0x41#8])).map errorOf =
        some (true, 4, 0x05000004#32) ∧
      (afterIn (Config.reducedBuild 8) (.hdrByte 0x09#8) (loadState [])).map errorOf =
        some (true, 4, 0x01000000#32) := by
  decide +kernel

/-- V-E2: the seventh ENC of "AAAAABB" pushes 07 and leaves BITPOS = 0x00008001. -/
theorem test_enc :
    (after (.enc 0x42#8) (encState [false, false, false, false, false, true, true] [])).map
      (fun t => (t.outq, t.bitPosWord)) = some ([0x07#8], 0x00008001#32) := by
  decide +kernel

/-- V-E6: NO_CODE. -/
theorem test_enc_no_code :
    (after (.enc 0x43#8) (codesState [[0x42#8, 0x41#8]])).map (fun t => (errorOf t, t.statusWord)) =
      some ((true, 9, 0x43#32), 0x0000001A#32) := by
  decide +kernel

/-- V-E2: the flush of "AAAAABBBCC" pushes F4 01. -/
theorem test_encFlush :
    (after .encFlush (encState [true, true, true, true, false, true, false] [])).map
      (fun t => (t.outq, t.statusWord)) = some ([0xF4#8, 0x01#8], 0x00000018#32) := by
  decide +kernel

/-- V-E4, V-E5: with no bits pending the flush pushes only 00. -/
theorem test_encFlush_empty : (after .encFlush abcCodes).map State.outq = some [0x00#8] := by
  decide +kernel

/-- V-U1: DEC_FEED F4 with 07 held decodes "AAAAAB" and leaves DBITS = [1]. -/
theorem test_decFeed :
    (after (.decFeed 0xF4#8) (decState [] 0x07#8)).map
      (fun t => (t.outq, t.statusWord, t.bitPosWord)) =
      some ([0x41#8, 0x41#8, 0x41#8, 0x41#8, 0x41#8, 0x42#8], 0x00000198#32, 0x00010000#32) := by
  decide +kernel

/-- V-U6: bits that match nothing, with the one-symbol table. -/
theorem test_decFeed_unmatched :
    (after (.decFeed 0x00#8) { xCodes with decAct := true, hold := 0x40#8, holdV := true }).map
      (fun t => (errorOf t, t.outq)) = some ((true, 5, 0x00070001#32), []) := by
  decide +kernel

/-- V-U1: DEC_FINISH 01 with F4 held decodes "BBCC". -/
theorem test_decFinish :
    (after (.decFinish 0x01#8) (decState [true] 0xF4#8)).map (fun t => (t.outq, t.statusWord)) =
      some ([0x42#8, 0x42#8, 0x43#8, 0x43#8], 0x00000018#32) := by
  decide +kernel

/-- V-U4: a payload cut inside a codeword. -/
theorem test_decFinish_cut :
    (after (.decFinish 0x00#8) (decState [] 0x07#8)).map (fun t => (errorOf t, t.statusWord, t.outq)) =
      some ((true, 5, 0x00010002#32), 0x0000019A#32, []) := by
  decide +kernel

/-! ### The result of a call -/

/-- V-U1's first DEC_FEED pushes nothing and raises nothing: a call that ended there, with no DEC_FINISH,
would have no valid result (R247). -/
theorem test_call_left_open :
    (after (.decFeed 0x07#8) abcCodes).map (fun t => (callEnded t, t.err, callValid t)) =
      some (true, false, false) := by
  decide +kernel

/-- V-U10's DEC_FINISH 06 about to complete, and the host about to drain the byte it pushes. -/
def lastCommand : State :=
  { decState [] 0xC0#8 with
    cmd := some ⟨0x41000006#32, 0⟩
    bus := { Bus.empty with pending := hostDrain 1 } }

theorem step_eq_next {s : State} (h : (afterStep s).isSome = true) :
    step s = .next ((afterStep s).getD s) := by
  unfold afterStep at h ⊢
  split at h
  · next t ht => rw [ht]; rfl
  · cases h
  · cases h

/-- V-U10: the call that ends after DEC_FINISH 06 and one read of OUT_DATA is valid, and gave 'B'. -/
theorem test_call_valid : ∃ final, DecodeCallValid lastCommand final ∧
    callOutput final.bus.reads = [0x42#8] := by
  let t := (afterStep lastCommand).getD lastCommand
  let final := (afterStep t).getD t
  have hf : fetchCommand lastCommand = some (0x41000006#32, { lastCommand with cmd := none }) := rfl
  have ht : step lastCommand = .next t := step_eq_next (by decide +kernel)
  have hv : step t = .next final := step_eq_next (by decide +kernel)
  have hp : t.bus.pending = [hostRead 0x01C#11] := by decide +kernel
  exact ⟨final, ⟨t, ⟨_, _, 0x06#8, hf, by decide, ht, by decide +kernel⟩,
    .access hp (by decide) hv (.done final), by decide +kernel⟩, by decide +kernel⟩

/-! ### The window -/

/-- V-X1: an illegal word, latched and completed by a step. -/
theorem test_step_illegal :
    (afterStep (State.reset.withFetchWord 32 0x10000001)).map
      (fun t => (errorOf t, t.statusWord)) =
      some ((true, 6, 0x10000001#32), 0x00000002#32) := by
  decide +kernel

/-- V-X2: BUILD with FREQ all zero and IE = 1 gives STATUS = 0x00000202. -/
theorem test_step_build :
    (afterStep ({ State.reset with ie := true }.withFetchWord 32 0x10000000)).map State.statusWord =
      some 0x00000202#32 := by
  decide +kernel

/-- V-R1, V-R2: PARAM and CTRL after reset; POLICY = 3 is not stored. -/
theorem test_registers :
    State.reset.regWord (regAt 0x004#11) = 0x040000FF#32 ∧
      State.reset.regWord (regAt 0x008#11) = 0x00000001#32 ∧
      (State.reset.busWrite 0x008#11 0xFFFFFFFF#32).regWord (regAt 0x008#11) = 0x00000101#32 := by
  decide +kernel

/-- V-R3: a read of OUT_DATA. -/
theorem test_outData :
    ({ State.reset with outq := [0x02#8, 0x01#8] }.busRead 0x01C#11).bus.reads =
        [⟨0x01C#11, 0x80000002#32⟩] ∧
      ({ State.reset with outq := [0x02#8, 0x01#8] }.busRead 0x01C#11).outq = [0x01#8] := by
  decide +kernel

/-- V-R4. -/
theorem test_freq_offsets : freqOffset 0x41#8 = 0x504#11 ∧ freqOffset 0x78#8 = 0x5E0#11 := by decide

/-! ### What the small states are -/

theorem abc_tree_ok : TreeOk abcTree 4 3 where
  nleaf_pos := by decide
  nleaf_le := by decide
  size := by decide
  root_last := by decide
  leaves := by
    intro i hi
    interval_cases i <;> exact ⟨_, _, rfl, by decide⟩
  ascending := by
    intro i j hij hj a fa b fb ha hb
    interval_cases j <;> interval_cases i <;>
      (simp only [abcTree, List.getElem?_cons_zero, List.getElem?_cons_succ, Option.some.injEq,
        Node.leaf.injEq] at ha hb; obtain ⟨rfl, _⟩ := ha; obtain ⟨rfl, _⟩ := hb; decide)
  internals := by
    intro i h3 hi
    have hi' : i < 5 := hi
    interval_cases i <;> exact ⟨_, _, _, rfl, by decide, by decide, by decide, by decide⟩
  one_parent := by
    intro j hj
    have parent : ∀ i' l r f, abcTree[i']? = some (.internal f l r) →
        (i' = 3 ∧ l = 2 ∧ r = 1) ∨ (i' = 4 ∧ l = 0 ∧ r = 3) := by
      intro i' l r f h
      have hlt : i' < 5 := (List.getElem?_eq_some_iff.1 h).1
      interval_cases i' <;> simp_all [abcTree]
    interval_cases j
    · exact ⟨4, ⟨_, _, _, rfl, .inl rfl⟩, by rintro i' ⟨f, l, r, h, hc⟩; have := parent _ _ _ _ h; omega⟩
    · exact ⟨3, ⟨_, _, _, rfl, .inr rfl⟩, by rintro i' ⟨f, l, r, h, hc⟩; have := parent _ _ _ _ h; omega⟩
    · exact ⟨3, ⟨_, _, _, rfl, .inl rfl⟩, by rintro i' ⟨f, l, r, h, hc⟩; have := parent _ _ _ _ h; omega⟩
    · exact ⟨4, ⟨_, _, _, rfl, .inr rfl⟩, by rintro i' ⟨f, l, r, h, hc⟩; have := parent _ _ _ _ h; omega⟩

/-- The leaves of V-B1's tree in discovery order. -/
def abcLeaves : List LeafAt := [⟨0x41#8, 5#32, 1⟩, ⟨0x43#8, 2#32, 2⟩, ⟨0x42#8, 3#32, 2⟩]

theorem abc_leaves_under : LeavesUnder abcTree 4 0 abcLeaves :=
  .node (xs := [⟨0x41#8, 5#32, 1⟩]) rfl (.leaf rfl)
    (.node (xs := [⟨0x43#8, 2#32, 2⟩]) rfl (.leaf rfl) (.leaf rfl))

theorem abc_table_ok : TableOk abcTable 2#8 3#9 where
  max_pos := by decide
  size := by decide
  nsym := by decide
  counts := by decide
  distinct := by decide
  last := by decide
  kraft := .inl (by decide)

theorem x_table_ok : TableOk [[0x78#8]] 1#8 1#9 where
  max_pos := by decide
  size := by decide
  nsym := by decide
  counts := by decide
  distinct := by decide
  last := by decide
  kraft := .inr ⟨_, rfl⟩

theorem abc_codes_ok : CodesOk abcCodes := ⟨rfl, abc_table_ok, rfl, rfl⟩

theorem x_codes_ok : CodesOk xCodes := ⟨rfl, x_table_ok, rfl, rfl⟩

/-- The codewords of V-A1: 'A' = 0, 'B' = 11, 'C' = 10. -/
theorem test_codewords :
    abcCodes.codeword 0x41#8 = [false] ∧ abcCodes.codeword 0x42#8 = [true, true] ∧
      abcCodes.codeword 0x43#8 = [true, false] := by
  decide +kernel

theorem abc_code_lengths :
    codeLength abcCodes 0x41#8 = 1 ∧ codeLength abcCodes 0x42#8 = 2 ∧
      codeLength abcCodes 0x43#8 = 2 ∧ codeLength abcCodes 0x44#8 = 0 := by
  decide +kernel

theorem hasCode_of_length {s : State} {sym : Byte} (h : 0 < codeLength s sym) : HasCode s sym := by
  intro e
  simp [codeLength, e] at h

theorem abc_has_a : HasCode abcCodes 0x41#8 := hasCode_of_length (by simp [abc_code_lengths])
theorem abc_has_b : HasCode abcCodes 0x42#8 := hasCode_of_length (by simp [abc_code_lengths])
theorem abc_has_c : HasCode abcCodes 0x43#8 := hasCode_of_length (by simp [abc_code_lengths])

/-- No other symbol has a codeword (V-A1). -/
theorem abc_no_other :
    ∀ sym : Byte, fileGet abcCodes.codeLen sym ≠ 0#8 → sym = 0x41#8 ∨ sym = 0x42#8 ∨ sym = 0x43#8 := by
  decide +kernel

/-- The single bit 1 begins no codeword. -/
theorem abc_no_code_begins : NoCodeBegins abcCodes [true] := by
  intro sym h more
  obtain ⟨ha, hb, hc⟩ := test_codewords
  rcases abc_no_other sym h with rfl | rfl | rfl
  · simp [ha]
  · simp [hb]
  · simp [hc]


/-- A load in the phase SYMS is as LoadOk says when bounded checks on its counts and entries say so. -/
theorem loadOk_of_checks {ld : Loader} {c : Nat → Nat} {e : Nat → List Byte}
    (hc : ∀ len, ld.count len = c len) (he : ∀ len, ld.entry len = e len)
    (h : ld.phase = .syms ∧ (1 ≤ ld.idx.toNat ∧ ld.idx.toNat ≤ ld.n.toNat) ∧
      (ld.total.toNat = ((lengths 255).map c).sum ∧ ld.total.toNat ≤ 256) ∧ 0 < c ld.n.toNat ∧
      (∀ len < 256, ld.n.toNat < len → c len = 0) ∧
      (∀ len < 256, len < ld.idx.toNat → (e len).length = c len) ∧
      (0 < ld.left.toNat ∧ (e ld.idx.toNat).length + ld.left.toNat = c ld.idx.toNat) ∧
      (∀ len < 256, ld.idx.toNat < len → e len = []) ∧
      ld.pos.toNat = 1 + ld.n.toNat + ((lengths 255).flatMap e).length ∧
      ((lengths 255).flatMap e).Nodup ∧
      ∀ sym : Byte, ld.seen.getLsbD sym.toNat = true ↔ sym ∈ (lengths 255).flatMap e) :
    LoadOk ld := by
  obtain ⟨hp, hi, ht, hl, hn, hb, hh, ha, hq, hd, hs⟩ := h
  have hcs : loadedCount ld = ((lengths 255).map c).sum := by simp only [loadedCount, funext hc]
  have hes : loadedSymbols ld = (lengths 255).flatMap e := by simp only [loadedSymbols, funext he]
  simp only [← hc] at hl hn hb hh
  simp only [← he] at hb hh ha
  rw [← hcs] at ht
  rw [← hes] at hq hd hs
  exact
    { phaseN := by simp [hp]
      range := fun _ => hi
      total := ht.1
      total_le := ht.1 ▸ ht.2
      countsLater := by simp [hp]
      countsNoSymbols := by simp [hp]
      countsPos := by simp [hp]
      symsLast := fun _ => hl
      symsBeyond := fun _ len h => by
        by_cases hlen : len < 256
        · exact hn len hlen h
        · exact Loader.count_of_range (by omega)
      symsBefore := fun _ len h => hb len (by have := ld.idx.isLt; omega) h
      symsHere := fun _ => hh
      symsAfter := fun _ len h => by
        by_cases hlen : len < 256
        · exact ha len hlen h
        · exact Loader.entry_of_range (by omega)
      symsPos := fun _ => hq
      distinct := hd
      seen := hs }

/-- A load of a header with N = 2, with these counts and these symbols read so far. -/
def symsLoad (c1 c2 : Byte) (read : List (Nat × Byte)) (idx : Byte) (left : BitVec 9) : Loader :=
  { Loader.started with
    phase := .syms, n := 2#8, idx := idx, left := left
    counts := ((Loader.started.setCount 1 c1).setCount 2 c2).counts
    total := BitVec.ofNat 9 (c1.toNat + c2.toNat)
    lt := (read.foldl (fun ld p => ld.append p.1 p.2) Loader.started).lt
    seen := read.foldl (fun seen p => seen ||| (1#256 <<< p.2.toNat)) 0#256
    pos := BitVec.ofNat 10 (3 + read.length) }

theorem symsLoad_count (c1 c2 : Byte) (read : List (Nat × Byte)) (idx : Byte) (left : BitVec 9)
    (len : Nat) : (symsLoad c1 c2 read idx left).count len =
      if len = 2 then c2.toNat else if len = 1 then c1.toNat else 0 := by
  show ((Loader.started.setCount 1 c1).setCount 2 c2).count len = _
  rw [Loader.count_setCount _ (by decide), Loader.count_setCount _ (by decide)]
  congr 2
  exact Loader.idle_count len

theorem started_entry (len : Nat) : Loader.started.entry len = [] := by
  unfold Loader.entry Loader.started Loader.idle
  split <;> simp

/-- The load of V-H1's header before its first symbol. -/
def loadStart : Loader := symsLoad 1#8 2#8 [] 1#8 1#9

/-- After its first symbol. -/
def loadMiddle : Loader := symsLoad 1#8 2#8 [(1, 0x41#8)] 2#8 2#9

/-- Before its last symbol. -/
def loadEnd : Loader := symsLoad 1#8 2#8 [(1, 0x41#8), (2, 0x43#8)] 2#8 1#9

/-- The load of V-H4's third header before its last symbol: Kraft's test will fail. -/
def loadBad : Loader := symsLoad 1#8 1#8 [(1, 0x41#8)] 2#8 1#9

theorem loadStart_entry (len : Nat) : loadStart.entry len = [] := started_entry len

theorem loadMiddle_entry (len : Nat) :
    loadMiddle.entry len = if len = 1 then [0x41#8] else [] := by
  show (Loader.started.append 1 0x41#8).entry len = _
  rw [Loader.entry_append _ (by decide), started_entry]
  rfl

theorem loadEnd_entry (len : Nat) :
    loadEnd.entry len = if len = 2 then [0x43#8] else if len = 1 then [0x41#8] else [] := by
  show ((Loader.started.append 1 0x41#8).append 2 0x43#8).entry len = _
  rw [Loader.entry_append _ (by decide), Loader.entry_append _ (by decide), started_entry]
  by_cases h : len = 2
  · subst h; rfl
  · simp only [if_neg h]; rfl

theorem loadBad_entry (len : Nat) : loadBad.entry len = if len = 1 then [0x41#8] else [] :=
  loadMiddle_entry len

theorem loadStart_ok : LoadOk loadStart :=
  loadOk_of_checks (symsLoad_count _ _ _ _ _) loadStart_entry (by decide +kernel)

theorem loadMiddle_ok : LoadOk loadMiddle :=
  loadOk_of_checks (symsLoad_count _ _ _ _ _) loadMiddle_entry (by decide +kernel)

theorem loadEnd_ok : LoadOk loadEnd :=
  loadOk_of_checks (symsLoad_count _ _ _ _ _) loadEnd_entry (by decide +kernel)

theorem loadBad_ok : LoadOk loadBad :=
  loadOk_of_checks (symsLoad_count _ _ _ _ _) loadBad_entry (by decide +kernel)

/-- A state that holds a load. -/
def withLoad (ld : Loader) : State := { State.reset with ld := ld }

/-- The codes of V-A1 meet both invariants. -/
theorem abc_core_inv : CoreInv abcCodes where
  flags := by constructor <;> simp [abcCodes, codesState, tableState, Loader.idle]
  guards := by constructor <;> simp [abcCodes, codesState, tableState]
  bounds := by constructor <;> simp [abcCodes, codesState, tableState]

theorem abc_block_inv : BlockInv abcCodes where
  core := abc_core_inv
  tree := by simp [abcCodes, codesState, tableState]
  table _ := abc_table_ok
  codes _ := ⟨rfl, rfl⟩
  load := by simp [abcCodes, codesState, tableState, Loader.idle]

/-- A queue of n bytes. -/
def fullQueue (n : Nat) : List Byte := List.replicate n 0#8

@[simp] theorem fullQueue_length (n : Nat) : (fullQueue n).length = n := List.length_replicate

/-! ### Witnesses: states and operands that meet the hypotheses of each statement -/

/-- The three ways of being illegal, at the least and the greatest words of each, and none of them. -/
theorem witness_IllegalWord :
    IllegalWord 0x03000000#32 ∧ IllegalWord 0xFF000000#32 ∧ IllegalWord 0x00000100#32 ∧
      IllegalWord 0x30FFFF00#32 ∧ IllegalWord 0x00000001#32 ∧ IllegalWord 0x310000FF#32 ∧
      ¬ IllegalWord 0x410000FF#32 ∧ ¬ IllegalWord 0x00000000#32 := by
  refine ⟨?_, ?_, ?_, ?_, ?_, ?_, ?_, ?_⟩ <;> unfold IllegalWord <;> decide

/-- StepRunsTheDecodedCommand: a command due by its duration, and one with no access left to come. -/
theorem witness_StepRunsTheDecodedCommand :
    (∃ s : State, ∃ c, s.cmd = some c ∧ c.left = 0 ∧ s.bus.pending ≠ [] ∧
      decode c.word = .ok .build) ∧
    ∃ s : State, ∃ c, s.cmd = some c ∧ c.left = 1 ∧ s.bus.pending = [] ∧
      decode c.word = .ok .build :=
  ⟨⟨{ State.reset with
      cmd := some ⟨0x10000000#32, 0⟩, bus := { Bus.empty with pending := [.reset] } },
      _, rfl, rfl, by decide, by decide⟩,
    ⟨{ State.reset with cmd := some ⟨0x10000000#32, 1⟩ }, _, rfl, rfl, rfl, by decide⟩⟩

/-- StepServesTheHostOtherwise: its three cases. -/
theorem witness_StepServesTheHostOtherwise :
    (∃ s : State, ∃ e rest, s.cmd = none ∧ s.bus.pending = e :: rest) ∧
    (∃ s : State, ∃ w e rest, s.cmd = some ⟨w, 0 + 1⟩ ∧ s.bus.pending = e :: rest) ∧
    (State.reset.cmd = none ∧ State.reset.bus.pending = []) :=
  ⟨⟨{ State.reset with bus := { Bus.empty with pending := [.read .w32 0x00C#11] } },
      _, _, rfl, rfl⟩,
    ⟨{ State.reset with
        cmd := some ⟨0#32, 1⟩, bus := { Bus.empty with pending := [.read .w32 0x00C#11] } },
      _, _, _, rfl, rfl⟩, rfl, rfl⟩

/-- IllegalWordRaisesIllegalCommand: with ERR = 0 and with ERR = 1. -/
theorem witness_IllegalWordRaisesIllegalCommand :
    IllegalWord 0x03000000#32 ∧
      (State.reset.latch 0x03000000#32).cmd = some ⟨0x03000000#32, 0⟩ ∧
      (State.reset.latch 0x03000000#32).err = false ∧
      (errState.latch 0x03000000#32).cmd = some ⟨0x03000000#32, 0⟩ ∧
      (errState.latch 0x03000000#32).err = true :=
  ⟨witness_IllegalWord.1, rfl, rfl, rfl, rfl⟩

/-- OnlyAnIllegalAccessStops: both outcomes of a step occur. -/
theorem witness_OnlyAnIllegalAccessStops :
    step State.reset = .next State.reset ∧
      step { State.reset with bus := { Bus.empty with pending := [.read .w16 0x000#11] } } =
        .fault (.busError .w16 0x000#11) :=
  ⟨rfl, rfl⟩

/-- ErrorStateIgnoresEveryCommandButSreset. -/
theorem witness_ErrorStateIgnoresEveryCommandButSreset :
    errState.err = true ∧ errState.busy = false ∧ Instr.build ≠ .sreset ∧
      (0x01000001#32 : Word) ≠ 0x01000000#32 := by
  decide

/-- AnErrorDiscardsEveryOtherWrite: DERIVE from reset (V-D9). -/
theorem witness_AnErrorDiscardsEveryOtherWrite :
    State.reset.err = false ∧ ∃ t, exec .derive State.reset = .next t ∧ t.err = true :=
  ⟨rfl, _, rfl, rfl⟩

/-- OnlySresetOrResetLeavesTheErrorState: by SRESET (V-C2) and by the reset input. -/
theorem witness_OnlySresetOrResetLeavesTheErrorState :
    errState.err = true ∧
      (∃ t, step (errState.latch 0x01000000#32) = .next t ∧ t.err = false) ∧
      ∃ t, step { errState with bus := { Bus.empty with pending := [.reset] } } = .next t ∧
        t.err = false :=
  ⟨rfl, ⟨_, rfl, rfl⟩, _, rfl, rfl⟩

/-- SequenceErrorExactlyWhenThePreconditionFails: V-D9, and a command whose precondition holds. -/
theorem witness_SequenceErrorExactlyWhenThePreconditionFails :
    State.reset.err = false ∧ sequenceFails .derive State.reset = true ∧
      State.reset.cause = .none ∧ sequenceFails .derive abcTreeState = false ∧
      ∃ t, exec .derive State.reset = .next t ∧ t.cause = .sequenceError :=
  ⟨rfl, rfl, rfl, rfl, _, rfl, rfl⟩

/-- NopAndClrFreqWriteOnlyFreq. -/
theorem witness_NopAndClrFreqWriteOnlyFreq :
    abcFreq.err = false ∧ fileGet abcFreq.freq 0x41#8 = 5#32 := by
  decide +kernel

/-- BuildLeavesTheHuffmanTree: V-B1, and the last symbol alone at the largest frequency. -/
theorem witness_BuildLeavesTheHuffmanTree :
    abcFreq.err = false ∧ abcFreq.ld.active = false ∧ abcFreq.encAct = false ∧
      abcFreq.decAct = false ∧ fileGet abcFreq.freq 0x43#8 ≠ 0#32 ∧
      fileGet (freqState [(0xFF#8, 0xFFFFFFFF#32)]).freq 0xFF#8 ≠ 0#32 := by
  decide +kernel

/-- BuildOfAnEmptyFrequencyTable: reset (V-B7). -/
theorem witness_BuildOfAnEmptyFrequencyTable :
    State.reset.err = false ∧ State.reset.ld.active = false ∧ State.reset.encAct = false ∧
      State.reset.decAct = false ∧ ∀ sym, fileGet State.reset.freq sym = 0#32 :=
  ⟨rfl, rfl, rfl, rfl, fun _ => by simp⟩

/-- OneSymbolGetsTheCodewordZero: V-B5. -/
theorem witness_OneSymbolGetsTheCodewordZero :
    (freqState [(0x78#8, 5#32)]).err = false ∧ (freqState [(0x78#8, 5#32)]).ld.active = false ∧
      (freqState [(0x78#8, 5#32)]).encAct = false ∧ (freqState [(0x78#8, 5#32)]).decAct = false ∧
      policyRejects (freqState [(0x78#8, 5#32)]).policy [⟨0x78#8, 5#32, 1⟩] = false ∧
      policyRejects .noSavings [⟨0x78#8, 6#32, 1⟩] = false ∧
      ∀ x, fileGet (freqState [(0x78#8, 5#32)]).freq x ≠ 0#32 ↔ x = 0x78#8 := by
  decide +kernel

/-- DeriveFilesEveryLeafUnderItsDepth: V-D1. -/
theorem witness_DeriveFilesEveryLeafUnderItsDepth :
    abcTreeState.err = false ∧ abcTreeState.treeValid = true ∧ 2 ≤ abcTreeState.nleaf ∧
      TreeOk abcTreeState.tree abcTreeState.root abcTreeState.nleaf ∧
      LeavesUnder abcTreeState.tree abcTreeState.root 0 abcLeaves ∧
      (∀ leaf ∈ abcLeaves, leaf.len ≤ 255) ∧ policyRejects abcTreeState.policy abcLeaves = false ∧
      ∀ len, (symbolsAt abcLeaves len).length ≤ 255 :=
  ⟨rfl, rfl, by decide, abc_tree_ok, abc_leaves_under, by decide, by decide, fun len =>
    Nat.le_trans (by rw [symbolsAt, List.length_map]; exact List.length_filter_le _ _)
      (by decide : abcLeaves.length ≤ 255)⟩

/-- A tree that is a chain of 256 internal nodes over one shared leaf: its depth is 256. -/
def chainState : State :=
  treeState (.leaf 0#8 1#32 :: (List.range 256).map fun i => .internal 0#40 0 i) 256 2

/-- A tree whose 256 paths of length 8 end in one shared leaf. -/
def evenState : State :=
  treeState (.leaf 0#8 1#32 :: (List.range 8).map fun i => .internal 0#40 i i) 8 2

/-- DeriveReportsTheFirstErrorThatApplies, at each error: no tree; depth 256; ALL8 with 256 symbols of
length 8; OFF with the same symbols, and no shorter length overfull; the least and the greatest L_MAX
at which V-D6's tree of depth 4 is too long and is not. -/
theorem witness_DeriveReportsTheFirstErrorThatApplies :
    (State.reset.err = false ∧ State.reset.treeValid = false) ∧
      (chainState.treeValid = true ∧ maxLength chainState.treeLeaves > 255) ∧
      (evenState.treeValid = true ∧ maxLength evenState.treeLeaves ≤ 255 ∧
        policyRejects evenState.policy evenState.treeLeaves = true) ∧
      (policyRejects .off evenState.treeLeaves = false ∧
        (symbolsAt evenState.treeLeaves 8).length > 255 ∧
        ∀ k < 8, 1 ≤ k → (symbolsAt evenState.treeLeaves k).length ≤ 255) ∧
      (deepTreeState.err = false ∧ deepTreeState.treeValid = true ∧
        (Config.reducedBuild 3).legal = true ∧ (Config.reducedBuild 4).legal = true ∧
        maxLength deepTreeState.treeLeaves > (Config.reducedBuild 3).lMax ∧
        maxLength deepTreeState.treeLeaves ≤ (Config.reducedBuild 4).lMax) := by
  decide +kernel

/-- PolicyRejectsByContainerSize: NO_SAVINGS accepts V-B1's leaves (9 bytes for 10) and rejects "ab". -/
theorem witness_PolicyRejectsByContainerSize :
    (∀ leaf ∈ abcLeaves, 1 ≤ leaf.len) ∧ policyRejects .noSavings abcLeaves = false ∧
      policyRejects .noSavings [⟨0x61#8, 1#32, 1⟩, ⟨0x62#8, 1#32, 1⟩] = true := by
  decide

/-- DerivedTablesSatisfyKraftsEquality: V-D1. -/
theorem witness_DerivedTablesSatisfyKraftsEquality :
    abcTreeState.treeValid = true ∧
      TreeOk abcTreeState.tree abcTreeState.root abcTreeState.nleaf ∧ 2 ≤ abcTreeState.nleaf ∧
      ∃ t, exec .derive abcTreeState = .next t ∧ t.err = false :=
  ⟨rfl, abc_tree_ok, by decide, _, rfl, rfl⟩

/-- AssignGivesTheCanonicalCodes: V-A1, with symbols of length 1 and LT_MAX, and one outside. -/
theorem witness_AssignGivesTheCanonicalCodes :
    (tableState abcTable).err = false ∧ (tableState abcTable).ld.active = false ∧
      (tableState abcTable).ltValid = true ∧
      TableOk (tableState abcTable).lt (tableState abcTable).ltMax (tableState abcTable).ltNsym ∧
      (ltEntry abcTable 1)[0]? = some 0x41#8 ∧ (ltEntry abcTable 2)[1]? = some 0x42#8 ∧
      0x44#8 ∉ abcTable.flatten :=
  ⟨rfl, rfl, rfl, abc_table_ok, rfl, rfl, by decide⟩

/-- AssignDuringALoadReportsTruncation: before the first byte, and in the SYMS phase (V-A7). -/
theorem witness_AssignDuringALoadReportsTruncation :
    (loadState []).err = false ∧ (loadState []).ld.active = true ∧
      (loadState [0x02#8, 0x01#8, 0x02#8, 0x41#8]).ld.active = true := by
  decide +kernel

/-- CodewordsArePrefixFree and DecodeViewInvertsTheEncodeView. -/
theorem witness_CodewordsArePrefixFree :
    CodesOk abcCodes ∧ 0x41#8 ≠ 0x42#8 ∧ HasCode abcCodes 0x41#8 ∧ HasCode abcCodes 0x42#8 :=
  ⟨abc_codes_ok, by decide, abc_has_a, abc_has_b⟩

/-- EncAppendsTheCodeword: with a full queue and no whole byte to push, and filling the last place. -/
theorem witness_EncAppendsTheCodeword :
    (encState [] (fullQueue 1024)).err = false ∧
      (encState [] (fullQueue 1024)).codesValid = true ∧
      HasCode (encState [] (fullQueue 1024)) 0x41#8 ∧
      (encState [] (fullQueue 1024)).outq.length +
        ((encState [] (fullQueue 1024)).encAcc.length + codeLength abcCodes 0x41#8) / 8
          ≤ 1024 ∧
      (encState (zeroBits 7) (fullQueue 1023)).outq.length +
        ((encState (zeroBits 7) (fullQueue 1023)).encAcc.length +
          codeLength abcCodes 0x42#8) / 8 = 1024 := by
  refine ⟨rfl, rfl, abc_has_a, ?_, ?_⟩ <;> simp [encState, abc_code_lengths]

/-- EncErrors: a symbol with no codeword (V-E6), and one byte too many (V-E8). -/
theorem witness_EncErrors :
    abcCodes.err = false ∧ abcCodes.codesValid = true ∧ ¬ HasCode abcCodes 0x44#8 ∧
      HasCode (encState (zeroBits 7) (fullQueue 1024)) 0x41#8 ∧
      (encState (zeroBits 7) (fullQueue 1024)).outq.length +
        ((encState (zeroBits 7) (fullQueue 1024)).encAcc.length +
          codeLength abcCodes 0x41#8) / 8 > 1024 := by
  refine ⟨rfl, rfl, fun h => ?_, abc_has_a, ?_⟩
  · rcases abc_no_other _ h with h | h | h <;> exact absurd h (by decide)
  · simp [encState, abc_code_lengths]

/-- EncFlushPadsAndPushesTheTrailer: nothing pending with one place left, 7 bits with two places, and
each with one place less. -/
theorem witness_EncFlushPadsAndPushesTheTrailer :
    (encState [] (fullQueue 1023)).err = false ∧
      (encState [] (fullQueue 1023)).codesValid = true ∧
      (encState [] (fullQueue 1023)).encAcc = [] ∧
      (encState [] (fullQueue 1023)).outq.length + 1 ≤ 1024 ∧
      (encState (zeroBits 7) (fullQueue 1022)).encAcc.length ≤ 7 ∧
      (encState (zeroBits 7) (fullQueue 1022)).encAcc ≠ [] ∧
      (encState (zeroBits 7) (fullQueue 1022)).outq.length + 2 ≤ 1024 ∧
      (encState [] (fullQueue 1024)).outq.length + 1 > 1024 ∧
      (encState (zeroBits 7) (fullQueue 1023)).outq.length + 2 > 1024 := by
  refine ⟨rfl, rfl, rfl, ?_, ?_, ?_, ?_, ?_, ?_⟩ <;> simp [encState, zeroBits]

/-- AnEncodeSessionPacksTheCodewordsInOrder: the empty session (V-E5) and "AB". -/
theorem witness_AnEncodeSessionPacksTheCodewordsInOrder :
    abcCodes.err = false ∧ abcCodes.codesValid = true ∧ abcCodes.encAcc = [] ∧
      (∀ x ∈ ([0x41#8, 0x42#8] : List Byte), HasCode abcCodes x) ∧
      3 = (([0x41#8, 0x42#8] : List Byte).map (codeLength abcCodes)).sum ∧
      0 = (([] : List Byte).map (codeLength abcCodes)).sum ∧
      abcCodes.outq.length + (3 + 7) / 8 + 1 ≤ 1024 := by
  refine ⟨rfl, rfl, rfl, ?_, ?_, rfl, by decide⟩
  · intro x hx
    simp only [List.mem_cons, List.not_mem_nil, or_false] at hx
    rcases hx with rfl | rfl
    · exact abc_has_a
    · exact abc_has_b
  · simp [abc_code_lengths]

/-- DecFeedDecodesTheHeldByte: no byte held, and 07 held (V-U1), with room and with one place too
few. -/
theorem witness_DecFeedDecodesTheHeldByte :
    CodesOk (decState [] 0x07#8) ∧ (decState [] 0x07#8).err = false ∧
      (abcCodes.holdV = false ∧ abcCodes.outq.length ≤ 1024) ∧
      (decState [] 0x07#8).holdV = true ∧
      (decState [] 0x07#8).dbits ++ byteBits (decState [] 0x07#8).hold =
        ([0x41#8, 0x41#8, 0x41#8, 0x41#8, 0x41#8, 0x42#8] : List Byte).flatMap
          (decState [] 0x07#8).codeword ++ [true] ∧
      NoCodeBegins (decState [] 0x07#8) [true] ∧
      [true].length < (decState [] 0x07#8).ltMax.toNat ∧
      (decState [] 0x07#8).outq.length + 6 ≤ 1024 ∧
      CodesOk { decState [] 0x07#8 with outq := fullQueue 1019 } ∧
      (fullQueue 1019).length + 6 > 1024 := by
  refine ⟨abc_codes_ok, rfl, ⟨rfl, by decide⟩, rfl, ?_, abc_no_code_begins, by decide, by decide,
    abc_codes_ok, by simp⟩
  show _ = List.flatMap abcCodes.codeword _ ++ _
  simp only [List.flatMap_cons, List.flatMap_nil, test_codewords]
  decide

/-- DecFinishDecodesTheTail: no byte held with 0, and F4 held with padding 1 (V-U1), with room and with
one place too few. -/
theorem witness_DecFinishDecodesTheTail :
    CodesOk abcCodes ∧ abcCodes.holdV = false ∧ (0#8).toNat ≤ 7 ∧
      CodesOk (decState [true] 0xF4#8) ∧ (decState [true] 0xF4#8).err = false ∧
      (decState [true] 0xF4#8).dbits ++
          (byteBits (decState [true] 0xF4#8).hold).take (8 - (1#8).toNat) =
        ([0x42#8, 0x42#8, 0x43#8, 0x43#8] : List Byte).flatMap
          (decState [true] 0xF4#8).codeword ∧
      (decState [true] 0xF4#8).outq.length + 4 ≤ 1024 ∧
      CodesOk { decState [true] 0xF4#8 with outq := fullQueue 1021 } ∧
      (fullQueue 1021).length + 4 > 1024 := by
  refine ⟨abc_codes_ok, rfl, by decide, abc_codes_ok, rfl, ?_, by decide, abc_codes_ok, by simp⟩
  show _ = List.flatMap abcCodes.codeword _
  simp only [List.flatMap_cons, List.flatMap_nil, test_codewords]
  decide

/-- DecFinishChecksTheTrailerFirst: 8, the least value too large, and 7 with no byte held. -/
theorem witness_DecFinishChecksTheTrailerFirst :
    abcCodes.err = false ∧ abcCodes.codesValid = true ∧ (8#8).toNat > 7 ∧ (7#8).toNat ≤ 7 ∧
      7#8 ≠ 0#8 ∧ abcCodes.holdV = false :=
  ⟨rfl, rfl, by decide, by decide, by decide, rfl⟩

/-- ACutCodewordIsInvalidData: V-U4. -/
theorem witness_ACutCodewordIsInvalidData :
    (decState [] 0x07#8).err = false ∧ CodesOk (decState [] 0x07#8) ∧
      (decState [] 0x07#8).holdV = true ∧
      (decState [] 0x07#8).dbits ++
          (byteBits (decState [] 0x07#8).hold).take (8 - (0#8).toNat) =
        ([0x41#8, 0x41#8, 0x41#8, 0x41#8, 0x41#8, 0x42#8] : List Byte).flatMap
          (decState [] 0x07#8).codeword ++ [true] ∧
      [true].length < (decState [] 0x07#8).ltMax.toNat ∧
      NoCodeBegins (decState [] 0x07#8) [true] := by
  refine ⟨rfl, abc_codes_ok, rfl, ?_, by decide, abc_no_code_begins⟩
  show _ = List.flatMap abcCodes.codeword _ ++ _
  simp only [List.flatMap_cons, List.flatMap_nil, test_codewords]
  decide

/-- xCodes with a byte held. -/
def xHeld (hold : Byte) : State := { xCodes with decAct := true, hold := hold, holdV := true }

/-- DecodingFailsOnlyForTheOneSymbolTable: both kinds of table; a command that raises INVALID_DATA under
Kraft's equality (V-U4); a 1 bit after one 0 and at the front (V-U6). -/
theorem witness_DecodingFailsOnlyForTheOneSymbolTable :
    (CodesOk (decState [] 0x07#8) ∧ kraftSum (decState [] 0x07#8).lt
      (decState [] 0x07#8).ltMax.toNat = 2 ^ (decState [] 0x07#8).ltMax.toNat ∧
      (after (.decFinish 0x00#8) (decState [] 0x07#8)).map (fun t => (t.err, t.cause)) =
        some (true, .invalidData)) ∧
    (CodesOk (xHeld 0x40#8) ∧ (xHeld 0x40#8).lt = [[0x78#8]] ∧ (xHeld 0x40#8).err = false ∧
      (xHeld 0x40#8).holdV = true ∧ (xHeld 0x40#8).dbits ++ byteBits (xHeld 0x40#8).hold =
        List.replicate 1 false ++ true :: List.replicate 6 false) ∧
    (CodesOk (xHeld 0x80#8) ∧ (7#8).toNat ≤ 7 ∧ (xHeld 0x80#8).holdV = true ∧
      (xHeld 0x80#8).dbits ++ (byteBits (xHeld 0x80#8).hold).take (8 - (7#8).toNat) =
        List.replicate 0 false ++ true :: []) :=
  ⟨⟨abc_codes_ok, by decide, by decide +kernel⟩,
    ⟨x_codes_ok, rfl, rfl, rfl, by decide⟩, x_codes_ok, by decide, rfl, by decide⟩

/-- DecodingInvertsEncoding: "AB". -/
theorem witness_DecodingInvertsEncoding :
    abcCodes.err = false ∧ CodesOk abcCodes ∧ abcCodes.encAct = false ∧ abcCodes.encAcc = [] ∧
      abcCodes.decAct = false ∧ abcCodes.dbits = [] ∧ abcCodes.hold = 0#8 ∧
      abcCodes.holdV = false ∧ abcCodes.outq = [] ∧
      (∀ x ∈ ([0x41#8, 0x42#8] : List Byte), HasCode abcCodes x) ∧
      ([0x41#8, 0x42#8] : List Byte).length ≤ 1024 ∧
      ((([0x41#8, 0x42#8] : List Byte).map (codeLength abcCodes)).sum + 7) / 8 + 1 ≤ 1024 := by
  refine ⟨rfl, abc_codes_ok, rfl, rfl, rfl, rfl, rfl, rfl, rfl,
    witness_AnEncodeSessionPacksTheCodewordsInOrder.2.2.2.1, by decide, ?_⟩
  simp [abc_code_lengths]

/-- HdrEmitPushesTheHeader: with exactly enough room, and with one place too few. -/
theorem witness_HdrEmitPushesTheHeader :
    (tableState abcTable).err = false ∧ (tableState abcTable).ltValid = true ∧
      TableOk (tableState abcTable).lt (tableState abcTable).ltMax (tableState abcTable).ltNsym ∧
      (fullQueue 1018).length + 1 + (tableState abcTable).ltMax.toNat +
        (tableState abcTable).ltNsym.toNat = 1024 ∧
      (fullQueue 1019).length + 1 + (tableState abcTable).ltMax.toNat +
        (tableState abcTable).ltNsym.toNat > 1024 :=
  ⟨rfl, rfl, abc_table_ok, by simp [tableState, abcTable], by simp [tableState, abcTable]⟩

/-- HdrBeginStartsALoad: with a load in progress (V-H6), and with each session open (V-H8). -/
theorem witness_HdrBeginStartsALoad :
    (loadState [0x02#8, 0x01#8]).err = false ∧ (loadState [0x02#8, 0x01#8]).encAct = false ∧
      (loadState [0x02#8, 0x01#8]).decAct = false ∧
      (loadState [0x02#8, 0x01#8]).ld.active = true ∧ (encState [] []).err = false ∧
      (encState [] []).encAct = true ∧ (decState [] 0x07#8).decAct = true := by
  decide +kernel

/-- TheFirstHeaderByteIsN: 0, and the largest byte; in a build with L_MAX = 8, 9 (V-H4) and 8. -/
theorem witness_TheFirstHeaderByteIsN :
    (loadState []).err = false ∧ (loadState []).ld.active = true ∧ (loadState []).ld.phase = .n ∧
      (0xFF#8 : Byte) ≠ 0#8 ∧ (9#8).toNat > (Config.reducedBuild 8).lMax ∧ (8#8 : Byte) ≠ 0#8 ∧
      (8#8).toNat ≤ (Config.reducedBuild 8).lMax := by
  decide +kernel

/-- A load of a header in the phase COUNTS: N, the length whose count comes, the total so far. -/
def countsLoad (n idx : Byte) (total : BitVec 9) : State :=
  withLoad { Loader.started with phase := .counts, n := n, idx := idx, total := total }

/-- CountBytesFillTheCounts, each clause: total 257 (V-H4) and 256, a length below N, and at N a count
of 0 (V-H4) and of 2. -/
theorem witness_CountBytesFillTheCounts :
    (∀ s ∈ [countsLoad 3#8 3#8 256#9, countsLoad 3#8 2#8 1#9, countsLoad 2#8 2#8 1#9],
      s.err = false ∧ s.ld.active = true ∧ s.ld.phase = .counts ∧ 1 ≤ s.ld.idx.toNat ∧
        s.ld.idx.toNat ≤ s.ld.n.toNat) ∧
    (countsLoad 3#8 3#8 256#9).ld.total.toNat + (1#8).toNat > 256 ∧
    ((countsLoad 3#8 2#8 1#9).ld.total.toNat + (0xFF#8).toNat ≤ 256 ∧
      (countsLoad 3#8 2#8 1#9).ld.idx.toNat < (countsLoad 3#8 2#8 1#9).ld.n.toNat) ∧
    ((countsLoad 2#8 2#8 1#9).ld.total.toNat + (2#8).toNat ≤ 256 ∧
      (countsLoad 2#8 2#8 1#9).ld.idx = (countsLoad 2#8 2#8 1#9).ld.n ∧ (2#8 : Byte) ≠ 0#8) := by
  decide +kernel

/-- SymbolBytesFillTheTable, each clause: a repeated symbol; the last symbol of a length below N; a
symbol with more of its length to come; the last symbol of all, with Kraft's test passing and
failing. -/
theorem witness_SymbolBytesFillTheTable :
    (∀ ld ∈ [loadStart, loadMiddle, loadEnd, loadBad], (withLoad ld).err = false ∧
      (withLoad ld).ld.active = true ∧ (withLoad ld).ld.phase = .syms ∧ LoadOk (withLoad ld).ld) ∧
    0x41#8 ∈ loadedSymbols loadMiddle ∧
    (0x41#8 ∉ loadedSymbols loadStart ∧ loadStart.left.toNat = 1 ∧
      loadStart.idx.toNat < loadStart.n.toNat) ∧
    (0x43#8 ∉ loadedSymbols loadMiddle ∧ 1 < loadMiddle.left.toNat) ∧
    (0x42#8 ∉ loadedSymbols loadEnd ∧ loadEnd.left.toNat = 1 ∧ loadEnd.idx = loadEnd.n ∧
      kraftOk loadEnd.count loadEnd.n.toNat = true) ∧
    (0x42#8 ∉ loadedSymbols loadBad ∧ loadBad.left.toNat = 1 ∧ loadBad.idx = loadBad.n ∧
      kraftOk loadBad.count loadBad.n.toNat = false) := by
  refine ⟨?_, ?_⟩
  · intro ld h
    simp only [List.mem_cons, List.not_mem_nil, or_false] at h
    rcases h with rfl | rfl | rfl | rfl
    · exact ⟨rfl, rfl, rfl, loadStart_ok⟩
    · exact ⟨rfl, rfl, rfl, loadMiddle_ok⟩
    · exact ⟨rfl, rfl, rfl, loadEnd_ok⟩
    · exact ⟨rfl, rfl, rfl, loadBad_ok⟩
  · simp only [loadedSymbols, funext loadStart_entry, funext loadMiddle_entry,
      funext loadEnd_entry, funext loadBad_entry]
    decide +kernel

/-- HeaderRoundTripRebuildsTheTable: a table of several symbols, the one-symbol table (V-H5), loaded
in the state after reset. -/
theorem witness_HeaderRoundTripRebuildsTheTable :
    (∀ s ∈ [tableState abcTable, tableState [[0x78#8]]], s.err = false ∧ s.ltValid = true ∧
      TableOk s.lt s.ltMax s.ltNsym ∧
      ∃ t bytes, exec .hdrEmit s = .next t ∧ t.err = false ∧ t.outq = s.outq ++ bytes) ∧
    State.reset.err = false ∧ State.reset.encAct = false ∧ State.reset.decAct = false := by
  refine ⟨?_, rfl, rfl, rfl⟩
  intro s h
  simp only [List.mem_cons, List.not_mem_nil, or_false] at h
  rcases h with rfl | rfl
  · exact ⟨rfl, rfl, abc_table_ok, _, _, rfl, rfl, rfl⟩
  · exact ⟨rfl, rfl, x_table_ok, _, _, rfl, rfl, rfl⟩

/-- CommandsOnlyAppendToTheQueue and WhatEachCommandMayWrite: a command that appends, in a queue within
its capacity. -/
theorem witness_CommandsOnlyAppendToTheQueue :
    Instr.encFlush ≠ .sreset ∧ abcCodes.outq.length ≤ 1024 ∧
      ∃ t, exec .encFlush abcCodes = .next t ∧ t.outq = [0#8] :=
  ⟨by decide, by decide, _, rfl, rfl⟩

/-- MostBytesACommandPushes. -/
theorem witness_MostBytesACommandPushes :
    BlockInv abcCodes ∧ Instr.encFlush ≠ .sreset ∧ ∃ t, exec .encFlush abcCodes = .next t :=
  ⟨abc_block_inv, by decide, _, rfl⟩

/-- OutDataReadPopsTheQueue: a queue with bytes, and an empty one. -/
theorem witness_OutDataReadPopsTheQueue :
    ({ State.reset with outq := [0x02#8] }).busy = false ∧
      ({ State.reset with outq := [0x02#8] }).outq = 0x02#8 :: [] ∧ State.reset.outq = [] :=
  ⟨rfl, rfl, rfl⟩

/-- OtherReadsHaveNoSideEffect: STATUS, and the last register of the window. -/
theorem witness_OtherReadsHaveNoSideEffect :
    State.reset.busy = false ∧ (0x00C#11 : Offset).toNat % 4 = 0 ∧ (0x00C#11 : Offset) ≠ 0x01C#11 ∧
      (0x7FC#11 : Offset).toNat % 4 = 0 ∧ (0x7FC#11 : Offset) ≠ 0x01C#11 := by
  decide

/-- RegistersReadTheirFields: a queue at its capacity, and the least and the greatest L_MAX. -/
theorem witness_RegistersReadTheirFields :
    ({ State.reset with outq := fullQueue 1024 }).outq.length ≤ 1024 ∧
      (Config.reducedBuild 1).legal = true ∧ (Config.reducedBuild 1).outqDepth < 2 ^ 16 ∧
      Config.hardware.legal = true ∧ Config.hardware.outqDepth < 2 ^ 16 :=
  ⟨by simp, by decide, by decide, by decide, by decide⟩

/-- BitPosFields: both buffers empty, and both full. -/
theorem witness_BitPosFields :
    State.reset.encAcc.length ≤ 7 ∧ State.reset.dbits.length ≤ 262 ∧
      ({ State.reset with encAcc := zeroBits 7, dbits := zeroBits 262 }).encAcc.length ≤ 7 ∧
      ({ State.reset with encAcc := zeroBits 7, dbits := zeroBits 262 }).dbits.length ≤ 262 := by
  simp

/-- CodeWordsShowTheSelectedCodeword: the last bit of the last word. -/
theorem witness_CodeWordsShowTheSelectedCodeword : (7 : Nat) < 8 ∧ (31 : Nat) < 32 := by decide

/-- CtrlWritesPolicyAndInterruptEnable: each value of the two bits. -/
theorem witness_CtrlWritesPolicyAndInterruptEnable :
    State.reset.busy = false ∧ (0xFFFFFFFC#32 : Word).toNat % 4 = 0 ∧
      (0x00000001#32 : Word).toNat % 4 = 1 ∧ (0x00000102#32 : Word).toNat % 4 = 2 ∧
      (0xFFFFFFFF#32 : Word).toNat % 4 = 3 := by
  decide

/-- FreqAndCodeSelReadBackWhatIsWritten. -/
theorem witness_FreqAndCodeSelReadBackWhatIsWritten :
    State.reset.busy = false ∧ (0xFF#8 : Byte) ≠ 0x00#8 := by decide

/-- ReadOnlyAndReservedOffsetsIgnoreWrites: ID, CODE_WORD7, the first and the last reserved offset. -/
theorem witness_ReadOnlyAndReservedOffsetsIgnoreWrites :
    ∀ off ∈ ([0x000#11, 0x054#11, 0x058#11, 0x3FC#11] : List Offset),
      off.toNat % 4 = 0 ∧ off.toNat < 0x400 ∧ off ≠ 0x008#11 ∧ off ≠ 0x018#11 ∧ off ≠ 0x030#11 := by
  decide

/-- IllegalAccessesAreBusErrors: a read and a write, of another width and at a misaligned offset, and
legal ones. -/
theorem witness_IllegalAccessesAreBusErrors :
    (∃ s : State, ∃ rest, s.cmd = none ∧ s.bus.pending = .read .w8 0x000#11 :: rest ∧
      Width.w8 ≠ .w32) ∧
    (∃ s : State, ∃ rest, s.cmd = none ∧ s.bus.pending = .write .w32 0x7FF#11 0#32 :: rest ∧
      (0x7FF#11 : Offset).toNat % 4 ≠ 0) ∧
    ∃ s : State, ∃ rest, s.cmd = none ∧ s.bus.pending = .write .w32 0x7FC#11 0#32 :: rest ∧
      (0x7FC#11 : Offset).toNat % 4 = 0 :=
  ⟨⟨{ State.reset with bus := { Bus.empty with pending := [.read .w8 0x000#11] } },
      _, rfl, rfl, by decide⟩,
    ⟨{ State.reset with bus := { Bus.empty with pending := [.write .w32 0x7FF#11 0#32] } },
      _, rfl, rfl, by decide⟩,
    ⟨{ State.reset with bus := { Bus.empty with pending := [.write .w32 0x7FC#11 0#32] } },
      _, rfl, rfl, by decide⟩⟩

/-- CmdWriteIssuesTheCommand: any word with ERR = 0, and SRESET with ERR = 1. -/
theorem witness_CmdWriteIssuesTheCommand :
    State.reset.busy = false ∧ State.reset.err = false ∧ errState.busy = false ∧
      errState.err = true := by
  decide

/-- BusyDropsAccesses: a latched command, and the registers next to the ones that read as always. -/
theorem witness_BusyDropsAccesses :
    (State.reset.latch 0x10000000#32).busy = true ∧
      ∀ off ∈ ([0x010#11, 0x018#11, 0x020#11, 0x7FC#11] : List Offset), off.toNat % 4 = 0 ∧
        off ∉ ([0x000#11, 0x004#11, 0x008#11, 0x00C#11, 0x01C#11] : List Offset) := by
  decide

/-- ResetInputRestoresEverything: with no command, and with one in execution. -/
theorem witness_ResetInputRestoresEverything :
    (∃ s : State, ∃ rest, s.bus.pending = .reset :: rest ∧ s.cmd = none) ∧
    ∃ s : State, ∃ rest w, s.bus.pending = .reset :: rest ∧ s.cmd = some ⟨w, 0 + 1⟩ :=
  ⟨⟨{ State.reset with bus := { Bus.empty with pending := [.reset] } }, _, rfl, rfl⟩,
    ⟨{ State.reset with
        cmd := some ⟨0x10000000#32, 1⟩, bus := { Bus.empty with pending := [.reset] } },
      _, _, rfl, rfl⟩⟩

/-- StepKeepsTheCoreInvariant: a state other than reset, and a step of it. -/
theorem witness_StepKeepsTheCoreInvariant :
    CoreInv abcCodes ∧ ∃ t, step abcCodes = .next t :=
  ⟨abc_core_inv, _, rfl⟩

/-- StepKeepsTheBlockInvariant: a state other than reset, and a step of it. -/
theorem witness_StepKeepsTheBlockInvariant :
    BlockInv abcCodes ∧ ∃ t, step abcCodes = .next t :=
  ⟨abc_block_inv, _, rfl⟩

end Sys2Proof.Tests
end

/-! PROOFS. The invariants every step keeps, by what a step can do: the host's accesses, a reset, an
error taken, and a command that leaves its result. -/

namespace Sys2Proof.Machine

/-! ### What every invariant of the block needs of a step -/

theorem of_flag_false {b : Bool} {P : Prop} (h : b = false) (ht : b = true) : P :=
  (Bool.eq_false_iff.1 h ht).elim

/-- The block's tables, sessions, loader and error registers are the same in both states, and OUTQ
is no longer in the second: all that an invariant of the block reads. The rest is CTRL, FREQ,
CODE_SEL, the latch and the host's side of the bus. -/
def BlockKept (s t : State) : Prop :=
  t = { s with
    policy := t.policy, ie := t.ie, freq := t.freq, codeSel := t.codeSel, cmd := t.cmd
    outq := t.outq, bus := t.bus } ∧ t.outq.length ≤ s.outq.length

theorem blockKept_takeEvent (s : State) (rest : List BusEvent) : BlockKept s (s.takeEvent rest) :=
  ⟨rfl, le_refl _⟩

theorem blockKept_clearLatch (s : State) : BlockKept s { s with cmd := none } := ⟨rfl, le_refl _⟩

theorem blockKept_busRead (s : State) (off : Offset) (p : Params) :
    BlockKept s (s.busRead off p) := by
  obtain ⟨_, _, q, h, hq⟩ := busRead_cases s off p
  rw [h]
  refine ⟨rfl, ?_⟩
  obtain rfl | ⟨-, rfl⟩ := hq
  · exact le_refl _
  · simp

theorem blockKept_issue (s : State) (w : Word) : BlockKept s (s.issue w) := by
  obtain ⟨-, -, h⟩ | ⟨-, h⟩ := issue_cases s w <;> rw [h] <;> exact ⟨rfl, le_refl _⟩

theorem blockKept_busWrite (s : State) (off : Offset) (v : Word) :
    BlockKept s (s.busWrite off v) := by
  obtain h | ⟨-, -, h⟩ | ⟨-, -, h⟩ | ⟨-, -, h⟩ | ⟨_, -, -, h⟩ := busWrite_cases s off v
  case inr.inr.inl => rw [h]; exact blockKept_issue s v
  all_goals rw [h]; exact ⟨rfl, le_refl _⟩

theorem blockKept_reset_hardReset (s : State) : BlockKept .reset s.hardReset := ⟨rfl, le_refl _⟩

theorem blockKept_reset_softReset (s : State) : BlockKept .reset s.softReset := ⟨rfl, le_refl _⟩

/-! ### Every error has a cause (R300) -/

/-- Whatever error this result raises has a cause. -/
def RaisesACause {α : Type} (r : Except Raise α) : Prop := ∀ e, r = .error e → e.cause ≠ .none

namespace RaisesACause

variable {α : Type}

theorem ok (a : α) : RaisesACause (.ok a : Except Raise α) := nofun

theorem error {e : Raise} (h : e.cause ≠ .none) : RaisesACause (.error e : Except Raise α) := by
  rintro _ ⟨⟩
  exact h

theorem ite {c : Prop} [Decidable c] {a b : Except Raise α} (ha : RaisesACause a)
    (hb : RaisesACause b) : RaisesACause (if c then a else b) := by
  split
  · exact ha
  · exact hb

theorem pushIfRoom (p : Params) (s : State) (out : List Byte) :
    RaisesACause (pushIfRoom p s out) := ite (error nofun) (ok _)

theorem deriveResult (p : Params) (s : State) : RaisesACause (deriveResult p s) := by
  refine ite (error nofun) (ite (error nofun) (ite (error nofun) ?_))
  split
  · exact error nofun
  · exact ok _

theorem loadByte (lMax : Nat) (ld : Loader) (b : Byte) : RaisesACause (loadByte lMax ld b) := by
  unfold Machine.loadByte
  split
  · exact ite (error nofun) (ok _)
  · exact ite (error nofun) (ite (ok _) (ite (error nofun) (ok _)))
  · exact ite (error nofun) (ite (ok _) (ite (ok _) (ite (ok _) (error nofun))))

theorem hdrByteResult (p : Params) (b : Byte) (s : State) :
    RaisesACause (hdrByteResult p b s) := by
  refine ite (error nofun) ?_
  split
  · next r h => exact error (loadByte _ _ _ r h)
  · exact ok _

theorem decodeBits (s : State) (bits : BitSeq) : RaisesACause (s.decodeBits bits) := by
  unfold State.decodeBits
  split
  · exact error nofun
  · exact ok _

theorem feedBits (s : State) : RaisesACause s.feedBits := ite (decodeBits s _) (ok _)

theorem decFeedResult (p : Params) (b : Byte) (s : State) :
    RaisesACause (decFeedResult p b s) := by
  refine ite (error nofun) ?_
  split
  · next r h => exact error (feedBits s r h)
  · exact pushIfRoom _ _ _

theorem decFinishResult (p : Params) (pad : Byte) (s : State) :
    RaisesACause (decFinishResult p pad s) := by
  refine ite (error nofun) (ite (error nofun) (ite (error nofun) ?_))
  split
  · next r h => exact error (decodeBits s _ r h)
  · exact ite (error nofun) (pushIfRoom _ _ _)

/-- Whatever error a command raises has a cause. -/
theorem commandResult (p : Params) (i : Instr) (s : State) :
    RaisesACause (commandResult p i s) := by
  cases i with
  | nop => exact ok _
  | sreset => exact ok _
  | clrFreq => exact ok _
  | build => exact ite (error nofun) (ite (error nofun) (ok _))
  | derive => exact deriveResult p s
  | assign => exact ite (error nofun) (ite (error nofun) (ok _))
  | hdrEmit => exact ite (error nofun) (pushIfRoom _ _ _)
  | hdrBegin => exact ite (error nofun) (ok _)
  | hdrByte b => exact hdrByteResult p b s
  | enc sym => exact ite (error nofun) (ite (error nofun) (pushIfRoom _ _ _))
  | encFlush => exact ite (error nofun) (pushIfRoom _ _ _)
  | decFeed b => exact decFeedResult p b s
  | decFinish pad => exact decFinishResult p pad s

end RaisesACause

/-! ### What keeps a predicate through every step -/

/-- A predicate that host accesses, errors and every command's result keep, and that holds at reset,
is kept by every step. -/
theorem step_keeps {P : State → Prop} (reset : P .reset)
    (kept : ∀ s t, BlockKept s t → P s → P t)
    (error : ∀ s r, s.err = false → r.cause ≠ .none → P s → P (s.takeError r))
    (command : ∀ i s t, i ≠ .sreset → s.err = false → commandResult Config.hardware i s = .ok t →
      P s → P t) {s t : State} (hs : P s) (h : step s = .next t) : P t := by
  have hu : P { s with cmd := none } := kept _ _ (blockKept_clearLatch s) hs
  obtain ⟨c, i, -, -, -, h⟩ | ⟨c, e, -, -, -, h⟩ | ⟨-, h⟩ := step_cases h
  · obtain ⟨rfl, rfl⟩ | ⟨-, -, rfl⟩ | ⟨hi, he, hr⟩ | ⟨e, -, he, hr, rfl⟩ := exec_cases h
    · exact kept _ _ (blockKept_reset_softReset _) reset
    · exact hu
    · exact command i _ t hi he hr hu
    · exact error _ e he (RaisesACause.commandResult _ _ _ e hr) hu
  · obtain ⟨-, rfl⟩ | ⟨-, hr⟩ | ⟨e, he, hr, rfl⟩ := completeCommand_cases h
    · exact hu
    · cases hr
    · cases hr
      exact error _ _ he nofun hu
  · obtain ⟨-, rfl⟩ | ⟨e, rest, -, h⟩ := serveHost_cases h
    · exact hs
    have hv := kept _ _ (blockKept_takeEvent s rest) hs
    obtain ⟨_, off, -, -, rfl⟩ | ⟨_, off, v, -, -, rfl⟩ | ⟨-, rfl⟩ := serveEvent_cases h
    · exact kept _ _ (blockKept_busRead _ off _) hv
    · exact kept _ _ (blockKept_busWrite _ off v) hv
    · exact kept _ _ (blockKept_reset_hardReset _) reset

/-! ### The core invariant -/

/-- A header byte that does not complete the load leaves it in progress. -/
theorem loadByte_more_active {lMax : Nat} {ld ld' : Loader} {b : Byte}
    (h : loadByte lMax ld b = .ok (.more ld')) : ld'.active = ld.active := by
  have hset : ∀ len, (ld.setCount len b).active = ld.active := by
    intro len; unfold Loader.setCount; split <;> rfl
  have happ : ∀ len, (ld.append len b).active = ld.active := by
    intro len; unfold Loader.append; split <;> rfl
  obtain ⟨-, -, -, h⟩ | ⟨-, -, -, h⟩ | ⟨-, -, -, -, h⟩ | ⟨-, -, -, h⟩ | ⟨-, -, -, -, h⟩ |
    ⟨-, -, -, -, -, h⟩ := loadByte_ok h <;> cases h
  · rfl
  · exact hset _
  · exact hset _
  · exact happ _
  · exact happ _


theorem coreInv_reset : CoreInv .reset where
  flags := by constructor <;> simp [Loader.idle]
  guards := by constructor <;> simp
  bounds := by constructor <;> simp

namespace CoreInv

variable {s t : State}

theorem of_blockKept (hk : BlockKept s t) (h : CoreInv s) : CoreInv t := by
  obtain ⟨ht, hl⟩ := hk
  rw [ht]
  exact ⟨{ h.flags with }, { h.guards with },
    { h.bounds with outq := hl.trans h.bounds.outq }⟩

theorem takeError (h : CoreInv s) {r : Raise} (hr : r.cause ≠ .none) : CoreInv (s.takeError r) :=
  ⟨{ h.flags with }, { h.guards with noError := nofun, errorCause := fun _ => hr },
    { h.bounds with }⟩

theorem clearTree (h : CoreInv s) : CoreInv s.clearTree :=
  ⟨{ h.flags with treeNoTable := nofun, loadNoTree := fun _ => rfl },
    { h.guards with noTree := fun _ => ⟨rfl, rfl, rfl⟩ }, { h.bounds with }⟩

theorem clearCodes (h : CoreInv s) (he : s.encAct = false) (hd : s.decAct = false) :
    CoreInv s.clearCodes :=
  ⟨{ h.flags with
      codesTable := nofun, encCodes := of_flag_false he
      decCodes := of_flag_false hd, loadNoCodes := fun _ => rfl },
    { h.guards with noCodes := fun _ => ⟨rfl, rfl⟩ }, { h.bounds with }⟩

/-- With no decode session nothing depends on the table but the codes. -/
theorem clearTable (h : CoreInv s) (hc : s.codesValid = false) (hd : s.decAct = false) :
    CoreInv s.clearTable :=
  ⟨{ h.flags with
      treeNoTable := fun _ => rfl, codesTable := of_flag_false hc
      loadNoTable := fun _ => rfl },
    { h.guards with noTable := fun _ => ⟨rfl, rfl, rfl⟩ },
    { h.bounds with dbits := .inl (h.guards.noDec hd).1 }⟩

theorem clearTable_clearCodes (h : CoreInv s) (he : s.encAct = false) (hd : s.decAct = false) :
    CoreInv s.clearTable.clearCodes :=
  (h.clearCodes he hd).clearTable rfl hd

/-- While no codes are held no session is active. -/
theorem noSession (h : CoreInv s) (hc : s.codesValid = false) :
    s.encAct = false ∧ s.decAct = false := by
  constructor
  · by_contra he
    exact of_flag_false hc (h.flags.encCodes (by simpa using he))
  · by_contra hd
    exact of_flag_false hc (h.flags.decCodes (by simpa using hd))

theorem noCodes_of_noTable (h : CoreInv s) (hl : s.ltValid = false) : s.codesValid = false := by
  by_contra hc
  exact of_flag_false hl (h.flags.codesTable (by simpa using hc))

theorem noLoad_of_tree (h : CoreInv s) (ht : s.treeValid = true) : s.ld.active = false := by
  by_contra hl
  exact of_flag_false (h.flags.loadNoTree (by simpa using hl)) ht

theorem build (h : CoreInv s) (hr : buildResult s = .ok t) : CoreInv t := by
  obtain ⟨hl, he, hd, -, rfl⟩ := buildResult_ok hr
  have hc := h.clearTable_clearCodes he hd
  exact ⟨{ hc.flags with
      treeNoTable := fun _ => rfl, loadNoTree := of_flag_false hl },
    { hc.guards with noTree := nofun }, { hc.bounds with }⟩

theorem derive (h : CoreInv s) (hr : deriveResult Config.hardware s = .ok t) : CoreInv t := by
  obtain ⟨ht, -, -, -, rfl⟩ := deriveResult_ok hr
  have hcodes := h.noCodes_of_noTable (h.flags.treeNoTable ht)
  obtain ⟨he, hd⟩ := h.noSession hcodes
  have hl := h.noLoad_of_tree ht
  have hc := h.clearTree.clearCodes he hd
  exact ⟨{ hc.flags with
      treeNoTable := nofun, codesTable := nofun
      loadNoTable := of_flag_false hl },
    { hc.guards with noTable := nofun },
    { hc.bounds with dbits := .inl (h.guards.noDec hd).1 }⟩

theorem assign (h : CoreInv s) (hr : assignResult s = .ok t) : CoreInv t := by
  obtain ⟨hl, ht, rfl⟩ := assignResult_ok hr
  exact ⟨{ h.flags with
      codesTable := fun _ => ht, encCodes := fun _ => rfl, decCodes := fun _ => rfl
      loadNoCodes := of_flag_false hl },
    { h.guards with noCodes := nofun }, { h.bounds with }⟩

theorem hdrEmit (h : CoreInv s) (hr : hdrEmitResult Config.hardware s = .ok t) : CoreInv t := by
  obtain ⟨-, rfl, hl⟩ := hdrEmitResult_ok hr
  exact ⟨{ h.flags with }, { h.guards with },
    { h.bounds with outq := by simpa [Config.outqDepth] using hl }⟩

theorem hdrBegin (h : CoreInv s) (hr : hdrBeginResult s = .ok t) : CoreInv t := by
  obtain ⟨he, hd, rfl⟩ := hdrBeginResult_ok hr
  have hc := h.clearTree.clearTable_clearCodes he hd
  exact ⟨{ hc.flags with
      loadNoTree := fun _ => rfl, loadNoTable := fun _ => rfl, loadNoCodes := fun _ => rfl },
    { hc.guards with noLoad := nofun }, { hc.bounds with }⟩

theorem hdrByte (h : CoreInv s) {b : Byte} (hr : hdrByteResult Config.hardware b s = .ok t) :
    CoreInv t := by
  obtain ⟨ha, l, hl, rfl⟩ := hdrByteResult_ok hr
  cases l with
  | more ld =>
    have hld := (loadByte_more_active hl).trans ha
    exact ⟨{ h.flags with
        loadNoTree := fun _ => h.flags.loadNoTree ha
        loadNoTable := fun _ => h.flags.loadNoTable ha
        loadNoCodes := fun _ => h.flags.loadNoCodes ha },
      { h.guards with noLoad := fun h' => of_flag_false h' hld }, { h.bounds with }⟩
  | complete lt ltMax ltNsym =>
    have hd := (h.noSession (h.flags.loadNoCodes ha)).2
    exact ⟨{ h.flags with
        treeNoTable := of_flag_false (h.flags.loadNoTree ha), codesTable := fun _ => rfl
        loadNoTree := nofun, loadNoTable := nofun, loadNoCodes := nofun },
      { h.guards with noTable := nofun, noLoad := fun _ => rfl },
      { h.bounds with dbits := .inl (h.guards.noDec hd).1 }⟩

theorem enc (h : CoreInv s) {sym : Byte} (hr : encResult Config.hardware sym s = .ok t) :
    CoreInv t := by
  obtain ⟨hc, -, hl, rfl⟩ := encResult_ok hr
  exact ⟨{ h.flags with encCodes := fun _ => hc }, { h.guards with noEnc := nofun },
    { h.bounds with
      encAcc := Nat.le_of_lt_succ (packBytes_split _).2
      outq := by simpa [Config.outqDepth] using hl }⟩

theorem encFlush (h : CoreInv s) (hr : encFlushResult Config.hardware s = .ok t) :
    CoreInv t := by
  obtain ⟨-, hl, rfl⟩ := encFlushResult_ok hr
  exact ⟨{ h.flags with encCodes := nofun }, { h.guards with noEnc := fun _ => rfl },
    { h.bounds with
      encAcc := Nat.zero_le _
      outq := by simpa [Config.outqDepth] using hl }⟩

/-- What DEC_FEED leaves in DBITS is shorter than LT_MAX, or is what was there (R243). -/
theorem decFeed (h : CoreInv s) {b : Byte} (hr : decFeedResult Config.hardware b s = .ok t) :
    CoreInv t := by
  obtain ⟨hc, rest, out, hrest, hl, rfl⟩ := decFeedResult_ok hr
  refine ⟨{ h.flags with decCodes := fun _ => hc },
    { h.guards with noDec := nofun, holdDec := rfl },
    { h.bounds with
      dbits := ?_
      outq := by simpa [Config.outqDepth] using hl }⟩
  obtain ⟨-, hg⟩ | ⟨-, rfl, -⟩ := hrest
  · exact .inr (greedy_ok hg).1
  · exact h.bounds.dbits

theorem decFinish (h : CoreInv s) {pad : Byte}
    (hr : decFinishResult Config.hardware pad s = .ok t) : CoreInv t := by
  obtain ⟨-, -, -, out, -, hl, rfl⟩ := decFinishResult_ok hr
  exact ⟨{ h.flags with decCodes := nofun },
    { h.guards with noDec := fun _ => ⟨rfl, rfl⟩, holdDec := rfl },
    { h.bounds with
      dbits := .inl rfl
      outq := by simpa [Config.outqDepth] using hl }⟩

theorem command (h : CoreInv s) {i : Instr} (hi : i ≠ .sreset)
    (hr : commandResult Config.hardware i s = .ok t) : CoreInv t := by
  cases i with
  | nop => cases hr; exact h
  | sreset => exact absurd rfl hi
  | clrFreq => cases hr; exact ⟨{ h.flags with }, { h.guards with }, { h.bounds with }⟩
  | build => exact h.build hr
  | derive => exact h.derive hr
  | assign => exact h.assign hr
  | hdrEmit => exact h.hdrEmit hr
  | hdrBegin => exact h.hdrBegin hr
  | hdrByte b => exact h.hdrByte hr
  | enc sym => exact h.enc hr
  | encFlush => exact h.encFlush hr
  | decFeed b => exact h.decFeed hr
  | decFinish pad => exact h.decFinish hr

end CoreInv

/-- Settles O59: the host's accesses, a reset, an error and each command keep the core invariant. -/
theorem stepKeepsTheCoreInvariant : Obligations.StepKeepsTheCoreInvariant := by
  intro s t hs h
  exact step_keeps coreInv_reset (fun _ _ hk => CoreInv.of_blockKept hk)
    (fun _ _ _ hr hi => hi.takeError hr) (fun _ _ _ hi _ hr hc => hc.command hi hr) hs h

end Sys2Proof.Machine

/-! PROOFS. The arena BUILD leaves is a tree of R51: what one merge does, the invariant of the merge
loop, and the tree it ends in (spec/41_tree_builder.md rules R160 to R167). -/

namespace Sys2Proof.Machine

/-! ### The queue -/

theorem minEntry_mem {q : List QueueEntry} {e : QueueEntry} (h : minEntry q = some e) : e ∈ q := by
  induction q generalizing e with
  | nil => cases h
  | cons x rest ih =>
    unfold minEntry at h
    split at h
    · simp_all
    · next m hm =>
      split at h
      · cases h
        exact List.mem_cons_of_mem _ (ih hm)
      · simp_all

theorem minEntry_eq_none {q : List QueueEntry} : minEntry q = none ↔ q = [] := by
  cases q with
  | nil => simp [minEntry]
  | cons e rest =>
    simp only [minEntry, reduceCtorEq, iff_false]
    split
    · simp
    · split <;> simp

/-- popMin takes one entry out and leaves the others. -/
theorem popMin_perm {q q' : List QueueEntry} {e : QueueEntry} (h : popMin q = some (e, q')) :
    q.Perm (e :: q') := by
  obtain ⟨m, hm, he⟩ := Option.map_eq_some_iff.1 h
  cases he
  exact List.perm_cons_erase (minEntry_mem hm)

theorem popMin_eq_none {q : List QueueEntry} : popMin q = none ↔ q = [] := by
  rw [popMin, Option.map_eq_none_iff, minEntry_eq_none]

theorem map_idx_queueOf (tree : List Node) :
    (queueOf tree).map QueueEntry.idx = List.range tree.length := by
  apply List.ext_getElem <;> simp [queueOf]

theorem map_freq_queueOf (tree : List Node) :
    (queueOf tree).map QueueEntry.freq = tree.map Node.freq := by
  apply List.ext_getElem <;> simp [queueOf]

theorem mem_queueOf {tree : List Node} {e : QueueEntry} :
    e ∈ queueOf tree ↔ ∃ node, tree[e.idx]? = some node ∧ node.freq = e.freq := by
  rw [queueOf, List.mem_mapIdx]
  constructor
  · rintro ⟨i, hi, rfl⟩
    exact ⟨tree[i], List.getElem?_eq_getElem hi, rfl⟩
  · rintro ⟨node, hn, hf⟩
    obtain ⟨hi, rfl⟩ := List.getElem?_eq_some_iff.1 hn
    exact ⟨e.idx, hi, by rw [hf]⟩

/-! ### The merge loop -/

/-- The node two queue entries merge into (R163, R164). -/
def mergedNode (a b : QueueEntry) : Node := .internal (a.freq + b.freq) a.idx b.idx

/-- The queue entry of the node two entries merge into, at this place of the arena. -/
def mergedEntry (a b : QueueEntry) (idx : Nat) : QueueEntry := ⟨a.freq + b.freq, idx⟩

/-- What every merge keeps holds of the loop's result. -/
theorem mergeLoop_keeps {P : List Node → List QueueEntry → Prop}
    (merge : ∀ tree q a q1 b q2, popMin q = some (a, q1) → popMin q1 = some (b, q2) → P tree q →
      P (tree ++ [mergedNode a b]) (q2 ++ [mergedEntry a b tree.length]))
    (fuel : Nat) {tree : List Node} {q : List QueueEntry} (h : P tree q) :
    P (mergeLoop fuel tree q).1 (mergeLoop fuel tree q).2 := by
  induction fuel generalizing tree q with
  | zero => exact h
  | succ fuel ih =>
    unfold mergeLoop
    split
    · exact h
    · next a q1 ha =>
      split
      · exact h
      · next b q2 hb => exact ih (merge _ _ _ _ _ _ ha hb h)

/-- Merges enough leave at most one entry. -/
theorem mergeLoop_length {fuel : Nat} {tree : List Node} {q : List QueueEntry}
    (h : q.length ≤ fuel + 1) : (mergeLoop fuel tree q).2.length ≤ 1 := by
  induction fuel generalizing tree q with
  | zero => exact h
  | succ fuel ih =>
    unfold mergeLoop
    split
    · next hn => simp [popMin_eq_none.1 hn]
    · next a q1 ha =>
      have hl := (popMin_perm ha).length_eq
      split
      · next hn => simp [hl, popMin_eq_none.1 hn]
      · next b q2 hb =>
        have hl' := (popMin_perm hb).length_eq
        refine ih ?_
        simp only [List.length_cons, List.length_append, List.length_nil] at *
        omega

/-! ### What one merge does to the arena -/

theorem nodeFreq_append_lt {tree : List Node} {i : Nat} (h : i < tree.length) (node : Node) :
    nodeFreq (tree ++ [node]) i = nodeFreq tree i := by
  rw [nodeFreq, List.getElem?_append_left h, nodeFreq]

theorem nodeFreq_of_getElem? {tree : List Node} {i : Nat} {node : Node}
    (h : tree[i]? = some node) : nodeFreq tree i = node.freq.toNat := by
  simp [nodeFreq, h]

theorem lt_length_of_getElem? {tree : List Node} {i : Nat} {node : Node}
    (h : tree[i]? = some node) : i < tree.length := (List.getElem?_eq_some_iff.1 h).1

theorem IsChild.lt_length {tree : List Node} {j i : Nat} (h : IsChild tree j i) :
    i < tree.length := by
  obtain ⟨_, _, _, h, -⟩ := h
  exact lt_length_of_getElem? h

/-- A merge adds the new node as a parent of the two entries, and no other. -/
theorem isChild_append_mergedNode {tree : List Node} {a b : QueueEntry} {j i : Nat} :
    IsChild (tree ++ [mergedNode a b]) j i ↔
      IsChild tree j i ∨ i = tree.length ∧ (j = a.idx ∨ j = b.idx) := by
  rcases Nat.lt_trichotomy i tree.length with h | rfl | h
  · simp [IsChild, List.getElem?_append_left h, h.ne]
  · simp [IsChild, mergedNode]
  · simp [IsChild, h.ne', List.getElem?_eq_none (show (tree ++ [mergedNode a b]).length ≤ i by
      simpa using h), List.getElem?_eq_none h.le]

/-- The invariant of the merge loop that starts from these leaves: the arena begins with them, every
node made since is the sum of two earlier ones, and the queue holds each node without a parent once,
the newest node among them, with frequencies that add up to the leaves'. -/
structure MergeInv (leaves tree : List Node) (q : List QueueEntry) : Prop where
  size : tree.length + q.length = 2 * leaves.length
  arena : ∃ made, tree = leaves ++ made
  queued : ∀ e ∈ q, ∃ node, tree[e.idx]? = some node ∧ node.freq = e.freq
  distinct : (q.map QueueEntry.idx).Nodup
  newest : ∃ e ∈ q, e.idx + 1 = tree.length
  childLt : ∀ j i, IsChild tree j i → j < i
  noParent : ∀ e ∈ q, ∀ i, ¬ IsChild tree e.idx i
  oneParent : ∀ j, j < tree.length → (∀ e ∈ q, e.idx ≠ j) →
    ∃ i, IsChild tree j i ∧ ∀ i', IsChild tree j i' → i' = i
  internals : ∀ i, leaves.length ≤ i → i < tree.length → ∃ f l r,
    tree[i]? = some (.internal f l r) ∧ l < i ∧ r < i ∧ l ≠ r ∧
      f.toNat = nodeFreq tree l + nodeFreq tree r
  total : (q.map fun e => e.freq.toNat).sum = (leaves.map fun node => node.freq.toNat).sum

namespace MergeInv

variable {leaves tree : List Node} {q q2 : List QueueEntry} {a b : QueueEntry}

theorem idx_lt (h : MergeInv leaves tree q) {e : QueueEntry} (he : e ∈ q) :
    e.idx < tree.length := by
  obtain ⟨_, hn, -⟩ := h.queued e he
  exact lt_length_of_getElem? hn

theorem nodeFreq_idx (h : MergeInv leaves tree q) {e : QueueEntry} (he : e ∈ q) :
    nodeFreq tree e.idx = e.freq.toNat := by
  obtain ⟨node, hn, hf⟩ := h.queued e he
  rw [nodeFreq_of_getElem? hn, hf]

/-! One merge takes a and b out of the queue and leaves q2. -/

section merge
variable (h : MergeInv leaves tree q) (hp : q.Perm (a :: b :: q2))
include h hp

theorem merge_idx_ne : a.idx ≠ b.idx ∧ (∀ e ∈ q2, e.idx ≠ a.idx ∧ e.idx ≠ b.idx) ∧
    (q2.map QueueEntry.idx).Nodup := by
  have hd := (hp.map QueueEntry.idx).nodup_iff.1 h.distinct
  simp only [List.map_cons, List.nodup_cons, List.mem_cons, List.mem_map, not_or] at hd
  exact ⟨hd.1.1, fun e he => ⟨fun hi => hd.1.2 ⟨e, he, hi⟩, fun hi => hd.2.1 ⟨e, he, hi⟩⟩, hd.2.2⟩

/-- The new frequency is exact as long as all of them add up to less than 2^40 (R167). -/
theorem merge_freq (hfit : (leaves.map fun node => node.freq.toNat).sum < 2 ^ 40) :
    (a.freq + b.freq).toNat = a.freq.toNat + b.freq.toNat := by
  have ht := (hp.map fun e => e.freq.toNat).sum_eq.symm.trans h.total
  simp only [List.map_cons, List.sum_cons] at ht
  rw [BitVec.toNat_add, Nat.mod_eq_of_lt (by omega)]

omit h in
theorem merge_mem : a ∈ q ∧ b ∈ q ∧ ∀ e ∈ q2, e ∈ q :=
  ⟨hp.mem_iff.2 (by simp), hp.mem_iff.2 (by simp), fun e he => hp.mem_iff.2 (by simp [he])⟩

theorem merge_childLt (j i : Nat) (hi : IsChild (tree ++ [mergedNode a b]) j i) : j < i := by
  obtain ⟨ha, hb, -⟩ := merge_mem hp
  obtain hi | ⟨rfl, rfl | rfl⟩ := isChild_append_mergedNode.1 hi
  · exact h.childLt j i hi
  · exact h.idx_lt ha
  · exact h.idx_lt hb

theorem merge_noParent (e : QueueEntry) (he : e ∈ q2 ++ [mergedEntry a b tree.length]) (i : Nat) :
    ¬ IsChild (tree ++ [mergedNode a b]) e.idx i := by
  obtain ⟨ha, hb, hq2⟩ := merge_mem hp
  obtain ⟨-, hne, -⟩ := h.merge_idx_ne hp
  rw [List.mem_append, List.mem_singleton] at he
  intro hi
  obtain he | rfl := he
  · obtain hi | ⟨-, hi⟩ := isChild_append_mergedNode.1 hi
    · exact h.noParent e (hq2 e he) i hi
    · exact hi.elim (hne e he).1 (hne e he).2
  · have hlt : tree.length < i := h.merge_childLt hp _ i hi
    have := hi.lt_length
    rw [List.length_append, List.length_singleton] at this
    omega

theorem merge_oneParent (j : Nat) (hj : j < tree.length)
    (hne : ∀ e ∈ q2, e.idx ≠ j) : ∃ i, IsChild (tree ++ [mergedNode a b]) j i ∧
      ∀ i', IsChild (tree ++ [mergedNode a b]) j i' → i' = i := by
  obtain ⟨ha, hb, -⟩ := merge_mem hp
  simp only [isChild_append_mergedNode]
  by_cases hab : j = a.idx ∨ j = b.idx
  · have hno : ∀ i, ¬ IsChild tree j i := by
      obtain rfl | rfl := hab
      · exact h.noParent a ha
      · exact h.noParent b hb
    exact ⟨tree.length, .inr ⟨rfl, hab⟩, fun i' hi' => hi'.elim (absurd · (hno i')) And.left⟩
  · have hnq : ∀ e ∈ q, e.idx ≠ j := by
      intro e he hi
      obtain rfl | rfl | he := by simpa using hp.mem_iff.1 he
      · exact hab (.inl hi.symm)
      · exact hab (.inr hi.symm)
      · exact hne e he hi
    obtain ⟨i, hi, huniq⟩ := h.oneParent j hj hnq
    exact ⟨i, .inl hi, fun i' hi' => hi'.elim (huniq i') fun hn => absurd hn.2 hab⟩

theorem merge_internals (hfit : (leaves.map fun node => node.freq.toNat).sum < 2 ^ 40) (i : Nat)
    (hn : leaves.length ≤ i) (hi : i < tree.length + 1) : ∃ f l r,
      (tree ++ [mergedNode a b])[i]? = some (.internal f l r) ∧ l < i ∧ r < i ∧ l ≠ r ∧
        f.toNat = nodeFreq (tree ++ [mergedNode a b]) l +
          nodeFreq (tree ++ [mergedNode a b]) r := by
  obtain ⟨ha, hb, -⟩ := merge_mem hp
  rcases Nat.lt_succ_iff_lt_or_eq.1 hi with hlt | rfl
  · obtain ⟨f, l, r, hget, hl, hr, hlr, hf⟩ := h.internals i hn hlt
    refine ⟨f, l, r, by rw [List.getElem?_append_left hlt, hget], hl, hr, hlr, ?_⟩
    rw [nodeFreq_append_lt (hl.trans hlt), nodeFreq_append_lt (hr.trans hlt), hf]
  · refine ⟨a.freq + b.freq, a.idx, b.idx, by simp [mergedNode], h.idx_lt ha, h.idx_lt hb,
      (h.merge_idx_ne hp).1, ?_⟩
    rw [nodeFreq_append_lt (h.idx_lt ha), nodeFreq_append_lt (h.idx_lt hb),
      h.nodeFreq_idx ha, h.nodeFreq_idx hb, h.merge_freq hp hfit]

/-- One merge keeps the invariant. -/
theorem merge (hfit : (leaves.map fun node => node.freq.toNat).sum < 2 ^ 40) :
    MergeInv leaves (tree ++ [mergedNode a b]) (q2 ++ [mergedEntry a b tree.length]) where
  size := by
    have hl := hp.length_eq
    have := h.size
    simp only [List.length_cons, List.length_append, List.length_nil] at *
    omega
  arena := by
    obtain ⟨made, rfl⟩ := h.arena
    exact ⟨made ++ [mergedNode a b], by simp⟩
  queued := by
    simp only [List.mem_append, List.mem_singleton]
    rintro e (he | rfl)
    · have heq := (merge_mem hp).2.2 e he
      rw [List.getElem?_append_left (h.idx_lt heq)]
      exact h.queued e heq
    · exact ⟨mergedNode a b, by simp [mergedEntry], rfl⟩
  distinct := by
    rw [List.map_append, List.nodup_append]
    refine ⟨(h.merge_idx_ne hp).2.2, by simp, ?_⟩
    simp only [List.mem_map, List.map_cons, List.map_nil, List.mem_singleton, mergedEntry]
    rintro _ ⟨e, he, rfl⟩ _ rfl
    exact (h.idx_lt ((merge_mem hp).2.2 e he)).ne
  newest := ⟨mergedEntry a b tree.length, by simp, by simp [mergedEntry]⟩
  childLt := h.merge_childLt hp
  noParent := h.merge_noParent hp
  oneParent := by
    intro j hj hne
    rw [List.length_append, List.length_singleton] at hj
    have hjl : tree.length ≠ j := hne (mergedEntry a b tree.length) (by simp)
    exact h.merge_oneParent hp j (by omega) fun e he => hne e (by simp [he])
  internals := by simpa using h.merge_internals hp hfit
  total := by
    have ht := (hp.map fun e => e.freq.toNat).sum_eq
    simp only [List.map_append, List.map_cons, List.map_nil, List.sum_append, List.sum_cons,
      List.sum_nil, mergedEntry, h.merge_freq hp hfit] at ht ⊢
    rw [← h.total]
    omega

end merge

/-- The leaves alone, each queued, meet the invariant. -/
theorem start {leaves : List Node} (hne : leaves ≠ [])
    (hl : ∀ node ∈ leaves, ∃ sym f, node = .leaf sym f) :
    MergeInv leaves leaves (queueOf leaves) := by
  have hno : ∀ j i, ¬ IsChild leaves j i := by
    rintro j i ⟨f, l, r, hget, -⟩
    obtain ⟨_, _, he⟩ := hl _ (List.mem_of_getElem? hget)
    cases he
  have hpos : 0 < leaves.length := List.length_pos_iff.2 hne
  have hmem : ∀ i, (hi : i < leaves.length) → ⟨leaves[i].freq, i⟩ ∈ queueOf leaves :=
    fun i hi => mem_queueOf.2 ⟨leaves[i], List.getElem?_eq_getElem hi, rfl⟩
  exact {
    size := by simp [queueOf, two_mul]
    arena := ⟨[], by simp⟩
    queued := fun e he => mem_queueOf.1 he
    distinct := by rw [map_idx_queueOf]; exact List.nodup_range
    newest := ⟨_, hmem (leaves.length - 1) (by omega), Nat.succ_pred_eq_of_pos hpos⟩
    childLt := fun j i hi => absurd hi (hno j i)
    noParent := fun e _ i => hno e.idx i
    oneParent := fun j hj hq => absurd rfl (hq _ (hmem j hj))
    internals := fun i hn hi => absurd hi (by omega)
    total := by
      have := congrArg (List.map BitVec.toNat) (map_freq_queueOf leaves)
      rw [List.map_map, List.map_map] at this
      exact congrArg List.sum this }

/-- When one entry is left, the arena is a tree of R51 whose root it is. -/
theorem treeOk {e : QueueEntry} (h : MergeInv leaves tree [e])
    (hle : leaves.length ≤ 256)
    (hleaves : ∀ i, i < leaves.length → ∃ sym f, leaves[i]? = some (.leaf sym f) ∧ f ≠ 0#32)
    (hasc : ∀ i j, i < j → j < leaves.length → ∀ a fa b fb, leaves[i]? = some (.leaf a fa) →
      leaves[j]? = some (.leaf b fb) → a.toNat < b.toNat) :
    TreeOk tree e.idx leaves.length := by
  obtain ⟨made, hmade⟩ := h.arena
  have hget : ∀ i, i < leaves.length → tree[i]? = leaves[i]? := fun i hi => by
    rw [hmade, List.getElem?_append_left hi]
  have hroot : e.idx + 1 = tree.length := by
    obtain ⟨e', he, hn⟩ := h.newest
    rwa [List.mem_singleton.1 he] at hn
  have hsize : tree.length + 1 = 2 * leaves.length := h.size
  exact {
    nleaf_pos := by omega
    nleaf_le := hle
    size := hsize
    root_last := hroot
    leaves := fun i hi => hget i hi ▸ hleaves i hi
    ascending := fun i j hij hj => by
      rw [hget i (hij.trans hj), hget j hj]
      exact hasc i j hij hj
    internals := h.internals
    one_parent := fun j hj => h.oneParent j (by omega) (by
      simp only [List.mem_singleton, forall_eq]
      exact hj.ne') }

end MergeInv

/-! ### BUILD -/

@[simp] theorem mem_presentSymbols {freq : Vector (BitVec 32) 256} {sym : Byte} :
    sym ∈ presentSymbols freq ↔ fileGet freq sym ≠ 0#32 := by simp [presentSymbols]

@[simp] theorem leafNodes_length (freq : Vector (BitVec 32) 256) :
    (leafNodes freq).length = (presentSymbols freq).length := by simp [leafNodes]

theorem presentSymbols_length_le (freq : Vector (BitVec 32) 256) :
    (presentSymbols freq).length ≤ 256 :=
  (List.length_filter_le _ _).trans_eq symbols_length

theorem presentSymbols_ascending (freq : Vector (BitVec 32) 256) :
    (presentSymbols freq).Pairwise fun a b => a.toNat < b.toNat :=
  symbols_ascending.filter _

theorem leafNodes_getElem? {freq : Vector (BitVec 32) 256} {i : Nat}
    (h : i < (presentSymbols freq).length) :
    (leafNodes freq)[i]? =
      some (.leaf (presentSymbols freq)[i] (fileGet freq (presentSymbols freq)[i])) := by
  simp [leafNodes, h]

/-- 256 frequencies of 32 bits add up to less than 2^40 (R167). -/
theorem leafNodes_total_lt (freq : Vector (BitVec 32) 256) :
    ((leafNodes freq).map fun node => node.freq.toNat).sum < 2 ^ 40 := by
  have hle : ∀ x ∈ (leafNodes freq).map fun node => node.freq.toNat, x ≤ 2 ^ 32 - 1 := by
    simp only [leafNodes, List.map_map, List.mem_map, Function.comp_apply, Node.freq]
    rintro x ⟨sym, -, rfl⟩
    have := (fileGet freq sym).isLt
    rw [BitVec.toNat_setWidth, Nat.mod_eq_of_lt (by omega)]
    omega
  have hsum := List.sum_le_card_nsmul _ _ hle
  have hlen := presentSymbols_length_le freq
  simp only [List.length_map, leafNodes_length, smul_eq_mul] at hsum
  omega

/-- The merge loop of BUILD ends with one entry and the invariant. -/
theorem mergeLoop_leafNodes {freq : Vector (BitVec 32) 256} (hne : presentSymbols freq ≠ []) :
    ∃ e, (mergeLoop (leafNodes freq).length (leafNodes freq) (queueOf (leafNodes freq))).2 = [e] ∧
      MergeInv (leafNodes freq)
        (mergeLoop (leafNodes freq).length (leafNodes freq) (queueOf (leafNodes freq))).1 [e] := by
  have hinv := mergeLoop_keeps (P := MergeInv (leafNodes freq))
    (fun _ _ _ _ _ _ ha hb h =>
      h.merge ((popMin_perm ha).trans ((popMin_perm hb).cons _)) (leafNodes_total_lt freq))
    (leafNodes freq).length
    (MergeInv.start (by simpa [leafNodes] using hne) (by simp [leafNodes]))
  have hlen := mergeLoop_length (fuel := (leafNodes freq).length) (tree := leafNodes freq)
    (q := queueOf (leafNodes freq)) (by simp [queueOf])
  obtain ⟨e, he, -⟩ := hinv.newest
  obtain ⟨e', hq⟩ := List.length_eq_one_iff.1 (le_antisymm hlen (List.length_pos_of_mem he))
  exact ⟨e', hq, hq ▸ hinv⟩

/-- With a symbol present, BUILD's arena is a tree of R51. -/
theorem buildTree_treeOk {freq : Vector (BitVec 32) 256} (hne : presentSymbols freq ≠ []) :
    TreeOk (buildTree freq).1 (buildTree freq).2 (presentSymbols freq).length := by
  obtain ⟨e, hq, hinv⟩ := mergeLoop_leafNodes hne
  have hroot : (buildTree freq).2 = e.idx := by
    simp only [buildTree, hq, List.head?_cons, Option.map_some, Option.getD_some]
  rw [hroot, ← leafNodes_length]
  refine hinv.treeOk (by simpa using presentSymbols_length_le freq) ?_ ?_
  · intro i hi
    rw [leafNodes_length] at hi
    exact ⟨_, _, leafNodes_getElem? hi, mem_presentSymbols.1 (List.getElem_mem hi)⟩
  · intro i j hij hj a fa b fb ha hb
    rw [leafNodes_length] at hj
    rw [leafNodes_getElem? (hij.trans hj)] at ha
    rw [leafNodes_getElem? hj] at hb
    cases ha
    cases hb
    exact List.pairwise_iff_getElem.1 (presentSymbols_ascending freq) i j _ hj hij

end Sys2Proof.Machine

/-! PROOFS. The table DERIVE files from a tree of R51 is a length table of R53: the walk's leaves,
their distinct symbols, Kraft's equality, and the table of any such list of leaves
(spec/42_length_deriver.md rules R180 to R188). -/

namespace Sys2Proof.Machine

/-! ### Sums and tables over the lengths -/

theorem lengths_nodup (n : Nat) : (lengths n).Nodup := (lengths_ascending n).imp fun h => h.ne

/-- A sum over the lengths with one term that is not 0. -/
theorem sum_lengths_single {n len : Nat} {f : Nat → Nat} (h : 1 ≤ len ∧ len ≤ n)
    (hf : ∀ k, k ≠ len → f k = 0) : ((lengths n).map f).sum = f len := by
  rw [List.sum_map_eq_nsmul_single len f fun k hk _ => hf k hk,
    List.count_eq_one_of_mem (lengths_nodup n) ((mem_lengths n len).2 h), one_nsmul]

/-- An entry of the table that lists a function's values at the lengths. -/
theorem ltEntry_map_lengths {n len : Nat} (f : Nat → List Byte) (h : 1 ≤ len ∧ len ≤ n) :
    ltEntry ((lengths n).map f) len = f len := by
  have hlt : len - 1 < n := by omega
  have hlen : len - 1 + 1 = len := by omega
  simp [ltEntry, lengths, hlt, hlen]

theorem kraftSum_map_lengths (n : Nat) (f : Nat → List Byte) :
    kraftSum ((lengths n).map f) n =
      ((lengths n).map fun len => (f len).length * 2 ^ (n - len)).sum := by
  unfold kraftSum
  congr 1
  refine List.map_congr_left fun len hlen => ?_
  rw [ltEntry_map_lengths f ((mem_lengths n len).1 hlen)]

/-- A list of symbols with none repeated has at most 256. -/
theorem length_le_of_nodup {xs : List Byte} (h : xs.Nodup) : xs.length ≤ 256 := by
  have hsub : xs.Subperm symbols := List.subperm_of_subset h fun x _ => mem_symbols x
  simpa using hsub.length_le

/-! ### The leaves of a tree -/

/-- The walk meets the leaves under its node (R180). -/
theorem walkTree_leavesUnder {tree : List Node} {root nleaf : Nat} (h : TreeOk tree root nleaf)
    {fuel i : Nat} (hi : i < fuel) (hl : i < tree.length) (d : Nat) :
    LeavesUnder tree i d (walkTree fuel tree i d) := by
  induction fuel generalizing i d with
  | zero => omega
  | succ fuel ih =>
    by_cases hn : i < nleaf
    · obtain ⟨sym, f, hget, -⟩ := h.leaves i hn
      simp only [walkTree, hget]
      exact .leaf hget
    · obtain ⟨f, l, r, hget, hli, hri, -, -⟩ := h.internals i (by omega) hl
      simp only [walkTree, hget]
      exact .node hget (ih (by omega) (by omega) _) (ih (by omega) (by omega) _)

namespace LeavesUnder

variable {tree : List Node} {i d : Nat} {leaves : List LeafAt}

theorem ne_nil (h : LeavesUnder tree i d leaves) : leaves ≠ [] := by
  induction h with
  | leaf _ => exact List.cons_ne_nil _ _
  | node _ _ _ ihl _ => exact List.append_ne_nil_of_left_ne_nil ihl _

/-- No leaf is above the node it is under. -/
theorem depth_le (h : LeavesUnder tree i d leaves) : ∀ x ∈ leaves, d ≤ x.len := by
  induction h with
  | leaf _ => simp
  | node _ _ _ ihl ihr =>
    intro x hx
    obtain hx | hx := List.mem_append.1 hx
    · exact Nat.le_of_succ_le (ihl x hx)
    · exact Nat.le_of_succ_le (ihr x hx)

/-- Kraft's equality of the leaves under a node (R188). -/
theorem kraft (h : LeavesUnder tree i d leaves) {n : Nat} (hn : ∀ x ∈ leaves, x.len ≤ n) :
    (leaves.map fun x => 2 ^ (n - x.len)).sum = 2 ^ (n - d) := by
  induction h with
  | leaf _ => simp
  | @node i d _ _ _ xs ys _ hl hr ihl ihr =>
    obtain ⟨x, hx⟩ := List.exists_mem_of_ne_nil _ hl.ne_nil
    have hdx := hl.depth_le x hx
    have hxn := hn x (List.mem_append_left _ hx)
    rw [List.map_append, List.sum_append, ihl fun x hx => hn x (List.mem_append_left _ hx),
      ihr fun x hx => hn x (List.mem_append_right _ hx), ← two_mul, ← pow_succ']
    congr 1
    omega

end LeavesUnder

/-! ### Each node is under one child only -/

namespace TreeOk

variable {tree : List Node} {root nleaf : Nat}

/-- An internal node has two children, and they stand before it. -/
theorem children (h : TreeOk tree root nleaf) {i l r : Nat} {f : BitVec 40}
    (hget : tree[i]? = some (.internal f l r)) : l < i ∧ r < i ∧ l ≠ r := by
  have hn : nleaf ≤ i := by
    by_contra hlt
    obtain ⟨_, _, hleaf, -⟩ := h.leaves i (by omega)
    rw [hleaf] at hget
    cases hget
  obtain ⟨_, _, _, hget', hl, hr, hlr, -⟩ := h.internals i hn (lt_length_of_getElem? hget)
  rw [hget'] at hget
  cases hget
  exact ⟨hl, hr, hlr⟩

theorem child_lt (h : TreeOk tree root nleaf) {j i : Nat} (hc : IsChild tree j i) : j < i := by
  obtain ⟨f, l, r, hget, hj⟩ := hc
  obtain ⟨hl, hr, -⟩ := h.children hget
  obtain rfl | rfl := hj
  · exact hl
  · exact hr

/-- No node has two parents. -/
theorem parent_unique (h : TreeOk tree root nleaf) : Relator.RightUnique (IsChild tree) := by
  intro j i i' hi hi'
  have := h.child_lt hi
  have hlt := hi.lt_length
  obtain ⟨_, -, huniq⟩ := h.one_parent j (by have := h.root_last; omega)
  rw [huniq i hi, huniq i' hi']

theorem le_of_under (h : TreeOk tree root nleaf) {j i : Nat}
    (hj : Relation.ReflTransGen (IsChild tree) j i) : j ≤ i := by
  induction hj with
  | refl => exact le_refl _
  | tail _ hc ih => exact ih.trans (h.child_lt hc).le

/-- A child of a node is not under another child of it. -/
theorem not_under_sibling (h : TreeOk tree root nleaf) {i a b : Nat} (ha : IsChild tree a i)
    (hb : IsChild tree b i) (hab : a ≠ b) : ¬ Relation.ReflTransGen (IsChild tree) a b := by
  intro hu
  obtain rfl | ⟨i', hi', hu⟩ := Relation.ReflTransGen.cases_head hu
  · exact hab rfl
  · rw [h.parent_unique hi' ha] at hu
    exact absurd (h.le_of_under hu) (by have := h.child_lt hb; omega)

/-- No node is under both children of another. -/
theorem not_under_both (h : TreeOk tree root nleaf) {i j a b : Nat} (ha : IsChild tree a i)
    (hb : IsChild tree b i) (hab : a ≠ b) (hja : Relation.ReflTransGen (IsChild tree) j a)
    (hjb : Relation.ReflTransGen (IsChild tree) j b) : False := by
  obtain hu | hu := Relation.ReflTransGen.total_of_right_unique h.parent_unique hja hjb
  · exact h.not_under_sibling ha hb hab hu
  · exact h.not_under_sibling hb ha hab.symm hu

/-- Two leaves with one symbol are one leaf. -/
theorem leaf_index_unique (h : TreeOk tree root nleaf) {i j : Nat} {sym : Byte} {f g : BitVec 32}
    (hi : tree[i]? = some (.leaf sym f)) (hj : tree[j]? = some (.leaf sym g)) : i = j := by
  have hlt : ∀ {k sym f}, tree[k]? = some (.leaf sym f) → k < nleaf := by
    intro k sym f hk
    by_contra hn
    obtain ⟨_, _, _, hget, -⟩ := h.internals k (by omega) (lt_length_of_getElem? hk)
    rw [hk] at hget
    cases hget
  rcases Nat.lt_trichotomy i j with hij | rfl | hij
  · exact absurd (h.ascending i j hij (hlt hj) _ _ _ _ hi hj) (lt_irrefl _)
  · rfl
  · exact absurd (h.ascending j i hij (hlt hi) _ _ _ _ hj hi) (lt_irrefl _)

end TreeOk

namespace LeavesUnder

variable {tree : List Node} {root nleaf i d : Nat} {leaves : List LeafAt}

/-- Each leaf is a leaf node under the node. -/
theorem exists_under (h : LeavesUnder tree i d leaves) : ∀ x ∈ leaves,
    ∃ j, tree[j]? = some (.leaf x.sym x.freq) ∧ Relation.ReflTransGen (IsChild tree) j i := by
  induction h with
  | leaf hget => simpa using ⟨_, hget, .refl⟩
  | node hget _ _ ihl ihr =>
    intro x hx
    obtain hx | hx := List.mem_append.1 hx
    · obtain ⟨j, hj, hu⟩ := ihl x hx
      exact ⟨j, hj, hu.tail ⟨_, _, _, hget, .inl rfl⟩⟩
    · obtain ⟨j, hj, hu⟩ := ihr x hx
      exact ⟨j, hj, hu.tail ⟨_, _, _, hget, .inr rfl⟩⟩

/-- No symbol is at two leaves. -/
theorem nodup (ht : TreeOk tree root nleaf) (h : LeavesUnder tree i d leaves) :
    (leaves.map LeafAt.sym).Nodup := by
  induction h with
  | leaf _ => simp
  | @node i d f l r xs ys hget hl hr ihl ihr =>
    have hcl : IsChild tree l i := ⟨_, _, _, hget, .inl rfl⟩
    have hcr : IsChild tree r i := ⟨_, _, _, hget, .inr rfl⟩
    obtain ⟨-, -, hlr⟩ := ht.children hget
    rw [List.map_append, List.nodup_append]
    refine ⟨ihl, ihr, ?_⟩
    simp only [List.mem_map]
    rintro _ ⟨x, hx, rfl⟩ _ ⟨y, hy, rfl⟩ hxy
    obtain ⟨j, hj, hju⟩ := hl.exists_under x hx
    obtain ⟨k, hk, hku⟩ := hr.exists_under y hy
    rw [← hxy] at hk
    obtain rfl := ht.leaf_index_unique hj hk
    exact ht.not_under_both hcl hcr hlr hju hku

end LeavesUnder

/-! ### The table of a list of leaves -/

theorem le_maxLength {leaves : List LeafAt} {x : LeafAt} (h : x ∈ leaves) :
    x.len ≤ maxLength leaves :=
  List.le_max_of_le' 0 (List.mem_map_of_mem h) (le_refl _)

theorem exists_len_eq_maxLength {leaves : List LeafAt} (h : 0 < maxLength leaves) :
    ∃ x ∈ leaves, x.len = maxLength leaves := by
  induction leaves with
  | nil => cases h
  | cons y ys ih =>
    have hmax : maxLength (y :: ys) = max y.len (maxLength ys) := rfl
    rw [hmax] at h ⊢
    rcases max_choice y.len (maxLength ys) with he | he <;> rw [he] at h ⊢
    · exact ⟨y, by simp, rfl⟩
    · obtain ⟨x, hx, hlen⟩ := ih h
      exact ⟨x, by simp [hx], hlen⟩

/-- Filing leaves by length loses and repeats none. -/
theorem filed_perm {leaves : List LeafAt} {n : Nat} (h : ∀ x ∈ leaves, 1 ≤ x.len ∧ x.len ≤ n) :
    ((lengths n).flatMap fun len => leaves.filter fun x => decide (x.len = len)).Perm leaves := by
  rw [List.perm_iff_count]
  intro x
  rw [List.count_flatMap]
  by_cases hx : x ∈ leaves
  · refine (sum_lengths_single (h x hx) fun k hk => ?_).trans (List.count_filter (by simp))
    refine List.count_eq_zero_of_not_mem fun hm => hk ?_
    exact (of_decide_eq_true (List.mem_filter.1 hm).2).symm
  · rw [List.count_eq_zero_of_not_mem hx]
    refine List.sum_eq_zero fun c hc => ?_
    obtain ⟨len, -, rfl⟩ := List.mem_map.1 hc
    exact List.count_eq_zero_of_not_mem fun hm => hx (List.mem_filter.1 hm).1

section table
variable {leaves : List LeafAt} (h : ∀ x ∈ leaves, 1 ≤ x.len)
include h

/-- The table's symbols are the leaves'. -/
theorem tableOf_flatten_perm : (tableOf leaves).flatten.Perm (leaves.map LeafAt.sym) := by
  have hp := (filed_perm fun x hx => ⟨h x hx, le_maxLength hx⟩).map LeafAt.sym
  rwa [List.map_flatMap] at hp

/-- Kraft's sum of the table, taken over the leaves. -/
theorem kraftSum_tableOf : kraftSum (tableOf leaves) (maxLength leaves) =
    (leaves.map fun x => 2 ^ (maxLength leaves - x.len)).sum := by
  have hp := (filed_perm fun x hx => ⟨h x hx, le_maxLength hx⟩).map
    fun x => 2 ^ (maxLength leaves - x.len)
  rw [tableOf, kraftSum_map_lengths, ← hp.sum_eq, List.map_flatMap, List.flatMap_def,
    List.sum_flatten, List.map_map]
  congr 1
  refine List.map_congr_left fun len _ => ?_
  have hconst : ((leaves.filter fun x => decide (x.len = len)).map
      fun x => 2 ^ (maxLength leaves - x.len)) =
      (leaves.filter fun x => decide (x.len = len)).map fun _ => 2 ^ (maxLength leaves - len) :=
    List.map_congr_left fun x hx => by rw [of_decide_eq_true (List.mem_filter.1 hx).2]
  simp only [Function.comp_apply, hconst, symbolsAt, List.length_map, List.map_const',
    List.sum_replicate, smul_eq_mul]

/-- The table of leaves with distinct symbols that meet Kraft's equality, within the limits DERIVE
checks, is a length table of R53. -/
theorem tableOf_tableOk (hne : leaves ≠ []) (hmax : maxLength leaves ≤ 255)
    (hcount : ∀ len, 1 ≤ len → len ≤ maxLength leaves → (symbolsAt leaves len).length ≤ 255)
    (hnodup : (leaves.map LeafAt.sym).Nodup)
    (hkraft : (leaves.map fun x => 2 ^ (maxLength leaves - x.len)).sum = 2 ^ maxLength leaves ∨
      ∃ x, leaves = [x] ∧ x.len = 1) :
    TableOk (tableOf leaves) (BitVec.ofNat 8 (maxLength leaves))
      (BitVec.ofNat 9 leaves.length) := by
  have hM : (BitVec.ofNat 8 (maxLength leaves)).toNat = maxLength leaves := by
    rw [BitVec.toNat_ofNat, Nat.mod_eq_of_lt (by omega)]
  have hlen : leaves.length ≤ 256 := by simpa using length_le_of_nodup hnodup
  have hpos : 0 < maxLength leaves := by
    obtain ⟨x, hx⟩ := List.exists_mem_of_ne_nil _ hne
    exact (h x hx).trans (le_maxLength hx)
  have hp := tableOf_flatten_perm h
  refine { max_pos := by rw [hM]; exact hpos, size := ?_, nsym := ?_, counts := ?_, distinct := ?_
           last := ?_, kraft := ?_ }
  · simp [hM, tableOf]
  · rw [hp.length_eq, List.length_map, BitVec.toNat_ofNat, Nat.mod_eq_of_lt (by omega)]
  · intro e he
    obtain ⟨len, hl, rfl⟩ := List.mem_map.1 he
    rw [mem_lengths] at hl
    exact hcount len hl.1 hl.2
  · exact hp.nodup_iff.2 hnodup
  · obtain ⟨x, hx, hxm⟩ := exists_len_eq_maxLength hpos
    rw [hM, tableOf, ltEntry_map_lengths _ ⟨hpos, le_refl _⟩]
    exact List.ne_nil_of_mem (List.mem_map_of_mem (List.mem_filter.2 ⟨hx, by simpa using hxm⟩))
  · rw [hM, kraftSum_tableOf h]
    refine hkraft.imp_right ?_
    rintro ⟨x, rfl, hx⟩
    exact ⟨x.sym, by simp [tableOf, maxLength, hx, lengths, symbolsAt]⟩

end table

/-! ### DERIVE -/

/-- The leaves of a tree of R51 with two or more: none is the root, their symbols are distinct, and
they meet Kraft's equality (R188). -/
theorem treeLeaves_of_two_le {s : State} (h : TreeOk s.tree s.root s.nleaf) (hn : 2 ≤ s.nleaf) :
    LeavesUnder s.tree s.root 0 s.treeLeaves ∧ ∀ x ∈ s.treeLeaves, 1 ≤ x.len := by
  have hsize := h.size
  have hroot := h.root_last
  have hl : LeavesUnder s.tree s.root 0 s.treeLeaves := by
    rw [State.treeLeaves, if_neg (by omega)]
    exact walkTree_leavesUnder h (by omega) (by omega) 0
  refine ⟨hl, ?_⟩
  generalize s.treeLeaves = leaves at hl
  obtain ⟨f, l, r, hget, -⟩ := h.internals s.root (by omega) (by omega)
  cases hl with
  | leaf hget' => rw [hget] at hget'; cases hget'
  | node _ hxl hxr =>
    intro x hx
    obtain hx | hx := List.mem_append.1 hx
    · exact hxl.depth_le x hx
    · exact hxr.depth_le x hx

/-- The leaf of a tree of R51 with one (R182). -/
theorem treeLeaves_of_one {s : State} (h : TreeOk s.tree s.root s.nleaf) (hn : s.nleaf = 1) :
    ∃ sym f, s.treeLeaves = [⟨sym, f, 1⟩] := by
  have hsize := h.size
  have hroot := h.root_last
  obtain ⟨sym, f, hget, -⟩ := h.leaves s.root (by omega)
  exact ⟨sym, f, by rw [State.treeLeaves, if_pos hn, soleLeaf, hget]⟩

/-- DERIVE leaves a length table of R53, from a tree of R51. -/
theorem deriveResult_tableOk {p : Params} {s t : State} (hp : p.lMax ≤ 255)
    (h : TreeOk s.tree s.root s.nleaf) (hr : deriveResult p s = .ok t) :
    TableOk t.lt t.ltMax t.ltNsym := by
  obtain ⟨-, hmax, -, hcount, rfl⟩ := deriveResult_ok hr
  have hmax := hmax.trans hp
  by_cases hn : 2 ≤ s.nleaf
  · obtain ⟨hl, hpos⟩ := treeLeaves_of_two_le h hn
    exact tableOf_tableOk hpos hl.ne_nil hmax hcount (hl.nodup h)
      (.inl (by simpa using hl.kraft fun x hx => le_maxLength hx))
  · obtain ⟨sym, f, hl⟩ := treeLeaves_of_one h (by have := h.nleaf_pos; omega)
    exact tableOf_tableOk (by simp [hl]) (by simp [hl]) hmax hcount (by simp [hl])
      (.inr ⟨_, hl, rfl⟩)

end Sys2Proof.Machine

/-! PROOFS. A header load stays consistent with the bytes it has accepted, byte by byte, and the
table it completes is a length table of R53 (spec/46_length_table_port.md rules R262 to R266). -/

namespace Sys2Proof.Machine

/-! ### Sums and symbols over the lengths -/

theorem lengths_append {n m : Nat} (h : n ≤ m) :
    ∃ rest, lengths m = lengths n ++ rest ∧ ∀ len ∈ rest, n < len := by
  induction m, h using Nat.le_induction with
  | base => exact ⟨[], by simp, by simp⟩
  | succ m hm ih =>
    obtain ⟨rest, hr, hlt⟩ := ih
    refine ⟨rest ++ [m + 1], by rw [lengths_succ, hr, List.append_assoc], ?_⟩
    simp only [List.mem_append, List.mem_singleton]
    rintro len (h | rfl)
    · exact hlt len h
    · exact Nat.lt_succ_of_le hm

/-- Terms of 0 past n add nothing. -/
theorem sum_lengths_of_zero {n m : Nat} (h : n ≤ m) {f : Nat → Nat}
    (hf : ∀ len, n < len → f len = 0) :
    ((lengths m).map f).sum = ((lengths n).map f).sum := by
  obtain ⟨rest, hr, hlt⟩ := lengths_append h
  rw [hr, List.map_append, List.sum_append, Nat.add_eq_left]
  refine List.sum_eq_zero fun x hx => ?_
  obtain ⟨len, hl, rfl⟩ := List.mem_map.1 hx
  exact hf len (hlt len hl)

/-- Empty entries past n add nothing. -/
theorem flatMap_lengths_of_nil {n m : Nat} (h : n ≤ m) {f : Nat → List Byte}
    (hf : ∀ len, n < len → f len = []) : (lengths m).flatMap f = (lengths n).flatMap f := by
  obtain ⟨rest, hr, hlt⟩ := lengths_append h
  rw [hr, List.flatMap_append, List.append_right_eq_self, List.flatMap_eq_nil_iff]
  exact fun len hl => hf len (hlt len hl)

/-- A term that grows makes the sum grow as much. -/
theorem sum_lengths_add {n len c : Nat} {f g : Nat → Nat} (h : 1 ≤ len ∧ len ≤ n)
    (hg : ∀ k, g k = f k + if k = len then c else 0) :
    ((lengths n).map g).sum = ((lengths n).map f).sum + c := by
  rw [funext hg, List.sum_map_add, sum_lengths_single h fun k hk => if_neg hk, if_pos rfl]

/-! ### The loader's updates, field by field -/

namespace Loader

/-- Counts and entries are read off their tables alone. -/
theorem count_congr {ld ld' : Loader} (h : ld.counts = ld'.counts) (len : Nat) :
    ld.count len = ld'.count len := by simp only [count, h]

theorem entry_congr {ld ld' : Loader} (h : ld.lt = ld'.lt) (len : Nat) :
    ld.entry len = ld'.entry len := by simp only [entry, h]

/-- Storing a count changes no other element. -/
theorem setCount_eq (ld : Loader) (len : Nat) (b : Byte) :
    ld.setCount len b = { ld with counts := (ld.setCount len b).counts } := by
  unfold setCount
  split <;> rfl

/-- Appending a symbol changes no other element. -/
theorem append_eq (ld : Loader) (len : Nat) (b : Byte) :
    ld.append len b = { ld with lt := (ld.append len b).lt } := by
  unfold append
  split <;> rfl

/-- The loader with one more count, all but the counts written out. -/
theorem withCount_eq (ld : Loader) (b : Byte) : ld.withCount b = { ld with
    counts := (ld.withCount b).counts, total := BitVec.ofNat 9 (ld.total.toNat + b.toNat) } := by
  rw [withCount, setCount_eq]

/-- The loader with one more symbol, all but the entries written out. -/
theorem withSymbol_eq (ld : Loader) (b : Byte) : ld.withSymbol b = { ld with
    lt := (ld.withSymbol b).lt, seen := ld.seen ||| (1#256 <<< b.toNat)
    left := ld.left - 1#9 } := by
  rw [withSymbol, append_eq]

theorem loadedCount_congr {ld ld' : Loader} (h : ld.counts = ld'.counts) :
    loadedCount ld = loadedCount ld' := by
  rw [loadedCount, funext (count_congr h), loadedCount]

theorem loadedSymbols_congr {ld ld' : Loader} (h : ld.lt = ld'.lt) :
    loadedSymbols ld = loadedSymbols ld' := by
  rw [loadedSymbols, funext (entry_congr h), loadedSymbols]

theorem count_withCount {ld : Loader} (h : 1 ≤ ld.idx.toNat) (b : Byte) (len : Nat) :
    (ld.withCount b).count len = if len = ld.idx.toNat then b.toNat else ld.count len :=
  ld.count_setCount ⟨h, Nat.le_of_lt_succ ld.idx.isLt⟩ b len

theorem entry_withSymbol {ld : Loader} (h : 1 ≤ ld.idx.toNat) (b : Byte) (len : Nat) :
    (ld.withSymbol b).entry len =
      if len = ld.idx.toNat then ld.entry len ++ [b] else ld.entry len :=
  ld.entry_append ⟨h, Nat.le_of_lt_succ ld.idx.isLt⟩ b len

/-- The symbols read grow by the one appended. -/
theorem loadedSymbols_withSymbol {ld : Loader} (h : 1 ≤ ld.idx.toNat) (b : Byte) :
    (loadedSymbols (ld.withSymbol b)).Perm (b :: loadedSymbols ld) := by
  rw [List.perm_iff_count]
  intro x
  rw [loadedSymbols, loadedSymbols, List.count_flatMap, List.count_cons, List.count_flatMap]
  refine sum_lengths_add ⟨h, Nat.le_of_lt_succ ld.idx.isLt⟩ fun k => ?_
  simp only [Function.comp_apply, entry_withSymbol h]
  split
  · simp [List.count_append, List.count_singleton]
  · rfl

theorem seen_withSymbol (ld : Loader) (b sym : Byte) :
    (ld.withSymbol b).seen.getLsbD sym.toNat = true ↔
      sym = b ∨ ld.seen.getLsbD sym.toNat = true := by
  have hbit : (1#256 <<< b.toNat).getLsbD sym.toNat = true ↔ sym = b := by
    have hlt : sym.toNat < 256 := sym.isLt
    simp only [BitVec.getLsbD_shiftLeft, BitVec.getLsbD_one, BitVec.toNat_eq]
    simp only [Bool.and_eq_true, decide_eq_true_eq, Bool.not_eq_true', decide_eq_false_iff_not]
    omega
  rw [withSymbol_eq, BitVec.getLsbD_or, Bool.or_eq_true, hbit, or_comm]

/-- Where length N has a count above 0, the loader moves on to the least such length above `after`,
and expects that many symbols (R265, R266). -/
theorem toLength_spec {ld : Loader} {after : Nat} (h : after < ld.n.toNat)
    (hc : 0 < ld.count ld.n.toNat) :
    after < (ld.toLength after).idx.toNat ∧ (ld.toLength after).idx.toNat ≤ ld.n.toNat ∧
      (ld.toLength after).left.toNat = ld.count (ld.toLength after).idx.toNat ∧
      0 < ld.count (ld.toLength after).idx.toNat ∧
      ∀ k, after < k → k < (ld.toLength after).idx.toNat → ld.count k = 0 := by
  obtain ⟨h1, h2, h3, h4⟩ := nextLength_spec h hc
  have hidx : (ld.toLength after).idx.toNat = ld.nextLength after := by
    rw [toLength, BitVec.toNat_ofNat, Nat.mod_eq_of_lt (h2.trans_lt ld.n.isLt)]
  have hle := ld.count_le (ld.nextLength after)
  have hleft : (ld.toLength after).left.toNat = ld.count (ld.nextLength after) := by
    rw [toLength, BitVec.toNat_ofNat, Nat.mod_eq_of_lt (by omega)]
  rw [hidx]
  exact ⟨h1, h2, hleft, h3, h4⟩

end Loader

/-! ### A load in each of its phases -/

/-- A load that reads counts (R265). -/
theorem loadOk_of_counts {ld : Loader} (hp : ld.phase = .counts)
    (range : 1 ≤ ld.idx.toNat ∧ ld.idx.toNat ≤ ld.n.toNat)
    (total : ld.total.toNat = loadedCount ld) (total_le : loadedCount ld ≤ 256)
    (later : ∀ len, ld.idx.toNat ≤ len → ld.count len = 0) (noSymbols : loadedSymbols ld = [])
    (left : ld.left = 0#9) (pos : ld.pos.toNat = ld.idx.toNat)
    (seen : ∀ sym : Byte, ld.seen.getLsbD sym.toNat = true ↔ sym ∈ loadedSymbols ld) :
    LoadOk ld := by
  have hsyms : ∀ {q : Prop}, ld.phase = .syms → q := fun h => nomatch hp.symm.trans h
  exact {
    phaseN := fun h => (nomatch hp.symm.trans h), range := fun _ => range
    total, total_le, countsLater := fun _ => later
    countsNoSymbols := fun _ => ⟨noSymbols, left⟩, countsPos := fun _ => pos
    symsLast := hsyms, symsBeyond := hsyms, symsBefore := hsyms, symsHere := hsyms
    symsAfter := hsyms, symsPos := hsyms
    distinct := noSymbols ▸ List.nodup_nil, seen }

/-- A load that reads symbols (R266). -/
theorem loadOk_of_syms {ld : Loader} (hp : ld.phase = .syms)
    (range : 1 ≤ ld.idx.toNat ∧ ld.idx.toNat ≤ ld.n.toNat)
    (total : ld.total.toNat = loadedCount ld) (total_le : loadedCount ld ≤ 256)
    (last : 0 < ld.count ld.n.toNat) (beyond : ∀ len, ld.n.toNat < len → ld.count len = 0)
    (before : ∀ len, len < ld.idx.toNat → (ld.entry len).length = ld.count len)
    (here : 0 < ld.left.toNat ∧
      (ld.entry ld.idx.toNat).length + ld.left.toNat = ld.count ld.idx.toNat)
    (after : ∀ len, ld.idx.toNat < len → ld.entry len = [])
    (pos : ld.pos.toNat = 1 + ld.n.toNat + (loadedSymbols ld).length)
    (distinct : (loadedSymbols ld).Nodup)
    (seen : ∀ sym : Byte, ld.seen.getLsbD sym.toNat = true ↔ sym ∈ loadedSymbols ld) :
    LoadOk ld := by
  have hcounts : ∀ {q : Prop}, ld.phase = .counts → q := fun h => nomatch hp.symm.trans h
  exact {
    phaseN := fun h => (nomatch hp.symm.trans h), range := fun _ => range
    total, total_le, countsLater := hcounts, countsNoSymbols := hcounts, countsPos := hcounts
    symsLast := fun _ => last, symsBeyond := fun _ => beyond, symsBefore := fun _ => before
    symsHere := fun _ => here, symsAfter := fun _ => after, symsPos := fun _ => pos
    distinct, seen }

@[simp] theorem Loader.started_count (len : Nat) : Loader.started.count len = 0 :=
  Loader.idle_count len

@[simp] theorem Loader.started_entry (len : Nat) : Loader.started.entry len = [] :=
  Loader.idle_entry len

theorem loadedCount_started : loadedCount .started = 0 := by
  refine List.sum_eq_zero fun x hx => ?_
  obtain ⟨len, -, rfl⟩ := List.mem_map.1 hx
  exact Loader.started_count len

theorem loadedSymbols_started : loadedSymbols .started = [] := by simp [loadedSymbols]

/-- A load that has just begun (R262). -/
theorem loadOk_started : LoadOk .started := by
  have hcounts : ∀ {q : Prop}, Loader.started.phase = .counts → q := nofun
  have hsyms : ∀ {q : Prop}, Loader.started.phase = .syms → q := nofun
  exact {
    phaseN := fun _ => rfl, range := fun h => absurd rfl h
    total := loadedCount_started ▸ rfl, total_le := by simp [loadedCount_started]
    countsLater := hcounts, countsNoSymbols := hcounts, countsPos := hcounts, symsLast := hsyms
    symsBeyond := hsyms, symsBefore := hsyms, symsHere := hsyms, symsAfter := hsyms
    symsPos := hsyms
    distinct := loadedSymbols_started ▸ List.nodup_nil
    seen := by
      rw [loadedSymbols_started]
      simp [Loader.started, Loader.idle] }

/-! ### One header byte

Where a lemma has ld', it is the loader after the byte, its position moved on. -/

section byte
variable {ld ld' : Loader} {b : Byte}

theorem byte_toNat_pos (hb : b ≠ 0#8) : 0 < b.toNat := by
  rw [Nat.pos_iff_ne_zero]
  exact fun h => hb (BitVec.eq_of_toNat_eq h)

/-- The first byte, N (R264). -/
theorem loadOk_firstByte (h : LoadOk ld) (hp : ld.phase = .n) (hb : b ≠ 0#8)
    (hld : ld' = { ld with n := b, idx := 1#8, phase := .counts, pos := ld.pos + 1#10 }) :
    LoadOk ld' := by
  obtain rfl := h.phaseN hp
  have hcounts : ld'.counts = Loader.started.counts := by rw [hld]
  have hsum : loadedCount ld' = 0 :=
    (Loader.loadedCount_congr hcounts).trans loadedCount_started
  have hsyms : loadedSymbols ld' = [] :=
    (Loader.loadedSymbols_congr (by rw [hld])).trans loadedSymbols_started
  have hidx : ld'.idx.toNat = 1 := by rw [hld]; rfl
  exact loadOk_of_counts (by rw [hld]) ⟨hidx.ge, by rw [hidx, hld]; exact byte_toNat_pos hb⟩
    (by rw [hsum, hld]; rfl) (by omega)
    (fun len _ => (Loader.count_congr hcounts len).trans (Loader.started_count len)) hsyms
    (by rw [hld]; rfl) (by rw [hidx, hld]; rfl)
    (by rw [hsyms, hld]; simp [Loader.started, Loader.idle])

/-- What a count byte leaves: its count at LD_IDX, where there was none, and the total with it. -/
theorem withCount_spec (h : LoadOk ld) (hp : ld.phase = .counts)
    (ht : ld.total.toNat + b.toNat ≤ 256) :
    (∀ len, (ld.withCount b).count len = if len = ld.idx.toNat then b.toNat else ld.count len) ∧
      loadedCount (ld.withCount b) = ld.total.toNat + b.toNat ∧
      (ld.withCount b).total.toNat = ld.total.toNat + b.toNat := by
  have hr := (h.range (by simp [hp])).1
  refine ⟨Loader.count_withCount hr b, ?_, ?_⟩
  · rw [h.total]
    refine sum_lengths_add ⟨hr, Nat.le_of_lt_succ ld.idx.isLt⟩ fun k => ?_
    rw [Loader.count_withCount hr]
    split
    · next hk => rw [h.countsLater hp k hk.ge, Nat.zero_add]
    · rfl
  · rw [Loader.withCount_eq, BitVec.toNat_ofNat, Nat.mod_eq_of_lt (by omega)]

/-- The position while counts are read is far from its field's end. -/
theorem countPos_succ (h : LoadOk ld) (hp : ld.phase = .counts) :
    (ld.pos + 1#10).toNat = ld.idx.toNat + 1 := by
  have := ld.idx.isLt
  rw [BitVec.toNat_add, h.countsPos hp, BitVec.toNat_ofNat]
  omega

/-- A count byte below length N (R265). -/
theorem loadOk_nextCount (h : LoadOk ld) (hp : ld.phase = .counts)
    (ht : ld.total.toNat + b.toNat ≤ 256) (hi : ld.idx.toNat < ld.n.toNat)
    (hld : ld' = { ld.withCount b with idx := ld.idx + 1#8, pos := ld.pos + 1#10 }) :
    LoadOk ld' := by
  obtain ⟨hcount, hsum, htotal⟩ := withCount_spec h hp ht
  obtain ⟨hsyms, hleft⟩ := h.countsNoSymbols hp
  have hcounts : ld'.counts = (ld.withCount b).counts := by rw [hld]
  have hlsum : loadedCount ld' = ld.total.toNat + b.toNat :=
    (Loader.loadedCount_congr hcounts).trans hsum
  have hltotal : ld'.total = (ld.withCount b).total := by rw [hld]
  rw [Loader.withCount_eq] at hld
  have hs : loadedSymbols ld' = loadedSymbols ld := Loader.loadedSymbols_congr (by rw [hld])
  have hidx : ld'.idx.toNat = ld.idx.toNat + 1 := by
    have := ld.n.isLt
    rw [hld, BitVec.toNat_add, BitVec.toNat_ofNat]
    omega
  refine loadOk_of_counts (by rw [hld, hp]) ⟨by omega, by rw [hidx, hld]; exact hi⟩
    (by rw [hltotal, htotal, hlsum]) (by omega) (fun len hlen => ?_) (hs.trans hsyms)
    (by rw [hld]; exact hleft) (by rw [hidx, hld]; exact countPos_succ h hp)
    (by rw [hs, hld]; exact h.seen)
  rw [Loader.count_congr hcounts, hcount, if_neg (by omega)]
  exact h.countsLater hp len (by omega)

/-- While no symbol is read no entry has one. -/
theorem entry_of_noSymbols (h : loadedSymbols ld = []) (len : Nat) : ld.entry len = [] := by
  by_cases hr : 1 ≤ len ∧ len ≤ 255
  · exact List.flatMap_eq_nil_iff.1 h len ((mem_lengths 255 len).2 hr)
  · exact Loader.entry_of_range hr

/-- The count byte at length N (R265). -/
theorem loadOk_lastCount (h : LoadOk ld) (hp : ld.phase = .counts)
    (ht : ld.total.toNat + b.toNat ≤ 256) (hi : ld.n.toNat ≤ ld.idx.toNat) (hb : b ≠ 0#8)
    (hld : ld' = { (ld.withCount b).toLength 0 with phase := .syms, pos := ld.pos + 1#10 }) :
    LoadOk ld' := by
  obtain ⟨hcount, hsum, htotal⟩ := withCount_spec h hp ht
  obtain ⟨hr1, hr2⟩ := h.range (by simp [hp])
  obtain ⟨hsyms, -⟩ := h.countsNoSymbols hp
  have hidxn : ld.idx.toNat = ld.n.toNat := le_antisymm hr2 hi
  have hn : (ld.withCount b).n = ld.n := by rw [Loader.withCount_eq]
  have hlast : (ld.withCount b).count ld.n.toNat = b.toNat := by
    rw [hcount, if_pos hidxn.symm]
  obtain ⟨h1, h2, h3, h4, h5⟩ := Loader.toLength_spec (ld := ld.withCount b) (after := 0)
    (by rw [hn]; omega) (by rw [hn, hlast]; exact byte_toNat_pos hb)
  have hcounts : ld'.counts = (ld.withCount b).counts := by rw [hld]; rfl
  have hc := Loader.count_congr hcounts
  have hlsum : loadedCount ld' = ld.total.toNat + b.toNat :=
    (Loader.loadedCount_congr hcounts).trans hsum
  have hltotal : ld'.total = (ld.withCount b).total := by rw [hld]; rfl
  have hln : ld'.n = ld.n := by rw [hld]; exact hn
  have hs : loadedSymbols ld' = [] := by
    rw [← hsyms]
    exact Loader.loadedSymbols_congr (by rw [hld, Loader.withCount_eq]; rfl)
  have he := entry_of_noSymbols hs
  have hidx : ld'.idx = ((ld.withCount b).toLength 0).idx := by rw [hld]
  have hleft : ld'.left = ((ld.withCount b).toLength 0).left := by rw [hld]
  refine loadOk_of_syms (by rw [hld]) ⟨by rw [hidx]; exact h1, by rw [hidx, hln, ← hn]; exact h2⟩
    (by rw [hltotal, htotal, hlsum]) (by omega) (by rw [hc, hln, hlast]; exact byte_toNat_pos hb)
    (fun len hlen => ?_) (fun len hlen => ?_) ⟨?_, ?_⟩ (fun len _ => he len) ?_
    (hs ▸ List.nodup_nil) ?_
  · rw [hln] at hlen
    rw [hc, hcount, if_neg (by omega)]
    exact h.countsLater hp len (by omega)
  · rw [he, hc]
    by_cases h0 : len = 0
    · rw [h0, Loader.count_of_range (by omega), List.length_nil]
    · exact (h5 len (Nat.pos_of_ne_zero h0) (hidx ▸ hlen)).symm
  · rw [hleft, h3]
    exact h4
  · rw [he, hc, hleft, hidx, h3, List.length_nil, Nat.zero_add]
  · rw [hs, hln, hld, List.length_nil, ← hidxn]
    exact (countPos_succ h hp).trans (Nat.add_comm _ _)
  · rw [hs, ← hsyms, hld, Loader.withCount_eq]
    exact h.seen

/-- What a symbol byte leaves: the symbol at LD_IDX, among those read, and one expected less. -/
theorem withSymbol_spec (h : LoadOk ld) (hp : ld.phase = .syms)
    (hb : ld.seen.getLsbD b.toNat = false) :
    (∀ len, (ld.withSymbol b).entry len =
        if len = ld.idx.toNat then ld.entry len ++ [b] else ld.entry len) ∧
      (ld.withSymbol b).left.toNat + 1 = ld.left.toNat ∧
      (loadedSymbols (ld.withSymbol b)).Nodup ∧
      (loadedSymbols (ld.withSymbol b)).length = (loadedSymbols ld).length + 1 ∧
      ∀ sym : Byte, (ld.withSymbol b).seen.getLsbD sym.toNat = true ↔
        sym ∈ loadedSymbols (ld.withSymbol b) := by
  have hr := (h.range (by simp [hp])).1
  have hperm := Loader.loadedSymbols_withSymbol hr b
  have hnew : b ∉ loadedSymbols ld := fun hm => of_flag_false hb ((h.seen b).2 hm)
  refine ⟨Loader.entry_withSymbol hr b, ?_,
    hperm.nodup_iff.2 (List.nodup_cons.2 ⟨hnew, h.distinct⟩), hperm.length_eq, fun sym => ?_⟩
  · have hpos := (h.symsHere hp).1
    have := ld.left.isLt
    rw [Loader.withSymbol_eq, BitVec.toNat_sub, BitVec.toNat_ofNat]
    omega
  · rw [Loader.seen_withSymbol, hperm.mem_iff, List.mem_cons, h.seen]

/-- The position while symbols are read is far from its field's end. -/
theorem symPos_succ (h : LoadOk ld) (hp : ld.phase = .syms) :
    (ld.pos + 1#10).toNat = 1 + ld.n.toNat + ((loadedSymbols ld).length + 1) := by
  have := ld.n.isLt
  have := length_le_of_nodup h.distinct
  rw [BitVec.toNat_add, h.symsPos hp, BitVec.toNat_ofNat]
  omega

/-- A symbol byte keeps the load consistent where LD_IDX and LD_LEFT are what is still expected. -/
theorem loadOk_of_symbol (h : LoadOk ld) (hp : ld.phase = .syms)
    (hb : ld.seen.getLsbD b.toNat = false) {idx : BitVec 8} {left : BitVec 9}
    (hld : ld' = { ld.withSymbol b with idx := idx, left := left, pos := ld.pos + 1#10 })
    (range : 1 ≤ idx.toNat ∧ idx.toNat ≤ ld.n.toNat)
    (before : ∀ len, len < idx.toNat → ((ld.withSymbol b).entry len).length = ld.count len)
    (here : 0 < left.toNat ∧
      ((ld.withSymbol b).entry idx.toNat).length + left.toNat = ld.count idx.toNat)
    (after : ∀ len, idx.toNat < len → (ld.withSymbol b).entry len = []) : LoadOk ld' := by
  obtain ⟨-, -, hnodup, hlen, hseen⟩ := withSymbol_spec h hp hb
  have hlt : ld'.lt = (ld.withSymbol b).lt := by rw [hld]
  have he := Loader.entry_congr hlt
  have hs := Loader.loadedSymbols_congr hlt
  have hseen' : ld'.seen = (ld.withSymbol b).seen := by rw [hld]
  rw [Loader.withSymbol_eq] at hld
  have hcounts : ld'.counts = ld.counts := by rw [hld]
  have hc := Loader.count_congr hcounts
  have hsum := Loader.loadedCount_congr hcounts
  have hn : ld'.n = ld.n := by rw [hld]
  have hidx : ld'.idx = idx := by rw [hld]
  have hleft : ld'.left = left := by rw [hld]
  refine loadOk_of_syms (by rw [hld, hp]) (by rw [hidx, hn]; exact range)
    (by rw [hsum, hld]; exact h.total) (by rw [hsum]; exact h.total_le)
    (by rw [hc, hn]; exact h.symsLast hp) (fun len hl => ?_) (fun len hl => ?_)
    (by rw [hleft, hidx, he, hc]; exact here) (fun len hl => ?_) ?_ (hs ▸ hnodup)
    (by rw [hs, hseen']; exact hseen)
  · rw [hc]
    exact h.symsBeyond hp len (hn ▸ hl)
  · rw [he, hc]
    exact before len (hidx ▸ hl)
  · rw [he]
    exact after len (hidx ▸ hl)
  · rw [hs, hlen, hn, hld]
    exact symPos_succ h hp

/-- A symbol byte, with more to come (R266). -/
theorem loadOk_moreSymbols (h : LoadOk ld) (hp : ld.phase = .syms)
    (hb : ld.seen.getLsbD b.toNat = false) (hl : (ld.withSymbol b).left ≠ 0#9) :
    LoadOk { ld.withSymbol b with pos := ld.pos + 1#10 } := by
  obtain ⟨hentry, hleft, -⟩ := withSymbol_spec h hp hb
  have hidx : (ld.withSymbol b).idx = ld.idx := by rw [Loader.withSymbol_eq]
  refine loadOk_of_symbol (left := (ld.withSymbol b).left) h hp hb rfl ?_ (fun len hlen => ?_)
    ⟨?_, ?_⟩ (fun len hlen => ?_)
  · rw [hidx]
    exact h.range (by simp [hp])
  · rw [hidx] at hlen
    rw [hentry, if_neg (by omega)]
    exact h.symsBefore hp len hlen
  · rw [Nat.pos_iff_ne_zero]
    exact fun h0 => hl (BitVec.eq_of_toNat_eq h0)
  · have := (h.symsHere hp).2
    rw [hidx, hentry, if_pos rfl, List.length_append, List.length_singleton]
    omega
  · rw [hidx] at hlen
    rw [hentry, if_neg (by omega)]
    exact h.symsAfter hp len hlen

/-- Once LD_LEFT is 0 each length up to LD_IDX has the symbols its count announces. -/
theorem entry_length_of_left (h : LoadOk ld) (hp : ld.phase = .syms)
    (hb : ld.seen.getLsbD b.toNat = false) (hl : (ld.withSymbol b).left = 0#9) (len : Nat)
    (hlen : len ≤ ld.idx.toNat) : ((ld.withSymbol b).entry len).length = ld.count len := by
  obtain ⟨hentry, hleft, -⟩ := withSymbol_spec h hp hb
  rw [hentry]
  split
  · next he =>
    have := (h.symsHere hp).2
    rw [hl, BitVec.toNat_ofNat] at hleft
    rw [he, List.length_append, List.length_singleton]
    omega
  · exact h.symsBefore hp len (by omega)

/-- The last symbol byte of a length below N (R266). -/
theorem loadOk_nextLength (h : LoadOk ld) (hp : ld.phase = .syms)
    (hb : ld.seen.getLsbD b.toNat = false) (hl : (ld.withSymbol b).left = 0#9)
    (hi : ld.idx.toNat < ld.n.toNat) :
    LoadOk { (ld.withSymbol b).toLength ld.idx.toNat with pos := ld.pos + 1#10 } := by
  obtain ⟨hentry, -⟩ := withSymbol_spec h hp hb
  have hempty : ∀ len, ld.idx.toNat < len → (ld.withSymbol b).entry len = [] := fun len hlen => by
    rw [hentry, if_neg (by omega)]
    exact h.symsAfter hp len hlen
  have hcb : ∀ len, (ld.withSymbol b).count len = ld.count len :=
    Loader.count_congr (by rw [Loader.withSymbol_eq])
  have hnb : (ld.withSymbol b).n = ld.n := by rw [Loader.withSymbol_eq]
  obtain ⟨h1, h2, h3, h4, h5⟩ := Loader.toLength_spec (ld := ld.withSymbol b)
    (after := ld.idx.toNat) (by rw [hnb]; exact hi) (by rw [hcb, hnb]; exact h.symsLast hp)
  simp only [hcb] at h3 h4 h5
  refine loadOk_of_symbol (left := ((ld.withSymbol b).toLength ld.idx.toNat).left) h hp hb rfl
    ⟨by omega, hnb ▸ h2⟩ (fun len hlen => ?_) ⟨by rw [h3]; exact h4, ?_⟩
    (fun len hlen => hempty len (h1.trans hlen))
  · rcases Nat.lt_or_ge ld.idx.toNat len with hgt | hle
    · rw [h5 len hgt hlen, hempty len hgt, List.length_nil]
    · exact entry_length_of_left h hp hb hl len hle
  · rw [hempty _ h1, h3, List.length_nil, Nat.zero_add]

/-- The table the last symbol byte completes is a length table of R53 (R266). -/
theorem tableOk_of_complete (h : LoadOk ld) (hp : ld.phase = .syms)
    (hb : ld.seen.getLsbD b.toNat = false) (hl : (ld.withSymbol b).left = 0#9)
    (hi : ld.n.toNat ≤ ld.idx.toNat) (hk : kraftOk ld.count ld.n.toNat = true) :
    TableOk ((lengths ld.n.toNat).map (ld.withSymbol b).entry) ld.n ld.total := by
  obtain ⟨hentry, -, hnodup, -, -⟩ := withSymbol_spec h hp hb
  obtain ⟨hr1, hr2⟩ := h.range (by simp [hp])
  have hidx : ld.idx.toNat = ld.n.toNat := le_antisymm hr2 hi
  have hn255 : ld.n.toNat ≤ 255 := Nat.le_of_lt_succ ld.n.isLt
  have hlength : ∀ len, len ≤ ld.n.toNat → ((ld.withSymbol b).entry len).length = ld.count len :=
    fun len hlen => entry_length_of_left h hp hb hl len (hidx ▸ hlen)
  have hflat : ((lengths ld.n.toNat).map (ld.withSymbol b).entry).flatten =
      loadedSymbols (ld.withSymbol b) := by
    rw [← List.flatMap_def]
    refine (flatMap_lengths_of_nil hn255 fun len hlen => ?_).symm
    rw [hentry, if_neg (by omega)]
    exact h.symsAfter hp len (by omega)
  have hcounts : (lengths ld.n.toNat).map (fun len => ((ld.withSymbol b).entry len).length) =
      (lengths ld.n.toNat).map ld.count :=
    List.map_congr_left fun len hlen => hlength len ((mem_lengths _ _).1 hlen).2
  exact {
    max_pos := by omega
    size := by simp
    nsym := by
      rw [List.length_flatten, List.map_map]
      refine h.total.trans ((sum_lengths_of_zero hn255 (h.symsBeyond hp)).trans ?_)
      exact congrArg List.sum hcounts.symm
    counts := by
      intro e he
      obtain ⟨len, hlen, rfl⟩ := List.mem_map.1 he
      rw [hlength len ((mem_lengths _ _).1 hlen).2]
      exact ld.count_le len
    distinct := hflat ▸ hnodup
    last := by
      rw [ltEntry_map_lengths _ ⟨by omega, le_refl _⟩, ← List.length_pos_iff,
        hlength _ (le_refl _)]
      exact h.symsLast hp
    kraft := by
      rw [kraftSum_map_lengths]
      rw [kraftOk, Bool.or_eq_true, Bool.and_eq_true, decide_eq_true_eq, decide_eq_true_eq,
        decide_eq_true_eq] at hk
      obtain hk | ⟨hn1, hc1⟩ := hk
      · left
        rw [← hk]
        refine congrArg List.sum (List.map_congr_left fun len hlen => ?_)
        rw [hlength len ((mem_lengths _ _).1 hlen).2]
      · right
        obtain ⟨sym, hsym⟩ := List.length_eq_one_iff.1 ((hlength 1 hn1.ge).trans hc1)
        exact ⟨sym, by rw [hn1]; simp [lengths, hsym]⟩ }

end byte

/-- What a header byte accepted at a position leaves: a consistent load at the next position, or a
length table of R53. -/
def LoadStepOk (pos : BitVec 10) : LoadStep → Prop
  | .more ld => LoadOk { ld with pos := pos + 1#10 }
  | .complete lt ltMax ltNsym => TableOk lt ltMax ltNsym

theorem loadByte_keeps {lMax : Nat} {ld : Loader} {b : Byte} {l : LoadStep} (h : LoadOk ld)
    (hl : loadByte lMax ld b = .ok l) : LoadStepOk ld.pos l := by
  obtain ⟨hp, hb, -, rfl⟩ | ⟨hp, ht, hi, rfl⟩ | ⟨hp, ht, hi, hb, rfl⟩ | ⟨hp, hb, hleft, rfl⟩ |
    ⟨hp, hb, hleft, hi, rfl⟩ | ⟨hp, hb, hleft, hi, hk, rfl⟩ := loadByte_ok hl
  · exact loadOk_firstByte h hp hb rfl
  · exact loadOk_nextCount h hp ht hi rfl
  · exact loadOk_lastCount h hp ht hi hb rfl
  · exact loadOk_moreSymbols h hp hb hleft
  · exact loadOk_nextLength h hp hb hleft hi
  · exact tableOk_of_complete h hp hb hleft hi hk

end Sys2Proof.Machine

/-! PROOFS. The invariant of the whole block: each command keeps the tree, the table, the codes and
the header load what the spec says they are, and with them every step does. -/

namespace Sys2Proof.Machine

theorem blockInv_reset : BlockInv .reset where
  core := coreInv_reset
  tree := nofun
  table := nofun
  codes := nofun
  load := nofun

namespace BlockInv

variable {s t : State}

theorem of_blockKept (hk : BlockKept s t) (h : BlockInv s) : BlockInv t := by
  have hcore := h.core.of_blockKept hk
  obtain ⟨ht, -⟩ := hk
  rw [ht] at hcore ⊢
  exact { h with core := hcore }

theorem takeError (h : BlockInv s) {r : Raise} (hr : r.cause ≠ .none) : BlockInv (s.takeError r) :=
  { h with core := h.core.takeError hr }

theorem build (h : BlockInv s) (hr : buildResult s = .ok t) : BlockInv t := by
  have hcore := h.core.build hr
  obtain ⟨-, -, -, hne, rfl⟩ := buildResult_ok hr
  exact { h with
    core := hcore, tree := fun _ => buildTree_treeOk hne, table := nofun, codes := nofun }

theorem derive (h : BlockInv s) (hr : deriveResult Config.hardware s = .ok t) : BlockInv t := by
  have hcore := h.core.derive hr
  obtain ⟨ht, -⟩ := deriveResult_ok hr
  have htable := deriveResult_tableOk (le_refl _) (h.tree ht) hr
  obtain ⟨-, -, -, -, rfl⟩ := deriveResult_ok hr
  exact { h with core := hcore, tree := nofun, table := fun _ => htable, codes := nofun }

theorem assign (h : BlockInv s) (hr : assignResult s = .ok t) : BlockInv t := by
  have hcore := h.core.assign hr
  obtain ⟨-, -, rfl⟩ := assignResult_ok hr
  exact { h with core := hcore, codes := fun _ => ⟨rfl, rfl⟩ }

theorem hdrBegin (h : BlockInv s) (hr : hdrBeginResult s = .ok t) : BlockInv t := by
  have hcore := h.core.hdrBegin hr
  obtain ⟨-, -, rfl⟩ := hdrBeginResult_ok hr
  exact ⟨hcore, nofun, nofun, nofun, fun _ => loadOk_started⟩

/-- During a load no codes are held, so a completed table has none to match. -/
theorem hdrByte (h : BlockInv s) {b : Byte} (hr : hdrByteResult Config.hardware b s = .ok t) :
    BlockInv t := by
  have hcore := h.core.hdrByte hr
  obtain ⟨ha, l, hl, rfl⟩ := hdrByteResult_ok hr
  have hkeeps := loadByte_keeps (h.load ha) hl
  cases l with
  | more ld => exact { h with core := hcore, load := fun _ => hkeeps }
  | complete lt ltMax ltNsym =>
    exact { h with
      core := hcore, table := fun _ => hkeeps
      codes := of_flag_false (h.core.flags.loadNoCodes ha), load := nofun }

/-- A command whose result leaves the tree, the table, the codes and the loader alone. -/
theorem of_tables_same (h : BlockInv s) (hcore : CoreInv t)
    (ht : t = { s with
      freq := t.freq, encAct := t.encAct, encAcc := t.encAcc, decAct := t.decAct
      dbits := t.dbits, hold := t.hold, holdV := t.holdV, outq := t.outq }) : BlockInv t := by
  rw [ht] at hcore ⊢
  exact { h with core := hcore }

theorem command (h : BlockInv s) {i : Instr} (hi : i ≠ .sreset)
    (hr : commandResult Config.hardware i s = .ok t) : BlockInv t := by
  have hcore := h.core.command hi hr
  cases i with
  | nop => cases hr; exact h
  | sreset => exact absurd rfl hi
  | clrFreq => cases hr; exact h.of_tables_same hcore rfl
  | build => exact h.build hr
  | derive => exact h.derive hr
  | assign => exact h.assign hr
  | hdrEmit => obtain ⟨-, rfl, -⟩ := hdrEmitResult_ok hr; exact h.of_tables_same hcore rfl
  | hdrBegin => exact h.hdrBegin hr
  | hdrByte b => exact h.hdrByte hr
  | enc sym => obtain ⟨-, -, -, rfl⟩ := encResult_ok hr; exact h.of_tables_same hcore rfl
  | encFlush => obtain ⟨-, -, rfl⟩ := encFlushResult_ok hr; exact h.of_tables_same hcore rfl
  | decFeed b =>
    obtain ⟨-, _, _, -, -, rfl⟩ := decFeedResult_ok hr
    exact h.of_tables_same hcore rfl
  | decFinish pad =>
    obtain ⟨-, -, -, _, -, -, rfl⟩ := decFinishResult_ok hr
    exact h.of_tables_same hcore rfl

end BlockInv

/-- Settles O60: the host's accesses, a reset, an error and each command keep the invariant. -/
theorem stepKeepsTheBlockInvariant : Obligations.StepKeepsTheBlockInvariant := by
  intro s t hs h
  exact step_keeps blockInv_reset (fun _ _ hk => BlockInv.of_blockKept hk)
    (fun _ _ _ hr hi => hi.takeError hr) (fun _ _ _ hi _ hr hb => hb.command hi hr) hs h

/-- Settles O58: at reset no flag is set and everything a flag guards is empty. -/
theorem resetMeetsTheInvariants : Obligations.ResetMeetsTheInvariants :=
  ⟨coreInv_reset, blockInv_reset⟩

end Sys2Proof.Machine

/-! PROOFS. The codes ASSIGN gives are the canonical ones: symbol j of LT[L] has length L and value
first(L) + j, and no codeword begins another (spec/43_code_assigner.md rules R200 to R207,
spec/10_state.md rules R54 to R56). -/

namespace Sys2Proof.Machine

/-! ### First codewords and Kraft's sum -/

theorem firstCode_succ (lt : List (List Byte)) {len : Nat} (h : 1 ≤ len) :
    firstCode lt (len + 1) = 2 * (firstCode lt len + (ltEntry lt len).length) := by
  obtain ⟨k, rfl⟩ := Nat.exists_eq_add_of_le' h
  rfl

/-- The first codeword past length m, over Kraft's sum up to m (R202). -/
theorem firstCode_eq_sum (lt : List (List Byte)) {m n : Nat} (hm : 1 ≤ m) (hmn : m ≤ n) :
    (firstCode lt m + (ltEntry lt m).length) * 2 ^ (n - m) =
      ((lengths m).map fun len => (ltEntry lt len).length * 2 ^ (n - len)).sum := by
  induction m, hm using Nat.le_induction with
  | base => simp [firstCode, lengths]
  | succ m hm ih =>
    rw [lengths_succ, List.map_append, List.sum_append, ← ih (by omega), firstCode_succ lt hm,
      show n - m = n - (m + 1) + 1 by omega]
    simp only [List.map_cons, List.map_nil, List.sum_cons, List.sum_nil]
    ring

/-- Each longer length's codewords come after every shorter codeword's extensions (R202). -/
theorem firstCode_past (lt : List (List Byte)) {m n : Nat} (hm : 1 ≤ m) (hmn : m < n) :
    (firstCode lt m + (ltEntry lt m).length) * 2 ^ (n - m) ≤ firstCode lt n := by
  induction n, hmn using Nat.le_induction with
  | base => rw [firstCode_succ lt hm, Nat.succ_eq_add_one, Nat.add_sub_cancel_left]; omega
  | succ n hn ih =>
    rw [firstCode_succ lt (by omega), Nat.succ_sub (by omega), pow_succ, ← mul_assoc, mul_comm 2]
    exact Nat.mul_le_mul_right 2 (ih.trans (Nat.le_add_right _ _))

/-! ### The table's entries -/

theorem nodup_entries {lt : List (List Byte)} (h : lt.flatten.Nodup) :
    (∀ len ∈ lengths lt.length, (ltEntry lt len).Nodup) ∧
      (lengths lt.length).Pairwise (Function.onFun List.Disjoint (ltEntry lt)) := by
  rw [← List.nodup_flatMap, List.flatMap_def, map_ltEntry_lengths]
  exact h

namespace TableOk

variable {lt : List (List Byte)} {ltMax : BitVec 8} {ltNsym : BitVec 9}

theorem entry_nodup (h : TableOk lt ltMax ltNsym) {len : Nat} (h1 : 1 ≤ len)
    (hm : len ≤ ltMax.toNat) : (ltEntry lt len).Nodup :=
  (nodup_entries h.distinct).1 len ((mem_lengths _ _).2 ⟨h1, h.size ▸ hm⟩)

/-- A symbol has one length only. -/
theorem length_unique (h : TableOk lt ltMax ltNsym) {len len' : Nat} {sym : Byte}
    (h1 : 1 ≤ len ∧ len ≤ ltMax.toNat) (h1' : 1 ≤ len' ∧ len' ≤ ltMax.toNat)
    (hs : sym ∈ ltEntry lt len) (hs' : sym ∈ ltEntry lt len') : len = len' := by
  by_contra hne
  have hsymm : Std.Symm (Function.onFun List.Disjoint (ltEntry lt)) := ⟨fun _ _ hd => hd.symm⟩
  rw [← h.size, ← mem_lengths] at h1 h1'
  exact (nodup_entries h.distinct).2.forall h1 h1' hne hs hs'

/-- Kraft's sum of a table of R53 is at most 2^LT_MAX. -/
theorem kraft_le (h : TableOk lt ltMax ltNsym) : kraftSum lt ltMax.toNat ≤ 2 ^ ltMax.toNat := by
  obtain hk | ⟨sym, hs⟩ := h.kraft
  · exact hk.le
  · have hmax : ltMax.toNat = 1 := by rw [← h.size, hs]; rfl
    rw [hmax, hs]
    simp [kraftSum, lengths, ltEntry]

/-- The codewords of length L are L bits wide (R203). -/
theorem codes_fit (h : TableOk lt ltMax ltNsym) {len : Nat} (h1 : 1 ≤ len)
    (hm : len ≤ ltMax.toNat) : firstCode lt len + (ltEntry lt len).length ≤ 2 ^ len := by
  refine Nat.le_of_mul_le_mul_right ?_ (Nat.two_pow_pos (ltMax.toNat - len))
  rw [firstCode_eq_sum lt h1 hm, ← pow_add, Nat.add_sub_cancel' hm]
  refine le_trans ?_ h.kraft_le
  obtain ⟨rest, hr, -⟩ := lengths_append hm
  rw [kraftSum, hr, List.map_append, List.sum_append]
  exact Nat.le_add_right _ _

/-- No codeword comes near the end of CODE_VAL's 255 bits. -/
theorem codes_lt (h : TableOk lt ltMax ltNsym) {len : Nat} (h1 : 1 ≤ len)
    (hm : len ≤ ltMax.toNat) : firstCode lt len + (ltEntry lt len).length ≤ 2 ^ 255 :=
  (h.codes_fit h1 hm).trans
    (Nat.pow_le_pow_right two_pos (hm.trans (Nat.le_of_lt_succ ltMax.isLt)))

end TableOk

/-! ### The assignment -/

theorem fileGet_giveCode_len (len : Nat) (t : CodeTables) (x sym : Byte) :
    fileGet (t.giveCode len x).len sym =
      if sym = x then BitVec.ofNat 8 len else fileGet t.len sym := by
  split
  · next h => rw [h]; exact fileGet_fileSet_same _ _ _
  · next h => exact fileGet_fileSet_ne _ _ h

theorem fileGet_giveCode_val (len : Nat) (t : CodeTables) (x sym : Byte) :
    fileGet (t.giveCode len x).val sym =
      if sym = x then t.counter.setWidth 255 else fileGet t.val sym := by
  split
  · next h => rw [h]; exact fileGet_fileSet_same _ _ _
  · next h => exact fileGet_fileSet_ne _ _ h

/-- The symbols of one length, none repeated, take the counter's values in turn (R201). -/
theorem foldl_giveCode (len : Nat) {xs : List Byte} (hnd : xs.Nodup) (t : CodeTables) :
    (xs.foldl (CodeTables.giveCode len) t).counter = t.counter + BitVec.ofNat 256 xs.length ∧
      (∀ j sym, xs[j]? = some sym →
        fileGet (xs.foldl (CodeTables.giveCode len) t).len sym = BitVec.ofNat 8 len ∧
        fileGet (xs.foldl (CodeTables.giveCode len) t).val sym =
          (t.counter + BitVec.ofNat 256 j).setWidth 255) ∧
      ∀ sym, sym ∉ xs →
        fileGet (xs.foldl (CodeTables.giveCode len) t).len sym = fileGet t.len sym ∧
        fileGet (xs.foldl (CodeTables.giveCode len) t).val sym = fileGet t.val sym := by
  induction xs using List.reverseRecOn with
  | nil => simp
  | append_singleton xs x ih =>
    obtain ⟨hnd, -, hdis⟩ := List.nodup_append.1 hnd
    have hx : ∀ sym ∈ xs, sym ≠ x := fun sym hs => hdis sym hs x (List.mem_singleton_self x)
    obtain ⟨hcounter, hgiven, hother⟩ := ih hnd
    rw [List.foldl_append, List.foldl_cons, List.foldl_nil]
    simp only [fileGet_giveCode_len, fileGet_giveCode_val, hcounter]
    refine ⟨?_, fun j sym hj => ?_, fun sym hs => ?_⟩
    · rw [CodeTables.giveCode, hcounter, List.length_append, List.length_singleton,
        BitVec.ofNat_add, BitVec.add_assoc]
    · rcases Nat.lt_or_ge j xs.length with hlt | hge
      · rw [List.getElem?_append_left hlt] at hj
        have := hx sym (List.mem_of_getElem? hj)
        rw [if_neg this, if_neg this]
        exact hgiven j sym hj
      · rw [List.getElem?_append_right hge, List.getElem?_singleton] at hj
        split at hj
        · next h0 =>
          obtain rfl : j = xs.length := by omega
          cases hj
          rw [if_pos rfl, if_pos rfl]
          exact ⟨rfl, rfl⟩
        · cases hj
    · rw [List.mem_append, List.mem_singleton, not_or] at hs
      rw [if_neg hs.2, if_neg hs.2]
      exact hother sym hs.1

/-- What the tables hold once lengths 1..m are assigned (R200 to R202). -/
structure CodesUpTo (lt : List (List Byte)) (m : Nat) (t : CodeTables) : Prop where
  counter : 2 * t.counter.toNat = firstCode lt (m + 1)
  given : ∀ len j sym, 1 ≤ len → len ≤ m → (ltEntry lt len)[j]? = some sym →
    fileGet t.len sym = BitVec.ofNat 8 len ∧
      (fileGet t.val sym).toNat = firstCode lt len + j
  other : ∀ sym, (∀ len, 1 ≤ len → len ≤ m → sym ∉ ltEntry lt len) →
    fileGet t.len sym = 0#8 ∧ fileGet t.val sym = 0#255

theorem assignCodes_succ (lt : List (List Byte)) (m : Nat) :
    assignCodes lt (m + 1) = (assignCodes lt m).giveLength lt (m + 1) := by
  rw [assignCodes, lengths_succ, List.foldl_append]
  rfl

/-- One more length keeps it, as long as the table's codewords fit (R203). -/
theorem CodesUpTo.giveLength {lt : List (List Byte)} {ltMax : BitVec 8} {ltNsym : BitVec 9}
    (ht : TableOk lt ltMax ltNsym) {m : Nat} (hm : m + 1 ≤ ltMax.toNat) {t : CodeTables}
    (h : CodesUpTo lt m t) : CodesUpTo lt (m + 1) (t.giveLength lt (m + 1)) := by
  have h1 : 1 ≤ m + 1 := Nat.le_add_left 1 m
  have hfit := ht.codes_lt h1 hm
  have hshift : (t.counter <<< 1).toNat = firstCode lt (m + 1) := by
    rw [BitVec.toNat_shiftLeft, Nat.shiftLeft_eq, pow_one, mul_comm, h.counter,
      Nat.mod_eq_of_lt (by omega)]
  have hvalue : ∀ j, firstCode lt (m + 1) + j ≤ 2 ^ 255 →
      (t.counter <<< 1 + BitVec.ofNat 256 j).toNat = firstCode lt (m + 1) + j := by
    intro j hj
    rw [BitVec.toNat_add, hshift, BitVec.toNat_ofNat, Nat.mod_eq_of_lt (a := j) (by omega),
      Nat.mod_eq_of_lt (by omega)]
  obtain ⟨hcounter, hgiven, hother⟩ := foldl_giveCode (m + 1) (ht.entry_nodup h1 hm)
    { t with counter := t.counter <<< 1 }
  refine ⟨?_, fun len j sym hl hle hj => ?_, fun sym hs => ?_⟩
  · rw [firstCode_succ lt h1, CodeTables.giveLength, hcounter, hvalue _ hfit]
  · rcases Nat.lt_or_ge m len with hlt | hge
    · obtain rfl : len = m + 1 := by omega
      obtain ⟨hlen, hval⟩ := hgiven j sym hj
      have hjl := (List.getElem?_eq_some_iff.1 hj).1
      refine ⟨hlen, ?_⟩
      rw [CodeTables.giveLength, hval, BitVec.toNat_setWidth, hvalue j (by omega),
        Nat.mod_eq_of_lt (by omega)]
    · have hs : sym ∉ ltEntry lt (m + 1) := fun hs => by
        have := ht.length_unique ⟨hl, by omega⟩ ⟨h1, hm⟩ (List.mem_of_getElem? hj) hs
        omega
      rw [CodeTables.giveLength, (hother sym hs).1, (hother sym hs).2]
      exact h.given len j sym hl hge hj
  · have := hother sym (hs (m + 1) h1 (le_refl _))
    rw [CodeTables.giveLength, this.1, this.2]
    exact h.other sym fun len hl hle => hs len hl (Nat.le_succ_of_le hle)

theorem assignCodes_upTo {lt : List (List Byte)} {ltMax : BitVec 8} {ltNsym : BitVec 9}
    (ht : TableOk lt ltMax ltNsym) {m : Nat} (hm : m ≤ ltMax.toNat) :
    CodesUpTo lt m (assignCodes lt m) := by
  induction m with
  | zero => exact ⟨rfl, fun len _ _ h1 h0 => absurd h1 (by omega), fun sym _ => by
      simp [assignCodes, CodeTables.zero]⟩
  | succ m ih =>
    rw [assignCodes_succ]
    exact (ih (Nat.le_of_succ_le hm)).giveLength ht hm

/-! ### The codes held -/

@[simp] theorem State.codeword_length (s : State) (sym : Byte) :
    (s.codeword sym).length = codeLength s sym := bitsMsb_length _ _

namespace CodesOk

variable {s : State}

theorem upTo (h : CodesOk s) :
    CodesUpTo s.lt s.ltMax.toNat (assignCodes s.lt s.ltMax.toNat) :=
  assignCodes_upTo h.2.1 (le_refl _)

/-- Symbol j of LT[L] has length L and value first(L) + j (R201, R202). -/
theorem code_of_entry (h : CodesOk s) {len j : Nat} {sym : Byte} (h1 : 1 ≤ len)
    (hm : len ≤ s.ltMax.toNat) (hj : (ltEntry s.lt len)[j]? = some sym) :
    codeLength s sym = len ∧ (fileGet s.codeVal sym).toNat = firstCode s.lt len + j := by
  obtain ⟨hlen, hval⟩ := h.upTo.given len j sym h1 hm hj
  obtain ⟨-, -, hl, hv⟩ := h
  rw [codeLength, hl, hv, hlen, BitVec.toNat_ofNat,
    Nat.mod_eq_of_lt (hm.trans_lt s.ltMax.isLt)]
  exact ⟨rfl, hval⟩

/-- A symbol with a code stands in the table under its length. -/
theorem entry_of_code (h : CodesOk s) {sym : Byte} (hc : HasCode s sym) :
    1 ≤ codeLength s sym ∧ codeLength s sym ≤ s.ltMax.toNat ∧ ∃ j,
      (ltEntry s.lt (codeLength s sym))[j]? = some sym ∧
        (fileGet s.codeVal sym).toNat = firstCode s.lt (codeLength s sym) + j := by
  have hmem : ∃ len, 1 ≤ len ∧ len ≤ s.ltMax.toNat ∧ sym ∈ ltEntry s.lt len := by
    by_contra hn
    refine hc ?_
    rw [h.2.2.1]
    exact (h.upTo.other sym fun len h1 hm hs => hn ⟨len, h1, hm, hs⟩).1
  obtain ⟨len, h1, hm, hs⟩ := hmem
  obtain ⟨j, hj⟩ := List.getElem?_of_mem hs
  obtain ⟨hlen, hval⟩ := h.code_of_entry h1 hm hj
  rw [hlen]
  exact ⟨h1, hm, j, hj, hval⟩

/-- A codeword's value fits its length (R203). -/
theorem codeVal_lt (h : CodesOk s) {sym : Byte} (hc : HasCode s sym) :
    (fileGet s.codeVal sym).toNat < 2 ^ codeLength s sym := by
  obtain ⟨h1, hm, j, hj, hval⟩ := h.entry_of_code hc
  have := h.2.1.codes_fit h1 hm
  have := (List.getElem?_eq_some_iff.1 hj).1
  omega

theorem bitsVal_codeword (h : CodesOk s) {sym : Byte} (hc : HasCode s sym) :
    bitsVal (s.codeword sym) = (fileGet s.codeVal sym).toNat := by
  rw [State.codeword, bitsVal_bitsMsb]
  exact Nat.mod_eq_of_lt (h.codeVal_lt hc)

end CodesOk

/-- The value of a sequence extended by more bits. -/
theorem bitsVal_append (a b : BitSeq) :
    bitsVal (a ++ b) = bitsVal a * 2 ^ b.length + bitsVal b := by
  induction b using List.reverseRecOn with
  | nil => simp
  | append_singleton b x ih =>
    rw [← List.append_assoc, bitsVal_append_singleton, ih, bitsVal_append_singleton,
      List.length_append, List.length_singleton, pow_succ]
    ring

/-- R55, at its core: a symbol's codeword begins no other's. -/
theorem CodesOk.eq_of_codeword_append {s : State} (h : CodesOk s) {a b : Byte} (ha : HasCode s a)
    (hb : HasCode s b) {more : BitSeq} (he : s.codeword b = s.codeword a ++ more) : a = b := by
  obtain ⟨ha1, ham, i, hi, hav⟩ := h.entry_of_code ha
  obtain ⟨hb1, hbm, j, hj, hbv⟩ := h.entry_of_code hb
  have hlen : codeLength s b = codeLength s a + more.length := by
    simpa using congrArg List.length he
  have hval := congrArg bitsVal he
  rw [bitsVal_append, h.bitsVal_codeword ha, h.bitsVal_codeword hb] at hval
  rcases Nat.eq_zero_or_pos more.length with h0 | hpos
  · rw [List.eq_nil_of_length_eq_zero h0] at hval hlen
    rw [hlen] at hj hbv
    simp only [List.length_nil, Nat.add_zero, pow_zero, mul_one, bitsVal_nil] at hval hj hbv
    obtain rfl : i = j := by omega
    exact Option.some.inj (hi.symm.trans hj)
  · have hpast := firstCode_past s.lt ha1 (n := codeLength s b) (by omega)
    have hil := (List.getElem?_eq_some_iff.1 hi).1
    have hlt := bitsVal_lt more
    rw [show codeLength s b - codeLength s a = more.length by omega] at hpast
    have hle : (fileGet s.codeVal a).toNat + 1 ≤
        firstCode s.lt (codeLength s a) + (ltEntry s.lt (codeLength s a)).length := by omega
    have := Nat.mul_le_mul_right (2 ^ more.length) hle
    rw [Nat.add_mul, one_mul] at this
    omega

/-- Settles O23: in the canonical order a longer codeword lies past all extensions of a shorter. -/
theorem codewordsArePrefixFree : Obligations.CodewordsArePrefixFree := by
  intro s h a b hab ha hb
  exact ⟨fun he => hab (h.eq_of_codeword_append ha hb (more := []) (by simpa using he.symm)),
    fun more he => hab (h.eq_of_codeword_append ha hb he)⟩

/-- Settles O24: no two symbols share a length and a value, so the search finds the one that has
them. -/
theorem decodeViewInvertsTheEncodeView : Obligations.DecodeViewInvertsTheEncodeView := by
  intro s h sym len v
  refine ⟨dmapLookup_eq_some, ?_⟩
  rintro ⟨hpos, rfl, rfl⟩
  cases hd : s.dmap (codeLength s sym) (fileGet s.codeVal sym).toNat with
  | none => exact absurd ⟨hpos, rfl, rfl⟩ (dmapLookup_eq_none.1 hd sym)
  | some sym' =>
    obtain ⟨-, hlen, hval⟩ := dmapLookup_eq_some hd
    have hcode : ∀ {x}, codeLength s x = codeLength s sym → HasCode s x := fun hx h0 => by
      rw [← hx, codeLength, h0] at hpos
      exact absurd hpos (by decide)
    have hword : s.codeword sym = s.codeword sym' := by
      rw [State.codeword, State.codeword, hlen, hval]
      rfl
    rw [h.eq_of_codeword_append (more := []) (hcode hlen) (hcode rfl) (by simpa using hword)]

end Sys2Proof.Machine

/-! PROOFS. The step of the decoded command, the output queue, the register window and the values
after reset (spec/10_state.md rules R31 to R49, R61, R65). -/

namespace Sys2Proof.Machine

/-! ### Steps and the queue -/

/-- Settles O4: the latched word is the one fetched, and exec is execIn, step is stepIn. -/
theorem stepRunsTheDecodedCommand : Obligations.StepRunsTheDecodedCommand := by
  refine ⟨fun s c i hc hl hd => ?_, exec_eq_execIn, step_eq_stepIn, rfl, rfl⟩
  have hf : fetchCommand s = some (c.word, { s with cmd := none }) :=
    fetchCommand_eq_some.2 ⟨c, hc, hl, rfl, rfl⟩
  simp only [step, hf, hd]

/-- A command's result only appends to OUTQ, and only what fits (R61). -/
theorem commandResult_outq {p : Params} {i : Instr} {s t : State} (hi : i ≠ .sreset)
    (h : commandResult p i s = .ok t) : t.outq = s.outq ∨
      ((i = .hdrEmit ∨ i = .encFlush ∨ (∃ x, i = .enc x) ∨ (∃ b, i = .decFeed b) ∨
          ∃ pad, i = .decFinish pad) ∧
        ∃ out, t.outq = s.outq ++ out ∧ s.outq.length + out.length ≤ p.outqDepth) := by
  cases i with
  | nop => cases h; exact .inl rfl
  | sreset => exact absurd rfl hi
  | clrFreq => cases h; exact .inl rfl
  | build => obtain ⟨-, -, -, -, rfl⟩ := buildResult_ok h; exact .inl rfl
  | derive => obtain ⟨-, -, -, -, rfl⟩ := deriveResult_ok h; exact .inl rfl
  | assign => obtain ⟨-, -, rfl⟩ := assignResult_ok h; exact .inl rfl
  | hdrBegin => obtain ⟨-, -, rfl⟩ := hdrBeginResult_ok h; exact .inl rfl
  | hdrByte b => obtain ⟨-, l, -, rfl⟩ := hdrByteResult_ok h; cases l <;> exact .inl rfl
  | hdrEmit =>
    obtain ⟨-, rfl, hl⟩ := hdrEmitResult_ok h
    exact .inr ⟨by simp, _, rfl, hl⟩
  | enc sym =>
    obtain ⟨-, -, hl, rfl⟩ := encResult_ok h
    exact .inr ⟨by simp, _, rfl, by simpa using hl⟩
  | encFlush =>
    obtain ⟨-, hl, rfl⟩ := encFlushResult_ok h
    exact .inr ⟨by simp, _, rfl, hl⟩
  | decFeed b =>
    obtain ⟨-, _, _, -, hl, rfl⟩ := decFeedResult_ok h
    exact .inr ⟨by simp, _, rfl, hl⟩
  | decFinish pad =>
    obtain ⟨-, -, -, _, -, hl, rfl⟩ := decFinishResult_ok h
    exact .inr ⟨by simp, _, rfl, hl⟩

/-- Settles O41: a command that is ignored or takes an error leaves OUTQ, and a result appends. -/
theorem commandsOnlyAppendToTheQueue : Obligations.CommandsOnlyAppendToTheQueue := by
  intro i s t hi h
  have hsame : ∀ u : State, u.outq = s.outq → ∃ out : List Byte, u.outq = s.outq ++ out ∧
      (s.outq.length ≤ 1024 → u.outq.length ≤ 1024) ∧
      (out ≠ [] → i = .hdrEmit ∨ i = .encFlush ∨ (∃ x, i = .enc x) ∨ (∃ b, i = .decFeed b) ∨
        ∃ p, i = .decFinish p) :=
    fun u hu => ⟨[], by simp [hu], by simp [hu], fun hne => absurd rfl hne⟩
  obtain ⟨rfl, -⟩ | ⟨-, -, rfl⟩ | ⟨-, -, hr⟩ | ⟨e, -, -, -, rfl⟩ := exec_cases h
  · exact absurd rfl hi
  · exact hsame t rfl
  · obtain hu | ⟨hpush, out, hout, hl⟩ := commandResult_outq hi hr
    · exact hsame t hu
    · exact ⟨out, hout, fun _ => by simpa [hout] using hl, fun _ => hpush⟩
  · exact hsame _ rfl

/-! ### Words made of fields -/

theorem getLsbD_flagBit (b : Bool) {n : Nat} (hn : n < 32) (i : Nat) :
    (flagBit b n).getLsbD i = (b && decide (i = n)) := by
  cases b with
  | false => simp [flagBit]
  | true =>
    rw [flagBit, if_pos rfl, BitVec.getLsbD_shiftLeft, BitVec.getLsbD_one, Bool.eq_iff_iff]
    simp only [Bool.and_eq_true, Bool.not_eq_true', decide_eq_true_eq, decide_eq_false_iff_not,
      true_and]
    omega

/-- Two fields side by side add up. -/
theorem toNat_or_shiftLeft {x y : Word} {n : Nat} (hx : x.toNat < 2 ^ n)
    (hy : y.toNat * 2 ^ n < 2 ^ 32) : (x ||| y <<< n).toNat = x.toNat + y.toNat * 2 ^ n := by
  rw [BitVec.toNat_or, BitVec.toNat_shiftLeft, Nat.shiftLeft_eq, Nat.mod_eq_of_lt hy, Nat.or_comm,
    ← Nat.shiftLeft_eq, ← Nat.shiftLeft_add_eq_or_of_lt hx, Nat.shiftLeft_eq, Nat.add_comm]

theorem setWidth_eq_zero_append {n : Nat} (x : BitVec n) (m : Nat) :
    x.setWidth (m + n) = 0#m ++ x := by
  apply BitVec.eq_of_toNat_eq
  simp [BitVec.toNat_append, Nat.mod_eq_of_lt (x.isLt.trans_le (Nat.pow_le_pow_right two_pos
    (Nat.le_add_left n m)))]

/-- Every bit of STATUS (R36). -/
theorem getLsbD_statusWord (s : State) (i : Nat) : s.statusWord.getLsbD i =
    (s.busy && decide (i = 0) || s.err && decide (i = 1) || s.treeValid && decide (i = 2) ||
      s.ltValid && decide (i = 3) || s.codesValid && decide (i = 4) ||
      s.ld.active && decide (i = 5) || s.encAct && decide (i = 6) ||
      s.decAct && decide (i = 7) || s.holdV && decide (i = 8) || s.irq && decide (i = 9)) := by
  simp [State.statusWord, BitVec.getLsbD_or, getLsbD_flagBit]

/-! ### Writes that are ignored -/

/-- A write at an offset whose register the host cannot write changes nothing. -/
theorem busWrite_of_readOnly (s : State) {off : Offset} (v : Word) (hctrl : regAt off ≠ .ctrl)
    (hcmd : regAt off ≠ .cmd) (hsel : regAt off ≠ .codeSel)
    (hfreq : ∀ sym, regAt off ≠ .freq sym) : s.busWrite off v = s := by
  obtain h | ⟨-, h, -⟩ | ⟨-, h, -⟩ | ⟨-, h, -⟩ | ⟨sym, -, h, -⟩ := busWrite_cases s off v
  · exact h
  · exact absurd h hctrl
  · exact absurd h hcmd
  · exact absurd h hsel
  · exact absurd h (hfreq sym)

/-- Only three offsets below FREQ hold a register the host can write. -/
theorem regAt_ne_writable {off : Offset} (hctrl : off.toNat ≠ 0x008) (hcmd : off.toNat ≠ 0x018)
    (hsel : off.toNat ≠ 0x030) :
    regAt off ≠ .ctrl ∧ regAt off ≠ .cmd ∧ regAt off ≠ .codeSel := by
  unfold regAt
  generalize off.toNat = o at hctrl hcmd hsel
  simp only [hctrl, hcmd, hsel, if_false]
  refine ⟨?_, ?_, ?_⟩
  all_goals
    repeat' (apply regIte_ne)
    all_goals exact Reg.noConfusion

theorem regAt_reserved {off : Offset} (h : 0x058 ≤ off.toNat) (hlt : off.toNat < 0x400) :
    regAt off = .reserved := by
  simp only [regAt]
  rw [if_neg (by omega), if_pos h]

/-- Settles O52: no offset below FREQ but the three holds a register a write can change. -/
theorem readOnlyAndReservedOffsetsIgnoreWrites :
    Obligations.ReadOnlyAndReservedOffsetsIgnoreWrites := by
  intro s off v _ hlt hctrl hcmd hsel
  have hne : ∀ {o : Offset}, off ≠ o → off.toNat ≠ o.toNat :=
    fun h he => h (BitVec.eq_of_toNat_eq he)
  obtain ⟨h1, h2, h3⟩ := regAt_ne_writable (hne hctrl) (hne hcmd) (hne hsel)
  exact ⟨busWrite_of_readOnly s v h1 h2 h3 (regAt_ne_freq hlt),
    fun h => by rw [regAt_reserved h hlt]; rfl⟩

/-! ### The registers -/

/-- Settles O44: the value recorded is VALID and the head, and the tail of the queue stays. -/
theorem outDataReadPopsTheQueue : Obligations.OutDataReadPopsTheQueue := by
  intro s hb
  have hread : s.busRead 0x01C#11 =
      { s.recordRead 0x01C#11 s.outDataWord with outq := s.outq.tail } := by
    rw [State.busRead, hb]
    rfl
  refine ⟨fun b rest hq => ?_, fun hq => ?_, fun v => ?_⟩
  · have hword : s.outDataWord = 1#1 ++ 0#23 ++ b := by
      simp only [State.outDataWord, hq]
      rw [setWidth_eq_zero_append b 24]
      calc 0x80000000#32 ||| (0#24 ++ b)
        _ = (0x800000#24 ++ 0#8) ||| (0#24 ++ b) := rfl
        _ = (0x800000#24 ||| 0#24) ++ (0#8 ||| b) := BitVec.or_append
        _ = (1#1 ++ 0#23) ++ b := by rw [BitVec.zero_or]; rfl
    rw [hread, hword, hq]
    rfl
  · have hword : s.outDataWord = 0#32 := by simp only [State.outDataWord, hq]
    rw [hread, hword, hq, List.tail_nil, ← hq]
    rfl
  · exact busWrite_of_readOnly s v (by simp) (by simp) (by simp) (by simp)

theorem paramWord_toNat {p : Params} (hl : p.lMax ≤ 255) (hd : p.outqDepth < 2 ^ 16) :
    (paramWord p).toNat = p.lMax + p.outqDepth * 2 ^ 16 := by
  have hx : ((BitVec.ofNat 8 p.lMax).setWidth 32).toNat = p.lMax := by
    simp only [BitVec.toNat_setWidth, BitVec.toNat_ofNat]
    omega
  have hy : ((BitVec.ofNat 16 p.outqDepth).setWidth 32).toNat = p.outqDepth := by
    simp only [BitVec.toNat_setWidth, BitVec.toNat_ofNat]
    omega
  rw [paramWord, toNat_or_shiftLeft (by omega) (by omega), hx, hy]

/-- Settles O46, register by register; the fields of PARAM are side by side. -/
theorem registersReadTheirFields : Obligations.RegistersReadTheirFields := by
  refine ⟨fun p s hp hd => ?_, fun s => ⟨rfl, rfl, ?_, rfl, rfl, fun hq => ?_,
    setWidth_eq_zero_append _ 24, setWidth_eq_zero_append _ 23, setWidth_eq_zero_append _ 24,
    setWidth_eq_zero_append _ 24⟩⟩
  · simp only [Params.legal, Bool.and_eq_true, decide_eq_true_eq] at hp
    exact paramWord_toNat hp.2 hd
  · simp only [regAt_cause, State.regWord]
    cases s.cause <;> rfl
  · simp only [regAt_outCount, State.regWord, BitVec.toNat_setWidth, BitVec.toNat_ofNat]
    omega

/-- Settles O47, by the bits of STATUS. -/
theorem statusBits : Obligations.StatusBits := by
  refine ⟨fun s v => busWrite_of_readOnly s v (by simp) (by simp) (by simp) (by simp), rfl,
    fun s => ?_⟩
  simp only [regAt_status, State.regWord, getLsbD_statusWord, State.irq]
  refine ⟨by simp, by simp, by simp, by simp, by simp, by simp, by simp, by simp, by simp, by simp,
    fun n hn => ?_⟩
  have hne : ∀ k < 10, decide (n = k) = false := fun k hk => decide_eq_false (by omega)
  simp (disch := decide) only [hne, Bool.and_false, Bool.or_self]

/-- BITPOS as a number: its three fields side by side. -/
theorem bitPosWord_toNat {s : State} (he : s.encAcc.length ≤ 7) (hd : s.dbits.length ≤ 262) :
    s.bitPosWord.toNat = s.encAcc.length +
      (bitsByte (s.encAcc ++ zeroBits (8 - s.encAcc.length))).toNat * 2 ^ 8 +
      s.dbits.length * 2 ^ 16 := by
  rw [State.bitPosWord]
  generalize bitsByte _ = b
  have hb := b.isLt
  have hx : ((BitVec.ofNat 3 s.encAcc.length).setWidth 32 : Word).toNat = s.encAcc.length := by
    simp only [BitVec.toNat_setWidth, BitVec.toNat_ofNat]
    omega
  have hy : (b.setWidth 32 : Word).toNat = b.toNat := by
    simp only [BitVec.toNat_setWidth]
    omega
  have hz : ((BitVec.ofNat 9 s.dbits.length).setWidth 32 : Word).toNat = s.dbits.length := by
    simp only [BitVec.toNat_setWidth, BitVec.toNat_ofNat]
    omega
  have hxy := toNat_or_shiftLeft (x := (BitVec.ofNat 3 s.encAcc.length).setWidth 32)
    (y := b.setWidth 32) (n := 8) (by omega) (by omega)
  rw [toNat_or_shiftLeft (by omega) (by omega), hxy, hx, hy, hz]

/-- Settles O48: each field is a quotient and a remainder of BITPOS as a number. -/
theorem bitPosFields : Obligations.BitPosFields := by
  intro s he hd
  have hw := bitPosWord_toNat he hd
  have hb : (bitsByte (s.encAcc ++ zeroBits (8 - s.encAcc.length))).toNat < 256 := BitVec.isLt _
  have hfield : ∀ start len, (s.bitPosWord.extractLsb' start len).toNat =
      s.bitPosWord.toNat / 2 ^ start % 2 ^ len := fun start len => by
    rw [BitVec.extractLsb'_toNat, Nat.shiftRight_eq_div_pow]
  have hbyte : s.bitPosWord.extractLsb' 8 8 =
      bitsByte (s.encAcc ++ zeroBits (8 - s.encAcc.length)) := by
    apply BitVec.eq_of_toNat_eq
    rw [hfield, hw]
    omega
  refine ⟨?_, ?_, ?_, ?_, ?_⟩
  · rw [regAt_bitPos, State.regWord, hfield, hw]
    omega
  · apply BitVec.eq_of_toNat_eq
    rw [regAt_bitPos, State.regWord, hfield, hw, BitVec.toNat_ofNat]
    omega
  · rw [regAt_bitPos, State.regWord, hbyte, byteBits_bitsByte (by simp; omega)]
    rfl
  · rw [regAt_bitPos, State.regWord, hfield, hw]
    omega
  · apply BitVec.eq_of_toNat_eq
    rw [regAt_bitPos, State.regWord, hfield, hw, BitVec.toNat_ofNat]
    omega

/-- Settles O49, by the bits of the extracted word. -/
theorem codeWordsShowTheSelectedCodeword : Obligations.CodeWordsShowTheSelectedCodeword := by
  intro s k b hk hb
  rw [regAt_codeWord hk, State.regWord, State.codeWord, BitVec.getLsbD_extractLsb',
    BitVec.getLsbD_setWidth, decide_eq_true hb, decide_eq_true (by omega), Bool.true_and,
    Bool.true_and]

/-- Settles O50, by the value of the two bits, and by POLICY and IE for the read. -/
theorem ctrlWritesPolicyAndInterruptEnable :
    Obligations.CtrlWritesPolicyAndInterruptEnable := by
  refine ⟨rfl, rfl, fun s v hb => ?_, fun s => ?_⟩
  · have hbits : ∀ k, v.toNat % 4 = k → v.extractLsb' 0 2 = BitVec.ofNat 2 k := by
      rintro _ rfl
      apply BitVec.eq_of_toNat_eq
      simp
    refine ⟨s.policy.written (v.extractLsb' 0 2), busWrite_idle hb _ _, ?_, ?_, ?_, ?_⟩
    all_goals
      intro h
      rw [hbits _ h]
      rfl
  · simp only [regAt_ctrl, State.regWord, State.ctrlWord]
    cases s.policy <;> cases s.ie <;> rfl

/-- Settles O51, by the rules of reading a file after a write of it. -/
theorem freqAndCodeSelReadBackWhatIsWritten :
    Obligations.FreqAndCodeSelReadBackWhatIsWritten := by
  refine ⟨fun s sym v hb => ?_, fun s v hb => ?_⟩
  · have hw : s.busWrite (freqOffset sym) v = { s with freq := fileSet s.freq sym v } := by
      rw [busWrite_idle hb, State.writeIdle, regAt_freqOffset]
    refine ⟨fileSet s.freq sym v, hw, fileGet_fileSet_same _ _ _,
      fun x hx => fileGet_fileSet_ne _ _ hx, ?_, freqOffset_toNat sym⟩
    rw [hw, regAt_freqOffset]
    exact fileGet_fileSet_same _ _ _
  · have hv : v.extractLsb' 0 8 = BitVec.ofNat 8 (v.toNat % 256) := by
      apply BitVec.eq_of_toNat_eq
      simp
    have hw : s.busWrite 0x030#11 v = { s with codeSel := BitVec.ofNat 8 (v.toNat % 256) } := by
      rw [busWrite_idle hb, ← hv]
      rfl
    refine ⟨hw, ?_⟩
    rw [hw]
    simp only [regAt_codeSel, State.regWord, BitVec.toNat_setWidth, BitVec.toNat_ofNat]
    omega

/-- Settles O54: with ERR = 0, or for SRESET's word, a CMD write is not ignored. -/
theorem cmdWriteIssuesTheCommand : Obligations.CmdWriteIssuesTheCommand := by
  intro s w hb he
  have hw : s.busWrite 0x018#11 w = s.issue w := busWrite_idle hb _ _
  obtain ⟨h1, h2, -⟩ | ⟨-, h⟩ := issue_cases s w
  · exact absurd he (by simp [h1, show w ≠ 0x01000000#32 from h2])
  · rw [hw, h]
    exact ⟨_, _, rfl, by simp [getLsbD_statusWord, State.busy]⟩

/-! ### Reset -/

/-- Settles O56, element by element; with every CODE_LEN 0 the decode view is empty. -/
theorem resetValues : Obligations.ResetValues := by
  refine ⟨rfl, rfl, fileGet_replicate _, rfl, rfl, rfl, rfl, rfl, rfl, rfl, rfl, rfl, rfl, rfl, rfl,
    rfl, rfl, fun sym => ⟨fileGet_replicate _ sym, fileGet_replicate _ sym⟩, fun len v => ?_, rfl,
    rfl, rfl, rfl, rfl, rfl, rfl, rfl, rfl, Loader.idle_count, rfl, rfl, rfl, Loader.idle_entry,
    rfl, rfl, rfl, rfl⟩
  refine dmapLookup_eq_none.2 fun sym ⟨hpos, hlen, _⟩ => ?_
  rw [State.reset_codeLen, fileGet_replicate] at hlen
  exact absurd hlen hpos.ne

end Sys2Proof.Machine

/-! PROOFS. What the host's accesses do to a step: when an access is legal, which event is served,
what a read returns, and that an illegal access is the machine's one stop (spec/20_memory.md rules
R80 to R90, spec/60_exceptions.md rules R304 and R326). -/

namespace Sys2Proof.Machine

/-! ### Events of the host -/

theorem accessLegal_eq_true {width : Width} {off : Offset} :
    accessLegal width off = true ↔ width = .w32 ∧ off.toNat % 4 = 0 := by
  rw [accessLegal, Bool.and_eq_true, decide_eq_true_eq, decide_eq_true_eq]

theorem accessLegal_eq_false {width : Width} {off : Offset} :
    accessLegal width off = false ↔ width ≠ .w32 ∨ off.toNat % 4 ≠ 0 := by
  rw [← Bool.not_eq_true, accessLegal_eq_true, not_and_or]

theorem serveEvent_read_legal {p : Params} {width : Width} {off : Offset} (s : State)
    (h : accessLegal width off = true) :
    serveEvent p (.read width off) s = .next (s.busRead off p) := if_pos h

theorem serveEvent_write_legal {p : Params} {width : Width} {off : Offset} (s : State) (v : Word)
    (h : accessLegal width off = true) :
    serveEvent p (.write width off v) s = .next (s.busWrite off v) := if_pos h

theorem serveEvent_read_illegal {p : Params} {width : Width} {off : Offset} (s : State)
    (h : accessLegal width off = false) :
    serveEvent p (.read width off) s = .fault (.busError width off) := if_neg (by simp [h])

theorem serveEvent_write_illegal {p : Params} {width : Width} {off : Offset} (s : State) (v : Word)
    (h : accessLegal width off = false) :
    serveEvent p (.write width off v) s = .fault (.busError width off) := if_neg (by simp [h])

/-- An event is served, or it is an access that R81 makes illegal. -/
theorem serveEvent_next_or_busError (p : Params) (e : BusEvent) (s : State) :
    (∃ t, serveEvent p e s = .next t) ∨ ∃ width off, accessLegal width off = false ∧
      serveEvent p e s = .fault (.busError width off) ∧
      (e = .read width off ∨ ∃ v, e = .write width off v) := by
  cases e with
  | read width off =>
    cases h : accessLegal width off with
    | true => exact .inl ⟨_, serveEvent_read_legal s h⟩
    | false => exact .inr ⟨width, off, h, serveEvent_read_illegal s h, .inl rfl⟩
  | write width off v =>
    cases h : accessLegal width off with
    | true => exact .inl ⟨_, serveEvent_write_legal s v h⟩
    | false => exact .inr ⟨width, off, h, serveEvent_write_illegal s v h, .inr ⟨v, rfl⟩⟩
  | reset => exact .inl ⟨_, rfl⟩

/-! ### The host's side of a step -/

theorem serveHost_nil {p : Params} {s : State} (hp : s.bus.pending = []) :
    serveHost p s = .next s := by
  simp only [serveHost, hp]

theorem serveHost_cons {p : Params} {s : State} {e : BusEvent} {rest : List BusEvent}
    (hp : s.bus.pending = e :: rest) : serveHost p s = serveEvent p e (s.takeEvent rest) := by
  simp only [serveHost, hp]

/-- With no command that completes first, a step is the host's. -/
theorem step_eq_serveHost {s : State}
    (hc : ∀ c, s.cmd = some c → c.left ≠ 0 ∧ s.bus.pending ≠ []) :
    step s = serveHost Config.hardware s := by
  simp only [step, fetchCommand_eq_none.2 hc]

/-- With no command that is due, a step serves the host's next event. -/
theorem step_eq_serveEvent {s : State} {e : BusEvent} {rest : List BusEvent}
    (hc : ∀ c, s.cmd = some c → c.left ≠ 0) (hp : s.bus.pending = e :: rest) :
    step s = serveEvent Config.hardware e (s.takeEvent rest) := by
  rw [step_eq_serveHost fun c h => ⟨hc c h, by simp [hp]⟩, serveHost_cons hp]

theorem takeEvent_of_idle {s : State} (hc : s.cmd = none) (rest : List BusEvent) :
    s.takeEvent rest = { s with bus := { s.bus with pending := rest } } := by
  simp only [State.takeEvent, hc, Option.map_none]

theorem takeEvent_of_inFlight {s : State} {w : Word} {k : Nat} (hc : s.cmd = some ⟨w, k + 1⟩)
    (rest : List BusEvent) :
    s.takeEvent rest = { s with cmd := some ⟨w, k⟩, bus := { s.bus with pending := rest } } := by
  simp only [State.takeEvent, hc, Option.map_some, Nat.add_sub_cancel]

theorem step_idle {s : State} {e : BusEvent} {rest : List BusEvent} (hc : s.cmd = none)
    (hp : s.bus.pending = e :: rest) :
    step s = serveEvent Config.hardware e { s with bus := { s.bus with pending := rest } } := by
  rw [step_eq_serveEvent (by simp [hc]) hp, takeEvent_of_idle hc]

/-- Settles O5: no command is due in any of the three cases, so the step is the host's. -/
theorem stepServesTheHostOtherwise : Obligations.StepServesTheHostOtherwise := by
  refine ⟨fun s e rest hc hp => step_idle hc hp, fun s w k e rest hc hp => ?_, fun s hc hp => ?_⟩
  · rw [step_eq_serveEvent (by simp [hc]) hp, takeEvent_of_inFlight hc]
  · rw [step_eq_serveHost (by simp [hc]), serveHost_nil hp]

/-- Settles O53, by the two answers to a read and to a write. -/
theorem illegalAccessesAreBusErrors : Obligations.IllegalAccessesAreBusErrors := by
  refine fun s width off v rest hc => ⟨fun hbad => ?_, fun hw ho => ?_⟩
  · have h := accessLegal_eq_false.2 hbad
    exact ⟨fun hp => (step_idle hc hp).trans (serveEvent_read_illegal _ h),
      fun hp => (step_idle hc hp).trans (serveEvent_write_illegal _ v h)⟩
  · have h := accessLegal_eq_true.2 ⟨hw, ho⟩
    exact ⟨fun hp => (step_idle hc hp).trans (serveEvent_read_legal _ h),
      fun hp => (step_idle hc hp).trans (serveEvent_write_legal _ v h)⟩

/-! ### What stops a step -/

theorem exec_next (i : Instr) (s : State) : ∃ t, exec i s = .next t := by
  by_cases hi : i = .sreset
  · exact ⟨_, hi ▸ exec_sreset s⟩
  · rw [exec_eq_completeCommand hi]
    exact completeCommand_next s _

/-- A word that is fetched completes, whether or not it is a command. -/
theorem step_next_of_fetchCommand {s u : State} {w : Word} (h : fetchCommand s = some (w, u)) :
    ∃ t, step s = .next t := by
  simp only [step, h]
  cases decode w with
  | ok i => exact exec_next i u
  | error _ => exact completeCommand_next u _

/-- Settles O7: a word that completes answers a next state, and so does the host's side of a step
unless the event it serves is an illegal access. -/
theorem onlyAnIllegalAccessStops : Obligations.OnlyAnIllegalAccessStops := by
  refine ⟨exec_next, fun s => ?_⟩
  cases hf : fetchCommand s with
  | some wu => exact .inl (step_next_of_fetchCommand hf)
  | none =>
    have hc := fetchCommand_eq_none.1 hf
    cases hp : s.bus.pending with
    | nil => exact .inl ⟨s, (step_eq_serveHost hc).trans (serveHost_nil hp)⟩
    | cons e rest =>
      rw [step_eq_serveEvent (fun c h => (hc c h).1) hp]
      obtain hnext | ⟨width, off, hl, hstop, he⟩ :=
        serveEvent_next_or_busError Config.hardware e (s.takeEvent rest)
      · exact .inl hnext
      · exact .inr ⟨width, off, hl, hstop, e, rest, rfl, he⟩

/-! ### Reads without a side effect -/

/-- OUT_DATA stands at one offset only. -/
theorem regAt_ne_outData {off : Offset} (h : off ≠ 0x01C#11) : regAt off ≠ .outData := by
  have ho : off.toNat ≠ 0x01C := fun he => h (BitVec.eq_of_toNat_eq he)
  unfold regAt
  generalize off.toNat = o at ho
  simp only [ho, if_false]
  repeat' (apply regIte_ne)
  all_goals exact Reg.noConfusion

/-- No register shows the host's record of what it has read. -/
@[simp] theorem regWord_recordRead (s : State) (off : Offset) (v : Word) (reg : Reg) (p : Params) :
    (s.recordRead off v).regWord reg p = s.regWord reg p := by
  cases reg <;> rfl

/-- Settles O45: the read only records the value, and the record changes neither BUSY nor the value
that the second read returns. -/
theorem otherReadsHaveNoSideEffect : Obligations.OtherReadsHaveNoSideEffect := by
  intro s off hb _ hoff
  have hread : ∀ {t : State}, t.busy = false →
      t.busRead off = t.recordRead off (t.regWord (regAt off)) :=
    fun ht => busRead_idle ht (regAt_ne_outData hoff)
  refine ⟨hread hb, ?_⟩
  have hb' : (s.recordRead off (s.regWord (regAt off))).busy = false := hb
  rw [hread hb, hread hb', regWord_recordRead]
  simp only [State.recordRead, List.append_assoc, List.singleton_append]

end Sys2Proof.Machine

/-! PROOFS. The fields of a command word, the one inversion lemma of the decoder, and what a step does
with a word that is no command (spec/30_encoding.md rules R110 to R115). -/

namespace Sys2Proof.Machine

/-! ### The fields of a word -/

theorem cmdOp_toNat (w : Word) : (cmdOp w).toNat = w.toNat / 2 ^ 24 := by
  rw [cmdOp, BitVec.extractLsb'_toNat, Nat.shiftRight_eq_div_pow]
  omega

theorem cmdRsv_toNat (w : Word) : (cmdRsv w).toNat = w.toNat / 2 ^ 8 % 2 ^ 16 := by
  rw [cmdRsv, BitVec.extractLsb'_toNat, Nat.shiftRight_eq_div_pow]

theorem cmdArg_toNat (w : Word) : (cmdArg w).toNat = w.toNat % 2 ^ 8 := by
  rw [cmdArg, BitVec.extractLsb'_toNat, Nat.shiftRight_zero]

/-- OP, RSV and ARG are the whole word (R110). -/
theorem append_fields (w : Word) : cmdOp w ++ cmdRsv w ++ cmdArg w = w := by
  have hhigh : cmdOp w ++ cmdRsv w = w.extractLsb' 8 24 :=
    BitVec.extractLsb'_append_extractLsb'_eq_extractLsb' rfl
  have hall : w.extractLsb' 8 24 ++ cmdArg w = w.extractLsb' 0 32 :=
    BitVec.extractLsb'_append_extractLsb'_eq_extractLsb' rfl
  rw [hhigh, hall, BitVec.extractLsb'_eq_self]

/-- A word is a command's word exactly when its three fields are those of the command (R110). -/
theorem eq_encode_iff_fields {w : Word} {i : Instr} :
    w = encode i ↔ cmdOp w = i.opcode ∧ cmdRsv w = 0#16 ∧ cmdArg w = i.argByte := by
  constructor
  · rintro rfl
    exact Laws.Encoding.fields i.opcode i.argByte
  · rintro ⟨hop, hrsv, harg⟩
    rw [← append_fields w, hop, hrsv, harg, encode]

/-- A list of OP bytes, read as the list of numbers that R112 writes. -/
theorem mem_bytes_iff_toNat {op : Byte} {ops : List Byte} :
    op ∈ ops ↔ op.toNat ∈ ops.map BitVec.toNat :=
  (List.mem_map_of_injective fun _ _ => BitVec.eq_of_toNat_eq).symm

/-- IllegalWord's arithmetic on the word, read as conditions on its fields (R114). -/
theorem illegalWord_iff_fields {w : Word} : IllegalWord w ↔ cmdOp w ∉ assignedOps ∨
    cmdRsv w ≠ 0#16 ∨ (cmdOp w ∉ operandOps ∧ cmdArg w ≠ 0#8) := by
  rw [mem_bytes_iff_toNat, mem_bytes_iff_toNat, ← BitVec.toNat_inj.ne, ← BitVec.toNat_inj.ne,
    cmdOp_toNat, cmdRsv_toNat, cmdArg_toNat]
  rfl

/-! ### The decoder -/

theorem decodeBare_eq_ok {w : Word} {i j : Instr} :
    decodeBare w j = .ok i ↔ cmdRsv w = 0#16 ∧ cmdArg w = 0#8 ∧ j = i := by
  unfold decodeBare
  split_ifs <;> simp_all

theorem decodeBare_eq_error {w : Word} {j : Instr} :
    (∃ e, decodeBare w j = .error e) ↔ cmdRsv w ≠ 0#16 ∨ cmdArg w ≠ 0#8 := by
  unfold decodeBare
  split_ifs <;> simp_all

theorem decodeWithArg_eq_ok {w : Word} {mk : Byte → Instr} {i : Instr} :
    decodeWithArg w mk = .ok i ↔ cmdRsv w = 0#16 ∧ mk (cmdArg w) = i := by
  unfold decodeWithArg
  split_ifs <;> simp_all

theorem decodeWithArg_eq_error {w : Word} {mk : Byte → Instr} :
    (∃ e, decodeWithArg w mk = .error e) ↔ cmdRsv w ≠ 0#16 := by
  unfold decodeWithArg
  split_ifs <;> simp_all

theorem opcode_mem_assignedOps (i : Instr) : i.opcode ∈ assignedOps := by
  cases i <;> exact List.mem_of_elem_eq_true rfl

/-- Everything the decoder can do with a word: its OP is that of a command with no operand, or that of
a command with one, or it is not assigned (R112, R113). -/
theorem decode_cases (w : Word) :
    (∃ j : Instr, decode w = decodeBare w j ∧ cmdOp w = j.opcode ∧ j.argByte = 0#8 ∧
      j.opcode ∉ operandOps) ∨
    (∃ mk : Byte → Instr, decode w = decodeWithArg w mk ∧
      ∀ b, cmdOp w = (mk b).opcode ∧ (mk b).argByte = b ∧ (mk b).opcode ∈ operandOps) ∨
    (decode w = .error .unassignedOp ∧ cmdOp w ∉ assignedOps) := by
  unfold decode
  split
  -- The last row of the match is an OP of no command; rows 9, 10, 12 and 13 are those with an operand.
  case h_14 =>
    refine .inr (.inr ⟨rfl, ?_⟩)
    rw [mem_bytes_iff_toNat]
    simp_all [assignedOps]
  case h_9 h | h_10 h | h_12 h | h_13 h =>
    exact .inr (.inl ⟨_, rfl, fun _ =>
      ⟨BitVec.eq_of_toNat_eq h, rfl, List.mem_of_elem_eq_true rfl⟩⟩)
  all_goals
    next h => exact .inl ⟨_, rfl, BitVec.eq_of_toNat_eq h, rfl, by decide⟩

/-- A word with the fields of a command decodes to it (R110, R113). -/
theorem decode_of_fields {w : Word} {i : Instr} (hop : cmdOp w = i.opcode)
    (hrsv : cmdRsv w = 0#16) (harg : cmdArg w = i.argByte) : decode w = .ok i := by
  cases i <;> simp [decode, decodeBare, decodeWithArg, hop, hrsv, harg, Instr.opcode, Instr.argByte]

/-- Only a word with the fields of a command decodes to it. -/
theorem fields_of_decode {w : Word} {i : Instr} (h : decode w = .ok i) :
    cmdOp w = i.opcode ∧ cmdRsv w = 0#16 ∧ cmdArg w = i.argByte := by
  obtain ⟨j, hd, hop, hj, -⟩ | ⟨mk, hd, hmk⟩ | ⟨hd, -⟩ := decode_cases w
  · obtain ⟨hrsv, harg, rfl⟩ := decodeBare_eq_ok.1 (hd ▸ h)
    exact ⟨hop, hrsv, harg.trans hj.symm⟩
  · obtain ⟨hrsv, rfl⟩ := decodeWithArg_eq_ok.1 (hd ▸ h)
    obtain ⟨hop, harg, -⟩ := hmk (cmdArg w)
    exact ⟨hop, hrsv, harg.symm⟩
  · simp [hd] at h

/-- Settles O1: both sides say that the word's fields are those of the command. -/
theorem decodeReadsExactlyTheEncodings : Obligations.DecodeReadsExactlyTheEncodings := by
  refine fun w i => ⟨fun h => eq_encode_iff_fields.2 (fields_of_decode h), fun h => ?_⟩
  obtain ⟨hop, hrsv, harg⟩ := eq_encode_iff_fields.1 h
  exact decode_of_fields hop hrsv harg

/-- Settles O2: in each case of the decoder its own checks are what R114 leaves to test of the word. -/
theorem decodeRejectsExactlyTheIllegalWords : Obligations.DecodeRejectsExactlyTheIllegalWords := by
  intro w
  rw [illegalWord_iff_fields]
  obtain ⟨j, hd, hop, -, hno⟩ | ⟨mk, hd, hmk⟩ | ⟨hd, hno⟩ := decode_cases w
  · simp [hd, decodeBare_eq_error, hop, opcode_mem_assignedOps, hno]
  · obtain ⟨hop, -, hyes⟩ := hmk 0#8
    simp [hd, decodeWithArg_eq_error, hop, opcode_mem_assignedOps, hyes]
  · simp [hd, hno]

/-- Settles O3: each word is the encoding of its command. -/
theorem handWrittenWordsDecode : Obligations.HandWrittenWordsDecode := by
  have h {w : Word} {i : Instr} (he : w = encode i) : decode w = .ok i :=
    (decodeReadsExactlyTheEncodings w i).2 he
  exact ⟨h rfl, h rfl, h rfl, h rfl, h rfl, h rfl, h rfl, h rfl, h rfl, h rfl⟩

/-! ### A step on an illegal word -/

/-- A word that is no command ends as completeCommand ends ILLEGAL_COMMAND (R114). -/
theorem step_of_illegalWord {s : State} {c : InFlight} (hw : IllegalWord c.word)
    (hc : s.cmd = some c) (hl : c.left = 0 ∨ s.bus.pending = []) :
    step s = completeCommand { s with cmd := none } (.error ⟨.illegalCommand, c.word⟩) := by
  obtain ⟨e, he⟩ := (decodeRejectsExactlyTheIllegalWords c.word).2 hw
  have hf : fetchCommand s = some (c.word, { s with cmd := none }) :=
    fetchCommand_eq_some.2 ⟨c, hc, hl, rfl, rfl⟩
  simp only [step, hf, he, execIllegal]

/-- Settles O6: ILLEGAL_COMMAND is taken with ERR = 0 and ignored with ERR = 1. -/
theorem illegalWordRaisesIllegalCommand : Obligations.IllegalWordRaisesIllegalCommand := by
  refine ⟨fun s w hw hc he => ?_, fun s w hw hc he => ?_, rfl⟩
  · rw [step_of_illegalWord hw hc (.inl rfl)]
    exact completeCommand_error (s := { s with cmd := none }) he _
  · rw [step_of_illegalWord hw hc (.inl rfl)]
    exact completeCommand_err (s := { s with cmd := none }) he _

end Sys2Proof.Machine

/-! PROOFS. What each command may write, and the control commands NOP and CLR_FREQ
(spec/40_control.md rules R140 to R142). -/

namespace Sys2Proof.Machine

/-- Settles O43: SRESET is among the writers of every part, a command that is ignored or takes an
error writes no part, and the result of each other command names the parts it writes. -/
theorem whatEachCommandMayWrite : Obligations.WhatEachCommandMayWrite := by
  intro i s t h
  obtain ⟨rfl, rfl⟩ | ⟨-, -, rfl⟩ | ⟨hi, -, hr⟩ | ⟨e, -, -, -, rfl⟩ := exec_cases h
  · simp
  · simp
  · cases i with
    | nop => cases hr; simp
    | sreset => exact absurd rfl hi
    | clrFreq => cases hr; simp
    | build => obtain ⟨-, -, -, -, rfl⟩ := buildResult_ok hr; simp
    | derive => obtain ⟨-, -, -, -, rfl⟩ := deriveResult_ok hr; simp
    | assign => obtain ⟨-, -, rfl⟩ := assignResult_ok hr; simp
    | hdrEmit => obtain ⟨-, rfl, -⟩ := hdrEmitResult_ok hr; simp
    | hdrBegin => obtain ⟨-, -, rfl⟩ := hdrBeginResult_ok hr; simp
    | hdrByte b =>
      obtain ⟨-, l, -, rfl⟩ := hdrByteResult_ok hr
      cases l with
      | more ld => simp [State.afterLoad]
      | complete lt ltMax ltNsym => simp [State.afterLoad]
    | enc sym => obtain ⟨-, -, -, rfl⟩ := encResult_ok hr; simp
    | encFlush => obtain ⟨-, -, rfl⟩ := encFlushResult_ok hr; simp
    | decFeed b => obtain ⟨-, _, _, -, -, rfl⟩ := decFeedResult_ok hr; simp
    | decFinish pad => obtain ⟨-, -, -, _, -, -, rfl⟩ := decFinishResult_ok hr; simp
  · simp

/-- NOP leaves the state both where it is ignored and where its result is the state itself. -/
theorem exec_nop (s : State) : exec .nop s = .next s := by
  rw [exec_eq_completeCommand (i := .nop) nofun]
  cases he : s.err with
  | true => exact completeCommand_err he _
  | false => exact completeCommand_ok he

/-- Settles O13: NOP's result is the state itself, and CLR_FREQ's FREQ is 0 throughout. -/
theorem nopAndClrFreqWriteOnlyFreq : Obligations.NopAndClrFreqWriteOnlyFreq :=
  ⟨exec_nop, fun _ he => ⟨_, exec_of_ok (i := .clrFreq) nofun he rfl, fileGet_replicate 0#32⟩⟩

end Sys2Proof.Machine

/-! PROOFS. BUILD leaves the Huffman tree of the frequencies, each merge taking the two least nodes,
and raises EMPTY_INPUT where there is no symbol (spec/41_tree_builder.md rules R160 to R167). -/

namespace Sys2Proof.Machine

/-! ### The least entry of the queue (R163) -/

theorem QueueEntry.before_iff {a b : QueueEntry} : a.before b = true ↔
    a.freq.toNat < b.freq.toNat ∨ a.freq.toNat = b.freq.toNat ∧ a.idx < b.idx := by
  simp [QueueEntry.before, BitVec.lt_def, BitVec.toNat_inj]

/-- No entry comes before the least. -/
theorem not_before_minEntry {q : List QueueEntry} {m e : QueueEntry} (hm : minEntry q = some m)
    (he : e ∈ q) : ¬ e.before m = true := by
  induction q generalizing m with
  | nil => cases hm
  | cons x rest ih =>
    unfold minEntry at hm
    split at hm
    · next hn =>
      cases hm
      obtain rfl : e = x := by simpa [minEntry_eq_none.1 hn] using he
      simp [QueueEntry.before_iff]
    · next n hn =>
      have hrest : e ∈ rest → ¬ e.before n = true := ih hn
      simp only [QueueEntry.before_iff] at hrest hm ⊢
      obtain rfl | he := List.mem_cons.1 he
      · split at hm <;> cases hm <;> omega
      · have := hrest he
        split at hm <;> cases hm <;> omega

/-- What popMin takes out comes before every entry it leaves. -/
theorem before_of_popMin {q q' : List QueueEntry} {m e : QueueEntry} (h : popMin q = some (m, q'))
    (he : e ∈ q') (hi : m.idx ≠ e.idx) : m.before e = true := by
  have hmem : e ∈ q := (popMin_perm h).mem_iff.2 (List.mem_cons_of_mem _ he)
  obtain ⟨m', hm, heq⟩ := Option.map_eq_some_iff.1 h
  cases heq
  have := not_before_minEntry hm hmem
  rw [QueueEntry.before_iff] at *
  omega

/-- Two entries taken out, and the others left. -/
theorem popMin_popMin_perm {q q1 q2 : List QueueEntry} {a b : QueueEntry}
    (ha : popMin q = some (a, q1)) (hb : popMin q1 = some (b, q2)) : q.Perm (a :: b :: q2) :=
  (popMin_perm ha).trans ((popMin_perm hb).cons a)

/-! ### Merges take the two least nodes -/

theorem keyBefore_append {tree : List Node} {node : Node} {i j : Nat} (hi : i < tree.length)
    (hj : j < tree.length) : KeyBefore (tree ++ [node]) i j ↔ KeyBefore tree i j := by
  rw [KeyBefore, KeyBefore, nodeFreq_append_lt hi, nodeFreq_append_lt hj]

namespace MergeInv

variable {leaves tree : List Node} {q q1 q2 : List QueueEntry} {a b e : QueueEntry}

/-- The order of the queue is the order of the nodes queued. -/
theorem keyBefore (h : MergeInv leaves tree q) (ha : a ∈ q) (hb : b ∈ q)
    (hab : a.before b = true) : KeyBefore tree a.idx b.idx := by
  rw [KeyBefore, h.nodeFreq_idx ha, h.nodeFreq_idx hb]
  exact QueueEntry.before_iff.1 hab

/-- A node without a parent is queued. -/
theorem exists_queued (h : MergeInv leaves tree q) {j : Nat} (hj : j < tree.length)
    (hno : ∀ i, i < tree.length → ¬ IsChild tree j i) : ∃ e ∈ q, e.idx = j := by
  by_contra hn
  push Not at hn
  obtain ⟨i, hi, -⟩ := h.oneParent j hj hn
  exact hno i hi.lt_length hi

/-- The two entries taken out come first, in their order, among the entries queued. -/
theorem merge_least (h : MergeInv leaves tree q) (ha : popMin q = some (a, q1))
    (hb : popMin q1 = some (b, q2)) : KeyBefore tree a.idx b.idx ∧
      ∀ e ∈ q, e.idx ≠ a.idx → e.idx ≠ b.idx → KeyBefore tree b.idx e.idx := by
  have hp := popMin_popMin_perm ha hb
  obtain ⟨haq, hbq, -⟩ := merge_mem hp
  refine ⟨h.keyBefore haq hbq (before_of_popMin ha ((popMin_perm hb).mem_iff.2 (by simp))
    (h.merge_idx_ne hp).1), fun e he hea heb => h.keyBefore hbq he ?_⟩
  obtain rfl | rfl | he := by simpa using hp.mem_iff.1 he
  · exact absurd rfl hea
  · exact absurd rfl heb
  · exact before_of_popMin hb he (Ne.symm heb)

/-- One merge of the two least keeps the property (R163, R164). -/
theorem merge_mergesTakeTheLeast (h : MergeInv leaves tree q) (hm : MergesTakeTheLeast tree)
    (ha : popMin q = some (a, q1)) (hb : popMin q1 = some (b, q2)) :
    MergesTakeTheLeast (tree ++ [mergedNode a b]) := by
  obtain ⟨haq, hbq, -⟩ := merge_mem (popMin_popMin_perm ha hb)
  intro i f l r hget
  have hi := lt_length_of_getElem? hget
  rw [List.length_append, List.length_singleton, Nat.lt_succ_iff_lt_or_eq] at hi
  obtain hi | rfl := hi
  · rw [List.getElem?_append_left hi] at hget
    obtain ⟨hlr, hleast⟩ := hm i f l r hget
    have hl := (h.childLt l i ⟨f, l, r, hget, .inl rfl⟩).trans hi
    have hr := (h.childLt r i ⟨f, l, r, hget, .inr rfl⟩).trans hi
    refine ⟨(keyBefore_append hl hr).2 hlr, fun j hj hno hjl hjr => ?_⟩
    refine (keyBefore_append hr (hj.trans hi)).2 (hleast j hj (fun i' hi' hc => ?_) hjl hjr)
    exact hno i' hi' (isChild_append_mergedNode.2 (.inl hc))
  · obtain ⟨hab, hleast⟩ := h.merge_least ha hb
    obtain ⟨-, rfl, rfl⟩ : a.freq + b.freq = f ∧ a.idx = l ∧ b.idx = r := by
      simpa [mergedNode] using hget
    refine ⟨(keyBefore_append (h.idx_lt haq) (h.idx_lt hbq)).2 hab, fun j hj hno hja hjb => ?_⟩
    obtain ⟨e, he, rfl⟩ := h.exists_queued hj fun i' hi' hc =>
      hno i' hi' (isChild_append_mergedNode.2 (.inl hc))
    exact (keyBefore_append (h.idx_lt hbq) hj).2 (hleast e he hja hjb)

/-- The leaves of the arena are those the merges started from (R162). -/
theorem leaf_mem_iff (h : MergeInv leaves tree q) {sym : Byte} {f : BitVec 32} :
    .leaf sym f ∈ tree ↔ .leaf sym f ∈ leaves := by
  obtain ⟨made, hmade⟩ := h.arena
  constructor
  · intro hm
    obtain ⟨i, hget⟩ := List.getElem?_of_mem hm
    have hlt : i < leaves.length := by
      by_contra hge
      obtain ⟨_, _, _, hget', -⟩ := h.internals i (by omega) (lt_length_of_getElem? hget)
      rw [hget] at hget'
      cases hget'
    rw [hmade, List.getElem?_append_left hlt] at hget
    exact List.mem_of_getElem? hget
  · intro hm
    rw [hmade]
    exact List.mem_append_left _ hm

end MergeInv

/-! ### The arena BUILD leaves -/

/-- BUILD's arena and root are those of a merge loop that has come to one entry. -/
theorem buildTree_mergeInv {freq : Vector (BitVec 32) 256} (hne : presentSymbols freq ≠ []) :
    ∃ e, (buildTree freq).2 = e.idx ∧ MergeInv (leafNodes freq) (buildTree freq).1 [e] := by
  obtain ⟨e, hq, hinv⟩ := mergeLoop_leafNodes hne
  exact ⟨e, by simp only [buildTree, hq, List.head?_cons, Option.map_some, Option.getD_some], hinv⟩

theorem leaf_mem_leafNodes {freq : Vector (BitVec 32) 256} {sym : Byte} {f : BitVec 32} :
    .leaf sym f ∈ leafNodes freq ↔ f = fileGet freq sym ∧ f ≠ 0#32 := by
  simp only [leafNodes, List.mem_map, mem_presentSymbols, Node.leaf.injEq]
  constructor
  · rintro ⟨sym, hs, rfl, rfl⟩
    exact ⟨rfl, hs⟩
  · rintro ⟨rfl, hs⟩
    exact ⟨sym, hs, rfl, rfl⟩

/-- The symbols that are not present add nothing to the sum of the frequencies. -/
theorem leafNodes_total (freq : Vector (BitVec 32) 256) :
    ((leafNodes freq).map fun node => node.freq.toNat).sum =
      (symbols.map fun sym => (fileGet freq sym).toNat).sum := by
  rw [leafNodes, presentSymbols, List.map_map]
  induction symbols with
  | nil => rfl
  | cons sym rest ih =>
    by_cases hs : fileGet freq sym = 0#32
    · simpa [hs] using ih
    · have := (fileGet freq sym).isLt
      have hf : (Node.leaf sym (fileGet freq sym)).freq.toNat = (fileGet freq sym).toNat := by
        rw [Node.freq, BitVec.toNat_setWidth, Nat.mod_eq_of_lt (by omega)]
      simp [hs, hf, ← ih]

theorem buildTree_mergesTakeTheLeast {freq : Vector (BitVec 32) 256}
    (hne : presentSymbols freq ≠ []) : MergesTakeTheLeast (buildTree freq).1 := by
  have hleaf : ∀ node ∈ leafNodes freq, ∃ sym f, node = .leaf sym f := by simp [leafNodes]
  have hstart : MergesTakeTheLeast (leafNodes freq) := by
    intro i f l r hget
    obtain ⟨_, _, he⟩ := hleaf _ (List.mem_of_getElem? hget)
    cases he
  have hinv := MergeInv.start (by simpa [leafNodes] using hne) hleaf
  refine (mergeLoop_keeps (fun tree q a q1 b q2 ha hb h => ?_) (leafNodes freq).length
    (P := fun tree q => MergeInv (leafNodes freq) tree q ∧ MergesTakeTheLeast tree)
    ⟨hinv, hstart⟩).2
  obtain ⟨h, hm⟩ := h
  exact ⟨h.merge (popMin_popMin_perm ha hb) (leafNodes_total_lt freq),
    h.merge_mergesTakeTheLeast hm ha hb⟩

/-! ### BUILD -/

theorem presentSymbols_eq_nil {freq : Vector (BitVec 32) 256} :
    presentSymbols freq = [] ↔ ∀ sym, fileGet freq sym = 0#32 := by
  simp [List.eq_nil_iff_forall_not_mem]

theorem buildResult_of_present {s : State} (hl : s.ld.active = false) (he : s.encAct = false)
    (hd : s.decAct = false) (hne : presentSymbols s.freq ≠ []) :
    buildResult s = .ok { s.clearTable.clearCodes with
      tree := (buildTree s.freq).1
      root := (buildTree s.freq).2
      nleaf := (presentSymbols s.freq).length
      treeValid := true } := by
  simp [buildResult, hl, he, hd, hne]

theorem buildResult_of_none_present {s : State} (hl : s.ld.active = false)
    (he : s.encAct = false) (hd : s.decAct = false) (hnil : presentSymbols s.freq = []) :
    buildResult s = .error ⟨.emptyInput, 0#32⟩ := by
  simp [buildResult, hl, he, hd, hnil]

/-- Settles O14: the merge loop keeps the arena a forest whose merges took the two least, and it
ends with one entry, whose frequency is the sum of the leaves'. -/
theorem buildLeavesTheHuffmanTree : Obligations.BuildLeavesTheHuffmanTree := by
  rintro s herr hl he hd ⟨sym, hsym⟩
  have hne : presentSymbols s.freq ≠ [] := List.ne_nil_of_mem (mem_presentSymbols.2 hsym)
  obtain ⟨e, hroot, hinv⟩ := buildTree_mergeInv hne
  refine ⟨(buildTree s.freq).1, (buildTree s.freq).2,
    exec_of_ok (i := .build) nofun herr (buildResult_of_present hl he hd hne),
    buildTree_treeOk hne, buildTree_mergesTakeTheLeast hne,
    fun sym f => hinv.leaf_mem_iff.trans leaf_mem_leafNodes, ?_⟩
  rw [hroot, hinv.nodeFreq_idx (List.mem_singleton_self e), ← leafNodes_total, ← hinv.total]
  simp

/-- Settles O15: with no symbol present BUILD raises EMPTY_INPUT. -/
theorem buildOfAnEmptyFrequencyTable : Obligations.BuildOfAnEmptyFrequencyTable :=
  ⟨fun _ herr hl he hd hzero => exec_of_error (i := .build) nofun herr
    (buildResult_of_none_present hl he hd (presentSymbols_eq_nil.2 hzero)), rfl⟩

end Sys2Proof.Machine

/-! PROOFS. One symbol alone through BUILD, DERIVE and ASSIGN (spec/41_tree_builder.md rule R166,
spec/42_length_deriver.md rule R182, spec/43_code_assigner.md rule R206). -/

namespace Sys2Proof.Machine

/-! ### The one leaf -/

theorem presentSymbols_eq_singleton {freq : Vector (BitVec 32) 256} {sym : Byte}
    (h : ∀ x, fileGet freq x ≠ 0#32 ↔ x = sym) : presentSymbols freq = [sym] := by
  have hnd : (presentSymbols freq).Nodup := symbols_nodup.filter _
  rw [← List.perm_singleton, List.perm_ext_iff_of_nodup hnd (List.nodup_singleton sym)]
  intro x
  rw [mem_presentSymbols, List.mem_singleton, h]

/-- One symbol alone makes a tree of one leaf, with no merge (R166). -/
theorem buildTree_of_singleton {freq : Vector (BitVec 32) 256} {sym : Byte}
    (h : presentSymbols freq = [sym]) :
    buildTree freq = ([.leaf sym (fileGet freq sym)], 0) := by
  simp [buildTree, leafNodes, h, queueOf, mergeLoop, popMin, minEntry]

/-! ### DERIVE and ASSIGN where they succeed -/

/-- DERIVE where none of its checks fails (R186). -/
theorem deriveResult_of_checks {p : Params} {s : State} (ht : s.treeValid = true)
    (hmax : maxLength s.treeLeaves ≤ p.lMax) (hpol : policyRejects s.policy s.treeLeaves = false)
    (hcount : ∀ len, 1 ≤ len → len ≤ maxLength s.treeLeaves →
      (symbolsAt s.treeLeaves len).length ≤ 255) :
    deriveResult p s = .ok { s.clearTree.clearCodes with
      ltValid := true
      lt := tableOf s.treeLeaves
      ltMax := BitVec.ofNat 8 (maxLength s.treeLeaves)
      ltNsym := BitVec.ofNat 9 s.treeLeaves.length } := by
  have hover : overfullLength s.treeLeaves = none := by
    rw [overfullLength, List.find?_eq_none]
    intro len hlen
    rw [mem_lengths] at hlen
    simpa using hcount len hlen.1 hlen.2
  simp [deriveResult, ht, hmax.not_gt, hpol, hover]

/-- A tree of one leaf has that leaf's symbol at length 1 (R182). -/
theorem treeLeaves_of_singleton {s : State} {sym : Byte} {f : BitVec 32}
    (ht : s.tree = [.leaf sym f]) (hr : s.root = 0) (hn : s.nleaf = 1) :
    s.treeLeaves = [⟨sym, f, 1⟩] := by
  simp [State.treeLeaves, soleLeaf, ht, hr, hn]

/-- DERIVE of one leaf that the policy does not reject (R182). -/
theorem deriveResult_of_singleton {s : State} {sym : Byte} {f : BitVec 32}
    (ht : s.treeValid = true) (hl : s.treeLeaves = [⟨sym, f, 1⟩])
    (hpol : policyRejects s.policy [⟨sym, f, 1⟩] = false) :
    deriveResult Config.hardware s = .ok { s.clearTree.clearCodes with
      ltValid := true, lt := [[sym]], ltMax := 1#8, ltNsym := 1#9 } := by
  have hmax : maxLength [⟨sym, f, 1⟩] = 1 := rfl
  have hat : symbolsAt [⟨sym, f, 1⟩] 1 = [sym] := rfl
  have hcount : ∀ len, 1 ≤ len → len ≤ maxLength s.treeLeaves →
      (symbolsAt s.treeLeaves len).length ≤ 255 := by
    rw [hl, hmax]
    intro len h1 hle
    obtain rfl := le_antisymm hle h1
    simp [hat]
  rw [deriveResult_of_checks ht (by simp [hl, hmax]) (by rw [hl, hpol]) hcount, hl]
  rfl

theorem assignResult_of_table {s : State} (hl : s.ld.active = false) (ht : s.ltValid = true) :
    assignResult s = .ok { s with
      codeLen := (assignCodes s.lt s.ltMax.toNat).len
      codeVal := (assignCodes s.lt s.ltMax.toNat).val
      codesValid := true } := by
  simp [assignResult, hl, ht]

/-! ### The code of a one-symbol table -/

/-- A table of one symbol is one of R53, by its exception to Kraft's equality. -/
theorem tableOk_singleton (sym : Byte) : TableOk [[sym]] 1#8 1#9 where
  max_pos := by simp
  size := by simp
  nsym := by simp
  counts := by simp
  distinct := by simp
  last := by simp [ltEntry]
  kraft := .inr ⟨sym, rfl⟩

namespace CodesOk

variable {t : State} {sym : Byte}

/-- The symbol of a one-symbol table has length 1 and value 0 (R206). -/
theorem code_of_singleton (h : CodesOk t) (hlt : t.lt = [[sym]]) :
    codeLength t sym = 1 ∧ fileGet t.codeVal sym = 0#255 := by
  obtain ⟨hlen, hval⟩ := h.code_of_entry (le_refl 1) h.2.1.max_pos (j := 0) (sym := sym)
    (by rw [hlt]; rfl)
  exact ⟨hlen, BitVec.eq_of_toNat_eq hval⟩

/-- No other symbol has a codeword. -/
theorem eq_of_singleton (h : CodesOk t) (hlt : t.lt = [[sym]]) {x : Byte} (hx : HasCode t x) :
    x = sym := by
  obtain ⟨h1, hm, j, hj, -⟩ := h.entry_of_code hx
  have hone : codeLength t x = 1 := by
    rw [← h.2.1.size, hlt, List.length_singleton] at hm
    omega
  rw [hone, hlt] at hj
  exact List.mem_singleton.1 (List.mem_of_getElem? hj)

/-- The codes of a one-symbol table, encoding and decoding (R206). -/
theorem codes_of_singleton (h : CodesOk t) (hlt : t.lt = [[sym]]) :
    codeLength t sym = 1 ∧ fileGet t.codeVal sym = 0#255 ∧ t.codeword sym = [false] ∧
      (∀ x, HasCode t x → x = sym) ∧ t.dmap 1 0 = some sym ∧
      ∀ len v, (len, v) ≠ (1, 0) → t.dmap len v = none := by
  obtain ⟨hlen, hval⟩ := h.code_of_singleton hlt
  have hzero : (fileGet t.codeVal sym).toNat = 0 := by rw [hval]; rfl
  have hdmap := decodeViewInvertsTheEncodeView t h
  refine ⟨hlen, hval, ?_, fun x => h.eq_of_singleton hlt,
    (hdmap sym 1 0).2 ⟨Nat.one_pos, hlen, hzero⟩, fun len v hne => ?_⟩
  · rw [State.codeword, ← codeLength, hlen, hzero]
    rfl
  · refine Option.eq_none_iff_forall_ne_some.2 fun x hx => hne ?_
    obtain ⟨hpos, rfl, rfl⟩ := (hdmap x len v).1 hx
    have hcode : HasCode t x := fun h0 => by simp [codeLength, h0] at hpos
    rw [h.eq_of_singleton hlt hcode, hlen, hzero]

end CodesOk

/-- Settles O16: the three commands' results for one symbol, and the code of a one-symbol table. -/
theorem oneSymbolGetsTheCodewordZero : Obligations.OneSymbolGetsTheCodewordZero := by
  intro s sym herr hl he hd hsym
  have hpresent := presentSymbols_eq_singleton hsym
  have hbuild := buildResult_of_present hl he hd (by rw [hpresent]; exact List.cons_ne_nil _ _)
  rw [buildTree_of_singleton hpresent, hpresent] at hbuild
  refine ⟨_, exec_of_ok (i := .build) nofun herr hbuild, rfl, rfl, rfl, rfl, fun hpol => ?_⟩
  refine ⟨_, _, exec_of_ok (i := .derive) nofun herr
    (deriveResult_of_singleton rfl (treeLeaves_of_singleton rfl rfl rfl) hpol), rfl,
    exec_of_ok (i := .assign) nofun herr (assignResult_of_table hl rfl), rfl, ?_⟩
  exact CodesOk.codes_of_singleton ⟨rfl, tableOk_singleton sym, rfl, rfl⟩ rfl

end Sys2Proof.Machine

/-! PROOFS. DERIVE: the table it files from the tree held, Kraft's equality of it, the first error
that applies, and the policies in the container's terms (spec/42_length_deriver.md rules
R180 to R188). -/

namespace Sys2Proof.Machine

/-! ### The leaves and their lengths -/

/-- The leaves under a node, and their order, are determined by the tree. -/
theorem LeavesUnder.unique {tree : List Node} {i d : Nat} {xs ys : List LeafAt}
    (hx : LeavesUnder tree i d xs) (hy : LeavesUnder tree i d ys) : xs = ys := by
  induction hx generalizing ys with
  | leaf hget =>
    cases hy with
    | leaf hget' => cases hget.symm.trans hget'; rfl
    | node hget' _ _ => cases hget.symm.trans hget'
  | node hget _ _ ihl ihr =>
    cases hy with
    | leaf hget' => cases hget.symm.trans hget'
    | node hget' hl hr =>
      cases hget.symm.trans hget'
      rw [ihl hl, ihr hr]

theorem maxLength_le {leaves : List LeafAt} {n : Nat} (h : ∀ x ∈ leaves, x.len ≤ n) :
    maxLength leaves ≤ n :=
  List.max_le_of_forall_le _ _ (by simpa using h)

/-- LT_MAX holds the largest length, where DERIVE's check passes (R183). -/
theorem toNat_ofNat_maxLength {leaves : List LeafAt} (h : maxLength leaves ≤ 255) :
    (BitVec.ofNat 8 (maxLength leaves)).toNat = maxLength leaves :=
  Nat.mod_eq_of_lt (Nat.lt_succ_of_le h)

/-- A length that holds a symbol is at most the largest. -/
theorem le_maxLength_of_symbolsAt {leaves : List LeafAt} {len : Nat}
    (h : 0 < (symbolsAt leaves len).length) : len ≤ maxLength leaves := by
  obtain ⟨sym, hs⟩ := List.exists_mem_of_length_pos h
  obtain ⟨x, hx, -⟩ := List.mem_map.1 hs
  obtain ⟨hmem, hlen⟩ := List.mem_filter.1 hx
  exact of_decide_eq_true hlen ▸ le_maxLength hmem

/-- The table holds one symbol per leaf. -/
theorem tableOf_flatten_length {leaves : List LeafAt} (h : ∀ x ∈ leaves, 1 ≤ x.len) :
    (tableOf leaves).flatten.length = leaves.length := by
  rw [(tableOf_flatten_perm h).length_eq, List.length_map]

/-- The least overfull length is the one R184 reports. -/
theorem overfullLength_eq_some {leaves : List LeafAt} {len : Nat} (h1 : 1 ≤ len)
    (hover : (symbolsAt leaves len).length > 255)
    (hleast : ∀ k, 1 ≤ k → k < len → (symbolsAt leaves k).length ≤ 255) :
    overfullLength leaves = some len :=
  find_lengths_eq_some.2 ⟨h1, le_maxLength_of_symbolsAt (by omega), by simpa using hover,
    fun k hk hlt => by simpa using hleast k hk hlt⟩

/-! ### The table DERIVE files -/

/-- Settles O17: the leaves are those the walk meets, no check fails on them, and the table filed from
them is a table of R53, so its size and its number of symbols fit LT_MAX and LT_NSYM. -/
theorem deriveFilesEveryLeafUnderItsDepth : Obligations.DeriveFilesEveryLeafUnderItsDepth := by
  intro s leaves herr htv hn htree hl h255 hpol hcount
  obtain ⟨hwalk, hpos⟩ := treeLeaves_of_two_le htree hn
  obtain rfl := hl.unique hwalk
  have hle := maxLength_le h255
  have hr := deriveResult_of_checks (p := Config.hardware) htv hle hpol fun len _ _ => hcount len
  have hok := deriveResult_tableOk (le_refl 255) htree hr
  have hmax := toNat_ofNat_maxLength hle
  have hone : 0 < maxLength s.treeLeaves := hmax ▸ hok.max_pos
  refine ⟨_, _, _, exec_of_ok (i := .derive) nofun herr hr, hok.size, ?_, ?_, ?_, ?_⟩
  · rw [hmax]
    exact exists_len_eq_maxLength hone
  · rw [hmax]
    exact fun x => le_maxLength
  · exact hok.nsym.trans (tableOf_flatten_length hpos)
  · rw [hmax]
    exact fun len h1 hm => ltEntry_map_lengths _ ⟨h1, hm⟩

/-- DERIVE's table of a tree with two or more leaves meets Kraft's equality (R188). -/
theorem deriveResult_kraft {p : Params} {s t : State} (hp : p.lMax ≤ 255)
    (h : TreeOk s.tree s.root s.nleaf) (hn : 2 ≤ s.nleaf) (hr : deriveResult p s = .ok t) :
    kraftSum t.lt t.ltMax.toNat = 2 ^ t.ltMax.toNat := by
  obtain ⟨hl, hpos⟩ := treeLeaves_of_two_le h hn
  obtain ⟨-, hmax, -, -, rfl⟩ := deriveResult_ok hr
  rw [toNat_ofNat_maxLength (hmax.trans hp)]
  exact (kraftSum_tableOf hpos).trans (hl.kraft fun x => le_maxLength)

/-- Settles O20: with ERR = 0 after it, DERIVE was not ignored and raised no error, so the table is
the one it files. -/
theorem derivedTablesSatisfyKraftsEquality : Obligations.DerivedTablesSatisfyKraftsEquality := by
  intro s t _ htree hn hexec hterr
  obtain ⟨hi, -⟩ | ⟨-, herr, rfl⟩ | ⟨-, -, hr⟩ | ⟨e, -, -, -, rfl⟩ := exec_cases hexec
  · cases hi
  · rw [herr] at hterr; cases hterr
  · exact ⟨deriveResult_kraft (le_refl 255) htree hn hr,
      deriveResult_tableOk (le_refl 255) htree hr⟩
  · cases hterr

/-! ### The first error that applies -/

section errors
variable {p : Params} {s : State}

theorem deriveResult_of_no_tree (ht : s.treeValid = false) :
    deriveResult p s = .error (sequenceError 0x11#8) := if_pos ht

variable (ht : s.treeValid = true)
include ht

theorem deriveResult_of_too_long (hmax : maxLength s.treeLeaves > p.lMax) :
    deriveResult p s = .error ⟨.codeTooLong, BitVec.ofNat 32 (maxLength s.treeLeaves)⟩ := by
  simp [deriveResult, ht, hmax]

variable (hmax : maxLength s.treeLeaves ≤ p.lMax)
include hmax

theorem deriveResult_of_rejected (hpol : policyRejects s.policy s.treeLeaves = true) :
    deriveResult p s = .error ⟨.uncompressible, s.policy.code.setWidth 32⟩ := by
  simp [deriveResult, ht, hmax.not_gt, hpol]

theorem deriveResult_of_overfull (hpol : policyRejects s.policy s.treeLeaves = false) {len : Nat}
    (hover : overfullLength s.treeLeaves = some len) :
    deriveResult p s = .error ⟨.countOverflow, BitVec.ofNat 32 len⟩ := by
  simp [deriveResult, ht, hmax.not_gt, hpol, hover]

omit ht in
/-- L_MAX matters to DERIVE only where a depth is above it (R8, R183). -/
theorem deriveResult_eq_of_le {q : Params} (hmaxq : maxLength s.treeLeaves ≤ q.lMax) :
    deriveResult p s = deriveResult q s := by
  simp only [deriveResult, hmax.not_gt, hmaxq.not_gt, if_false]

end errors

/-- Settles O18: one rule per check, in R186's order, and L_MAX's part in any build. -/
theorem deriveReportsTheFirstErrorThatApplies :
    Obligations.DeriveReportsTheFirstErrorThatApplies := by
  refine ⟨fun s herr => ⟨fun ht => ?_, fun ht => ⟨fun hgt => ?_, fun hmax =>
    ⟨fun hpol => ?_, fun hpol len h1 hover hleast => ?_⟩⟩⟩,
    fun p s hp herr ht => ⟨fun hgt => ?_, fun hmax => ?_⟩⟩
  · exact exec_of_error (i := .derive) nofun herr (deriveResult_of_no_tree ht)
  · exact exec_of_error (i := .derive) nofun herr (deriveResult_of_too_long ht hgt)
  · exact exec_of_error (i := .derive) nofun herr (deriveResult_of_rejected ht hmax hpol)
  · exact exec_of_error (i := .derive) nofun herr
      (deriveResult_of_overfull ht hmax hpol (overfullLength_eq_some h1 hover hleast))
  · exact execIn_of_error (i := .derive) nofun herr (deriveResult_of_too_long ht hgt)
  · simp only [Params.legal, Bool.and_eq_true, decide_eq_true_eq] at hp
    rw [exec_eq_execIn, execIn_eq_completeCommand (i := .derive) nofun,
      execIn_eq_completeCommand (i := .derive) nofun]
    exact congrArg (completeCommand s) (deriveResult_eq_of_le hmax (hmax.trans hp.2))

/-! ### The policies -/

/-- Σ_L |D[L]| of R185 is the number of leaves. -/
theorem sum_symbolsAt_length {leaves : List LeafAt} (h : ∀ x ∈ leaves, 1 ≤ x.len) :
    ((lengths (maxLength leaves)).map fun len => (symbolsAt leaves len).length).sum =
      leaves.length := by
  rw [← tableOf_flatten_length h, List.length_flatten, tableOf, List.map_map]
  rfl

/-- Settles O19: OFF and ALL8 by their definition, and NO_SAVINGS with the leaves counted by
length. -/
theorem policyRejectsByContainerSize : Obligations.PolicyRejectsByContainerSize := by
  intro leaves h
  refine ⟨rfl, ?_, ?_⟩
  · simp only [policyRejects, Bool.and_eq_true, decide_eq_true_eq]
  · rw [sum_symbolsAt_length h]
    exact decide_eq_true_iff

end Sys2Proof.Machine

/-! PROOFS. ASSIGN's whole effect: the canonical codes of the table's symbols, no codeword for the
others, and its frame (spec/43_code_assigner.md rules R200 to R202, R207). -/

namespace Sys2Proof.Machine

/-- The symbols of an entry are symbols of the table. -/
theorem mem_flatten_of_mem_ltEntry {lt : List (List Byte)} {len : Nat} {sym : Byte}
    (h : sym ∈ ltEntry lt len) : sym ∈ lt.flatten := by
  rcases Nat.lt_or_ge (len - 1) lt.length with hlt | hge
  · rw [ltEntry, List.getD_eq_getElem _ _ hlt] at h
    exact List.mem_flatten_of_mem (List.getElem_mem hlt) h
  · rw [ltEntry, List.getD_eq_default _ _ hge] at h
    cases h

/-- A symbol outside the table has no codeword: CODE_LEN and CODE_VAL are 0 (R207). -/
theorem CodesOk.no_code_of_not_mem {s : State} (h : CodesOk s) {sym : Byte}
    (hs : sym ∉ s.lt.flatten) : fileGet s.codeLen sym = 0#8 ∧ fileGet s.codeVal sym = 0#255 := by
  obtain ⟨hlen, hval⟩ := h.upTo.other sym fun _ _ _ hmem => hs (mem_flatten_of_mem_ltEntry hmem)
  obtain ⟨-, -, hl, hv⟩ := h
  rw [hl, hv]
  exact ⟨hlen, hval⟩

/-- Settles O21: the state ASSIGN leaves holds the codes of its own table, so R201, R202 and R207 are
what CodesOk says of the table's symbols and of the others. -/
theorem assignGivesTheCanonicalCodes : Obligations.AssignGivesTheCanonicalCodes := by
  intro s herr hl ht htable
  have hcodes : CodesOk { s with
      codeLen := (assignCodes s.lt s.ltMax.toNat).len
      codeVal := (assignCodes s.lt s.ltMax.toNat).val
      codesValid := true } := ⟨rfl, htable, rfl, rfl⟩
  exact ⟨_, exec_of_ok (i := .assign) nofun herr (assignResult_of_table hl ht), rfl,
    fun _ _ _ h1 hm hj => hcodes.code_of_entry h1 hm hj,
    fun _ hs => hcodes.no_code_of_not_mem hs⟩

end Sys2Proof.Machine

/-! PROOFS. The bit packer: ENC in each of its cases, ENC_FLUSH, and a whole encode session
(spec/44_bit_packer.md rules R220 to R227). -/

namespace Sys2Proof.Machine

/-! ### ENC -/

theorem encBits_length (s : State) (sym : Byte) :
    (s.encBits sym).length = s.encAcc.length + codeLength s sym := by
  simp [State.encBits]

section enc
variable {p : Params} {s : State} {sym : Byte} (hv : s.codesValid = true)
include hv

theorem encResult_of_no_code (hc : ¬ HasCode s sym) :
    encResult p sym s = .error ⟨.noCode, sym.setWidth 32⟩ := by
  simp [encResult, hv, not_not.1 hc]

/-- With a codeword for the symbol, the room for the whole bytes decides. -/
theorem encResult_of_code (hc : HasCode s sym) :
    encResult p sym s =
      pushIfRoom p
        { s with
          encAcc := (s.encBits sym).drop (8 * ((s.encBits sym).length / 8)), encAct := true }
        (packBytes ((s.encBits sym).length / 8) (s.encBits sym)) := by
  have hlen : fileGet s.codeLen sym ≠ 0#8 := hc
  simp [encResult, hv, hlen]

/-- ENC splits the pending bits and the codeword into whole bytes and fewer than 8 bits (R220). -/
theorem exec_enc_of_room (herr : s.err = false) (hc : HasCode s sym)
    (hroom : s.outq.length + (s.encAcc.length + codeLength s sym) / 8 ≤ 1024) :
    ∃ out acc, exec (.enc sym) s = .next
        { s with outq := s.outq ++ out, encAcc := acc, encAct := true } ∧
      unpackBytes out ++ acc = s.encAcc ++ s.codeword sym ∧ acc.length < 8 := by
  obtain ⟨hbits, hacc⟩ := packBytes_split (s.encBits sym)
  refine ⟨_, _, exec_of_ok nofun herr ?_, hbits, hacc⟩
  exact (encResult_of_code hv hc).trans (pushIfRoom_ok (by simpa [encBits_length] using hroom))

theorem exec_enc_of_no_room (herr : s.err = false) (hc : HasCode s sym)
    (hroom : s.outq.length + (s.encAcc.length + codeLength s sym) / 8 > 1024) :
    exec (.enc sym) s = .next (s.takeError
      ⟨.outqOverflow, BitVec.ofNat 32 ((s.encAcc.length + codeLength s sym) / 8)⟩) := by
  refine exec_of_error nofun herr ((encResult_of_code hv hc).trans ?_)
  rw [pushIfRoom_error (by simpa [encBits_length] using hroom), packBytes_length, encBits_length]

end enc

/-- Bit k of a codeword, the most significant first (R88). -/
theorem codeword_getElem? (s : State) {sym : Byte} {k : Nat} (hk : k < codeLength s sym) :
    (s.codeword sym)[k]? =
      some ((fileGet s.codeVal sym).getLsbD (codeLength s sym - 1 - k)) := by
  rw [State.codeword, bitsMsb_getElem?, ← codeLength, if_pos hk, BitVec.testBit_toNat]

/-- Settles O25: packing loses no bit, and the codeword's bits are those of CODE_VAL. -/
theorem encAppendsTheCodeword : Obligations.EncAppendsTheCodeword := by
  intro s sym herr hv hc hroom
  obtain ⟨out, acc, hexec, hbits, hacc⟩ := exec_enc_of_room hv herr hc hroom
  exact ⟨s.codeword sym, acc, out, hexec, s.codeword_length sym,
    fun _ hk => codeword_getElem? s hk, hbits, hacc⟩

/-- Settles O26: the check for a codeword comes before the check for room. -/
theorem encErrors : Obligations.EncErrors :=
  ⟨fun _ sym herr hv hc => exec_of_error (i := .enc sym) nofun herr (encResult_of_no_code hv hc),
    fun _ _ herr hv hc hroom => exec_enc_of_no_room hv herr hc hroom⟩

/-! ### ENC_FLUSH -/

section flush
variable {s : State} (herr : s.err = false) (hv : s.codesValid = true)
include herr hv

theorem exec_encFlush_of_room (hroom : s.outq.length + (flushBytes s.encAcc).length ≤ 1024) :
    exec .encFlush s = .next
      { s with outq := s.outq ++ flushBytes s.encAcc, encAcc := [], encAct := false } := by
  refine exec_of_ok nofun herr ?_
  rw [commandResult, encFlushResult, if_neg (by simp [hv])]
  exact pushIfRoom_ok hroom

theorem exec_encFlush_of_no_room (hroom : s.outq.length + (flushBytes s.encAcc).length > 1024) :
    exec .encFlush s = .next (s.takeError
      ⟨.outqOverflow, BitVec.ofNat 32 (flushBytes s.encAcc).length⟩) := by
  refine exec_of_error nofun herr ?_
  rw [commandResult, encFlushResult, if_neg (by simp [hv])]
  exact pushIfRoom_error hroom

end flush

@[simp] theorem flushBytes_nil : flushBytes [] = [0#8] := rfl

theorem flushBytes_of_ne_nil {acc : BitSeq} (h : acc ≠ []) :
    flushBytes acc =
      [bitsByte (acc ++ zeroBits (8 - acc.length)), BitVec.ofNat 8 (8 - acc.length)] :=
  if_pos (List.length_pos_iff.2 h)

/-- The last chunk holds the pending bits and then zeros (R222). -/
theorem byteBits_padded {acc : BitSeq} (h : acc.length ≤ 8) :
    byteBits (bitsByte (acc ++ zeroBits (8 - acc.length))) =
      acc ++ zeroBits (8 - acc.length) :=
  byteBits_bitsByte (by simp; omega)

/-- Settles O27: one byte with nothing pending, else the padded chunk and its padding count. -/
theorem encFlushPadsAndPushesTheTrailer : Obligations.EncFlushPadsAndPushesTheTrailer := by
  intro s herr hv h7
  refine ⟨fun hnil hroom => ?_, fun hne hroom => ?_, fun hnil hroom => ?_, fun hne hroom => ?_⟩
  · have := exec_encFlush_of_room herr hv (by simpa [hnil] using hroom)
    rwa [hnil, flushBytes_nil] at this
  · have := exec_encFlush_of_room herr hv (by simpa [flushBytes_of_ne_nil hne] using hroom)
    rw [flushBytes_of_ne_nil hne] at this
    exact ⟨_, byteBits_padded (by omega), this⟩
  · have := exec_encFlush_of_no_room herr hv (by simpa [hnil] using hroom)
    rwa [hnil] at this
  · have := exec_encFlush_of_no_room herr hv (by simpa [flushBytes_of_ne_nil hne] using hroom)
    rwa [flushBytes_of_ne_nil hne] at this

/-! ### An encode session -/

/-- ENC_FLUSH pushes what is left of the payload, the pending bits padded to whole bytes, and the
trailer (R222, R223). -/
theorem flushBytes_eq {acc : BitSeq} (h : acc.length < 8) :
    ∃ last, flushBytes acc = last ++ [BitVec.ofNat 8 ((8 - acc.length % 8) % 8)] ∧
      unpackBytes last = acc ++ List.replicate ((8 - acc.length % 8) % 8) false := by
  by_cases hnil : acc = []
  · exact ⟨[], by simp [hnil], by simp [hnil]⟩
  · have hpos := List.length_pos_iff.2 hnil
    rw [show (8 - acc.length % 8) % 8 = 8 - acc.length by omega]
    refine ⟨[_], flushBytes_of_ne_nil hnil, ?_⟩
    rw [unpackBytes_cons, byteBits_padded h.le, unpackBytes_nil, List.append_nil, zeroBits]

@[simp] theorem execAll_nil (s : State) : execAll [] s = .next s := rfl

theorem execAll_cons_of_next {i : Instr} {s t : State} (h : exec i s = .next t)
    (rest : List Instr) : execAll (i :: rest) s = execAll rest t := by
  rw [execAll, h]

/-- ENC commands one after another append the codewords in input order, push the whole bytes and
keep the fewer than 8 bits left (R220, R221). -/
theorem execAll_encSymbols {xs : List Byte} (rest : List Instr) {s : State} (herr : s.err = false)
    (hv : s.codesValid = true) (hacc : s.encAcc.length < 8) (hxs : ∀ x ∈ xs, HasCode s x)
    (hroom : s.outq.length + (s.encAcc ++ xs.flatMap s.codeword).length / 8 ≤ 1024) :
    ∃ out acc act, execAll (encSymbols xs ++ rest) s = execAll rest
        { s with outq := s.outq ++ out, encAcc := acc, encAct := act } ∧
      unpackBytes out ++ acc = s.encAcc ++ xs.flatMap s.codeword ∧ acc.length < 8 := by
  induction xs generalizing s with
  | nil => exact ⟨[], s.encAcc, s.encAct, by simp [encSymbols], by simp, hacc⟩
  | cons x xs ih =>
    obtain ⟨hx, hxs⟩ := List.forall_mem_cons.1 hxs
    simp only [List.flatMap_cons, List.length_append, State.codeword_length] at hroom
    obtain ⟨out1, acc1, hexec, hbits1, hacc1⟩ := exec_enc_of_room hv herr hx (by omega)
    have hlen : 8 * out1.length + acc1.length = s.encAcc.length + codeLength s x := by
      simpa using congrArg List.length hbits1
    obtain ⟨out2, acc2, act, hall, hbits2, hacc2⟩ := ih
      (s := { s with outq := s.outq ++ out1, encAcc := acc1, encAct := true }) herr hv hacc1 hxs
      (by
        simp only [List.length_append]
        change _ + (_ + (xs.flatMap s.codeword).length) / 8 ≤ 1024
        omega)
    refine ⟨out1 ++ out2, acc2, act, ?_, ?_, hacc2⟩
    · rw [← List.append_assoc]
      exact (execAll_cons_of_next hexec _).trans hall
    · calc unpackBytes (out1 ++ out2) ++ acc2
          = unpackBytes out1 ++ (unpackBytes out2 ++ acc2) := by
            rw [unpackBytes_append, List.append_assoc]
        _ = unpackBytes out1 ++ (acc1 ++ xs.flatMap s.codeword) := congrArg _ hbits2
        _ = s.encAcc ++ (x :: xs).flatMap s.codeword := by
            rw [← List.append_assoc, hbits1, List.append_assoc, List.flatMap_cons]

/-- The length of a payload less its padding (R225). -/
theorem flatMap_codeword_length (s : State) (xs : List Byte) :
    (xs.flatMap s.codeword).length = (xs.map (codeLength s)).sum := by
  simp [List.length_flatMap]

/-- Settles O28: the ENC commands leave fewer than 8 bits pending, and ENC_FLUSH pads these. -/
theorem anEncodeSessionPacksTheCodewordsInOrder :
    Obligations.AnEncodeSessionPacksTheCodewordsInOrder := by
  rintro s xs b herr hv hnil hxs rfl hroom
  rw [← flatMap_codeword_length] at hroom ⊢
  obtain ⟨out, acc, act, hall, hbits, hacc⟩ := execAll_encSymbols [.encFlush] herr hv
    (by simp [hnil]) hxs (by rw [hnil, List.nil_append]; omega)
  rw [hnil, List.nil_append] at hbits
  obtain ⟨last, hflush, hlast⟩ := flushBytes_eq hacc
  have hlen : 8 * out.length + acc.length = (xs.flatMap s.codeword).length := by
    simpa using congrArg List.length hbits
  have hlenLast : 8 * last.length = acc.length + (8 - acc.length % 8) % 8 := by
    simpa using congrArg List.length hlast
  rw [show (8 - (xs.flatMap s.codeword).length % 8) % 8 = (8 - acc.length % 8) % 8 by omega]
  refine ⟨out ++ last, ?_, by rw [List.length_append]; omega, ?_⟩
  · have hexec := exec_encFlush_of_room
      (s := { s with outq := s.outq ++ out, encAcc := acc, encAct := act }) herr hv
      (by simp only [hflush, List.length_append, List.length_singleton]; omega)
    rw [hall, execAll_cons_of_next hexec, execAll_nil]
    simp [hflush]
  · rw [unpackBytes_append, hlast, ← List.append_assoc, hbits]

end Sys2Proof.Machine

/-! PROOFS. Decoding inverts encoding: the codewords at the front of a bit sequence, what DEC_FEED
and DEC_FINISH make of them, and the feeding of a whole payload (spec/45_bit_unpacker.md rules R240
to R248, spec/44_bit_packer.md rule R227). -/

namespace Sys2Proof.Machine

/-! ### Codewords at the front of a bit sequence -/

namespace CodesOk

variable {s : State} (h : CodesOk s)
include h

/-- DMAP knows a bit sequence exactly where it is a codeword, and then by its symbol (R56). -/
theorem dmap_bitsVal_eq_some {b : BitSeq} {k : Nat} (hk : b.length = k) {sym : Byte} :
    s.dmap k (bitsVal b) = some sym ↔ HasCode s sym ∧ s.codeword sym = b := by
  rw [decodeViewInvertsTheEncodeView s h]
  subst hk
  constructor
  · rintro ⟨hpos, hlen, hval⟩
    refine ⟨fun h0 => ?_, ?_⟩
    · rw [← hlen, codeLength, h0] at hpos
      exact absurd hpos (by decide)
    · rw [State.codeword, ← codeLength, hlen, hval, bitsMsb_bitsVal]
  · rintro ⟨hc, rfl⟩
    obtain ⟨hpos, -⟩ := h.entry_of_code hc
    rw [s.codeword_length, h.bitsVal_codeword hc]
    exact ⟨hpos, rfl, rfl⟩

theorem eq_of_codeword_isPrefix {x y : Byte} (hx : HasCode s x) (hy : HasCode s y)
    (hp : s.codeword y <+: s.codeword x) : y = x := by
  obtain ⟨more, he⟩ := hp
  exact h.eq_of_codeword_append hy hx he.symm

/-- A codeword at the front is the one that matches (R240). -/
theorem matchCode_codeword {x : Byte} (hx : HasCode s x) (more : BitSeq) :
    matchCode s.dmap (s.codeword x ++ more) s.ltMax.toNat = some (codeLength s x, x) := by
  obtain ⟨hpos, hmax, -⟩ := h.entry_of_code hx
  have hlen := s.codeword_length x
  refine matchCode_of_first hpos (by simp) hmax ?_ fun j _ hj => ?_
  · rw [← hlen, List.take_left]
    exact (h.dmap_bitsVal_eq_some rfl).2 ⟨hx, rfl⟩
  · rw [List.take_append_of_le_length (by omega)]
    refine Option.eq_none_iff_forall_ne_some.2 fun y hd => ?_
    obtain ⟨hy, he⟩ := (h.dmap_bitsVal_eq_some (by simp [hj.le])).1 hd
    obtain rfl := h.eq_of_codeword_isPrefix hx hy (he ▸ List.take_prefix j _)
    have := congrArg List.length he
    rw [List.length_take] at this
    omega

/-- Where no codeword begins the bits, nothing matches (R240). -/
theorem matchCode_of_noCodeBegins {bits : BitSeq} (hn : NoCodeBegins s bits) (maxLen : Nat) :
    matchCode s.dmap bits maxLen = none := by
  refine matchCode_eq_none.2 fun k _ hk _ => Option.eq_none_iff_forall_ne_some.2 fun y hd => ?_
  obtain ⟨hy, he⟩ := (h.dmap_bitsVal_eq_some (by simp [hk])).1 hd
  exact hn y hy (bits.drop k) (by rw [he, List.take_append_drop])

/-- greedy takes off the codewords at the front and leaves bits that no codeword begins (R240). -/
theorem greedy_codewords {xs : List Byte} (hxs : ∀ x ∈ xs, HasCode s x) {rest : BitSeq}
    (hn : NoCodeBegins s rest) (hlt : rest.length < s.ltMax.toNat) :
    greedy s.dmap (xs.flatMap s.codeword ++ rest) s.ltMax.toNat = .ok (rest, xs) := by
  induction xs with
  | nil =>
    rw [List.flatMap_nil, List.nil_append,
      greedy_of_no_match (h.matchCode_of_noCodeBegins hn _), if_neg (by omega)]
  | cons x xs ih =>
    obtain ⟨hx, hxs⟩ := List.forall_mem_cons.1 hxs
    rw [List.flatMap_cons, List.append_assoc, greedy_of_match (h.matchCode_codeword hx _),
      ← s.codeword_length x, List.drop_left, ih hxs]

theorem decodeBits_codewords {xs : List Byte} (hxs : ∀ x ∈ xs, HasCode s x) {rest : BitSeq}
    (hn : NoCodeBegins s rest) (hlt : rest.length < s.ltMax.toNat) :
    s.decodeBits (xs.flatMap s.codeword ++ rest) = .ok (rest, xs) := by
  rw [State.decodeBits, h.greedy_codewords hxs hn hlt]

/-- Fewer bits of a codeword than all are no codeword and begin with none (R55). -/
theorem noCodeBegins_of_isPrefix {x : Byte} (hx : HasCode s x) {bits : BitSeq}
    (hp : bits <+: s.codeword x) (hlt : bits.length < codeLength s x) : NoCodeBegins s bits := by
  rintro y hy more rfl
  obtain rfl := h.eq_of_codeword_isPrefix hx hy ((List.prefix_append _ _).trans hp)
  rw [List.length_append, s.codeword_length] at hlt
  omega

theorem noCodeBegins_nil : NoCodeBegins s [] := by
  intro y hy more he
  obtain ⟨hpos, -⟩ := h.entry_of_code hy
  have := congrArg List.length he
  rw [List.length_nil, List.length_append, s.codeword_length] at this
  omega

/-- A beginning of a sequence of codewords is some of them, and then the beginning of the next. -/
theorem split_codewords {xs : List Byte} (hxs : ∀ x ∈ xs, HasCode s x) {bits : BitSeq}
    (hp : bits <+: xs.flatMap s.codeword) :
    ∃ ys zs rest, xs = ys ++ zs ∧ bits = ys.flatMap s.codeword ++ rest ∧ NoCodeBegins s rest ∧
      rest.length < s.ltMax.toNat := by
  induction xs generalizing bits with
  | nil =>
    obtain rfl := List.prefix_nil.1 hp
    exact ⟨[], [], [], rfl, rfl, h.noCodeBegins_nil, h.2.1.max_pos⟩
  | cons x xs ih =>
    obtain ⟨hx, hxs⟩ := List.forall_mem_cons.1 hxs
    rw [List.flatMap_cons] at hp
    rcases Nat.lt_or_ge bits.length (codeLength s x) with hlt | hge
    · have hbits : bits <+: s.codeword x :=
        List.prefix_of_prefix_length_le hp (List.prefix_append _ _) (by simpa using hlt.le)
      obtain ⟨-, hmax, -⟩ := h.entry_of_code hx
      exact ⟨[], x :: xs, bits, rfl, rfl, h.noCodeBegins_of_isPrefix hx hbits hlt, by omega⟩
    · obtain ⟨more, rfl⟩ : s.codeword x <+: bits :=
        List.prefix_of_prefix_length_le (List.prefix_append _ _) hp (by simpa using hge)
      obtain ⟨ys, zs, rest, rfl, rfl, hn, hr⟩ := ih hxs ((List.prefix_append_right_inj _).1 hp)
      exact ⟨x :: ys, zs, rest, rfl, by rw [List.flatMap_cons, List.append_assoc], hn, hr⟩

/-! ### DEC_FEED and DEC_FINISH on codewords -/

/-- DEC_FEED decodes the codewords at the front of the bits up to the held byte (R241). -/
theorem decFeedResult_of_codewords {p : Params} {b : Byte} {xs : List Byte} {rest : BitSeq}
    (hheld : s.holdV = true) (hxs : ∀ x ∈ xs, HasCode s x)
    (hbits : s.dbits ++ byteBits s.hold = xs.flatMap s.codeword ++ rest)
    (hn : NoCodeBegins s rest) (hlt : rest.length < s.ltMax.toNat) :
    decFeedResult p b s =
      pushIfRoom p { s with dbits := rest, hold := b, holdV := true, decAct := true } xs := by
  have hfeed : s.feedBits = .ok (rest, xs) := by
    rw [State.feedBits, if_pos hheld, hbits, h.decodeBits_codewords hxs hn hlt]
  simp [decFeedResult, h.1, hfeed]

/-- With no byte held DEC_FEED decodes nothing (R241). -/
theorem decFeedResult_of_not_held {p : Params} {b : Byte} (hheld : s.holdV = false) :
    decFeedResult p b s =
      pushIfRoom p { s with hold := b, holdV := true, decAct := true } [] := by
  simp [decFeedResult, h.1, State.feedBits, hheld]

/-- DEC_FINISH decodes bits that are exactly codewords (R242). -/
theorem decFinishResult_of_codewords {p : Params} {pad : Byte} {xs : List Byte}
    (hpad : pad.toNat ≤ 7) (hheld : s.holdV = false → pad = 0#8)
    (hxs : ∀ x ∈ xs, HasCode s x) (hbits : s.dbits ++ s.tailBits pad = xs.flatMap s.codeword) :
    decFinishResult p pad s =
      pushIfRoom p { s with dbits := [], hold := 0#8, holdV := false, decAct := false } xs := by
  have hdec : s.decodeBits (s.dbits ++ s.tailBits pad) = .ok ([], xs) := by
    rw [hbits, ← List.append_nil (xs.flatMap _)]
    exact h.decodeBits_codewords hxs h.noCodeBegins_nil h.2.1.max_pos
  rw [decFinishResult, if_neg (by simp [h.1]), if_neg (by omega),
    if_neg fun hc => hc.2 (hheld hc.1), hdec]
  rfl

end CodesOk

/-! ### A whole payload -/

theorem decodePayload_cons (b : Byte) (bytes : List Byte) (trailer : Byte) :
    decodePayload (b :: bytes) trailer = .decFeed b :: decodePayload bytes trailer := rfl

namespace CodesOk

variable {s : State} (h : CodesOk s)
include h

/-- The last bits of the held byte are the padding, which DEC_FINISH drops (R242). -/
theorem execAll_decodePayload_nil {trailer : Byte} {xs : List Byte} (herr : s.err = false)
    (hpad : trailer.toNat ≤ 7) (hheld : s.holdV = false → trailer = 0#8)
    (hxs : ∀ x ∈ xs, HasCode s x) (hbits : s.dbits ++ s.tailBits trailer = xs.flatMap s.codeword)
    (hroom : s.outq.length + xs.length ≤ 1024) :
    execAll (decodePayload [] trailer) s = .next { s with
      outq := s.outq ++ xs, dbits := [], hold := 0#8, holdV := false, decAct := false } :=
  execAll_cons_of_next (exec_of_ok (i := .decFinish trailer) nofun herr
    ((h.decFinishResult_of_codewords hpad hheld hxs hbits).trans (pushIfRoom_ok hroom))) []

/-- Feeding the rest of a payload whose bits are codewords and padding, and finishing with the
padding count, pushes the codewords' symbols (R241, R242). -/
theorem execAll_decodePayload {bytes : List Byte} {trailer : Byte} {xs : List Byte}
    (herr : s.err = false) (hheld : s.holdV = true) (hxs : ∀ x ∈ xs, HasCode s x)
    (hroom : s.outq.length + xs.length ≤ 1024) (hpad : trailer.toNat ≤ 7)
    (hbits : s.dbits ++ byteBits s.hold ++ unpackBytes bytes =
      xs.flatMap s.codeword ++ List.replicate trailer.toNat false) :
    execAll (decodePayload bytes trailer) s = .next { s with
      outq := s.outq ++ xs, dbits := [], hold := 0#8, holdV := false, decAct := false } := by
  induction bytes generalizing s xs with
  | nil =>
    rw [unpackBytes_nil, List.append_nil, ← List.take_append_drop (8 - trailer.toNat)
      (byteBits s.hold), ← List.append_assoc] at hbits
    have htail : s.dbits ++ s.tailBits trailer = xs.flatMap s.codeword := by
      rw [State.tailBits, if_pos hheld]
      exact List.append_inj_left' hbits (by simp; omega)
    exact h.execAll_decodePayload_nil herr hpad (by simp [hheld]) hxs htail hroom
  | cons b bytes ih =>
    have hlen := congrArg List.length hbits
    simp only [List.length_append, unpackBytes_length, List.length_cons,
      List.length_replicate] at hlen
    have hp : s.dbits ++ byteBits s.hold <+: xs.flatMap s.codeword :=
      List.prefix_of_prefix_length_le (hbits ▸ List.prefix_append _ _) (List.prefix_append _ _)
        (by rw [List.length_append]; omega)
    obtain ⟨ys, zs, rest, rfl, hys, hn, hlt⟩ := h.split_codewords hxs hp
    obtain ⟨hxys, hxzs⟩ := List.forall_mem_append.1 hxs
    rw [List.length_append, ← Nat.add_assoc] at hroom
    rw [hys, List.flatMap_append, List.append_assoc, List.append_assoc,
      List.append_cancel_left_eq, unpackBytes_cons, ← List.append_assoc] at hbits
    have hfeed := (h.decFeedResult_of_codewords (p := Config.hardware) (b := b) hheld hxys hys hn
      hlt).trans (pushIfRoom_ok (Nat.le_of_add_right_le hroom))
    rw [decodePayload_cons, execAll_cons_of_next (exec_of_ok (i := .decFeed b) nofun herr hfeed)]
    refine (ih (s := { s with
      outq := s.outq ++ ys, dbits := rest, hold := b, holdV := true, decAct := true })
      h herr rfl hxzs (by simpa using hroom) hbits).trans ?_
    rw [List.append_assoc]

end CodesOk

/-- Settles O34: the payload's bits are the codewords and the padding, which the trailer counts. -/
theorem decodingInvertsEncoding : Obligations.DecodingInvertsEncoding := by
  intro s xs herr h hact hacc hdec hdbits hhold hheld houtq hxs hxs1024 hroom
  obtain ⟨payload, henc, -, hbits⟩ := anEncodeSessionPacksTheCodewordsInOrder s xs _ herr h.1 hacc
    hxs rfl (by simpa [houtq] using hroom)
  generalize hn : (8 - (xs.map (codeLength s)).sum % 8) % 8 = n at henc hbits
  have htrailer : (BitVec.ofNat 8 n).toNat = n := Nat.mod_eq_of_lt (by omega)
  refine ⟨payload, BitVec.ofNat 8 n, ?_, ?_⟩
  · rw [henc]
    simp [houtq, hacc, hact]
  cases payload with
  | nil =>
    obtain ⟨hnil, rfl⟩ : xs.flatMap s.codeword = [] ∧ n = 0 := by simpa using hbits
    rw [h.execAll_decodePayload_nil herr (by simp) (fun _ => rfl) hxs
      (by simp [State.tailBits, hdbits, hheld, hnil]) (by simpa [houtq] using hxs1024)]
    simp [houtq, hdbits, hhold, hheld, hdec]
  | cons b bytes =>
    have hfeed := (h.decFeedResult_of_not_held (p := Config.hardware) (b := b) hheld).trans
      (pushIfRoom_ok (by simp [houtq]))
    rw [decodePayload_cons, execAll_cons_of_next (exec_of_ok (i := .decFeed b) nofun herr hfeed)]
    refine (CodesOk.execAll_decodePayload (s := { s with
      outq := s.outq ++ [], hold := b, holdV := true, decAct := true })
      h herr rfl hxs (by simpa [houtq] using hxs1024) (by omega) ?_).trans ?_
    · change s.dbits ++ byteBits b ++ unpackBytes bytes = xs.flatMap s.codeword ++ _
      rw [hdbits, htrailer, List.nil_append, ← unpackBytes_cons, hbits]
    · simp [houtq, hdbits, hhold, hheld, hdec]

end Sys2Proof.Machine

/-! PROOFS. DEC_FEED and DEC_FINISH in each of their cases: the codewords they decode, the bits they
cannot, and when decoding fails (spec/45_bit_unpacker.md rules R240 to R245). -/

namespace Sys2Proof.Machine

/-! ### INVALID_DATA (R300) -/

/-- ERR_INFO of INVALID_DATA: the number of bits above the reason. -/
theorem invalidData_info (reason : Byte) (n : Nat) :
    (invalidData reason n).info = BitVec.ofNat 32 (n * 2 ^ 16 + reason.toNat) := by
  have hdisjoint : BitVec.ofNat 32 n <<< 16 &&& reason.setWidth 32 = 0#32 := by
    ext i hi
    rcases Nat.lt_or_ge i 16 with hlt | hge
    · simp [hlt]
    · simp [BitVec.getLsbD_of_ge reason i (by omega)]
  have hcount : BitVec.ofNat 32 n <<< 16 = BitVec.ofNat 32 (n * 2 ^ 16) := by
    apply BitVec.eq_of_toNat_eq
    rw [BitVec.toNat_shiftLeft, Nat.shiftLeft_eq, BitVec.toNat_ofNat, BitVec.toNat_ofNat,
      Nat.mod_mul_mod]
  rw [invalidData, ← BitVec.add_eq_or_of_and_eq_zero _ _ hdisjoint, hcount, BitVec.ofNat_add,
    BitVec.ofNat_toNat]

/-- The low byte of ERR_INFO is the reason. -/
theorem invalidData_reason (reason : Byte) (n : Nat) :
    (invalidData reason n).info.toNat % 256 = reason.toNat := by
  rw [invalidData_info, BitVec.toNat_ofNat]
  omega

/-- A command that raises INVALID_DATA changes only the error registers (R301). -/
theorem exec_of_invalidData {i : Instr} {s : State} {reason : Byte} {n : Nat} (hi : i ≠ .sreset)
    (herr : s.err = false)
    (h : commandResult Config.hardware i s = .error (invalidData reason n)) :
    exec i s = .next { s with
      err := true, cause := .invalidData
      errInfo := BitVec.ofNat 32 (n * 2 ^ 16 + reason.toNat) } := by
  rw [exec_of_error hi herr h, ← invalidData_info]
  rfl

/-! ### The cases of DEC_FEED and DEC_FINISH -/

/-- A push that fails is OUTQ_OVERFLOW. -/
theorem pushIfRoom_eq_error {p : Params} {s : State} {out : List Byte} {e : Raise}
    (h : pushIfRoom p s out = .error e) : e.cause = .outqOverflow := by
  rcases pushIfRoom_cases p s out with ⟨-, hok⟩ | ⟨-, herror⟩
  · cases hok.symm.trans h
  · cases herror.symm.trans h
    rfl

section commands
variable {p : Params} {s : State} {b pad : Byte} {e : Raise}

theorem decodeBits_of_greedy_error {bits : BitSeq} {m : Nat}
    (h : greedy s.dmap bits s.ltMax.toNat = .error m) :
    s.decodeBits bits = .error (invalidData 1#8 m) := by
  rw [State.decodeBits, h]

/-- DEC_FEED raises what decoding the bits up to the held byte does (R241). -/
theorem decFeedResult_of_decode_error (hv : s.codesValid = true) (hheld : s.holdV = true)
    (h : s.decodeBits (s.dbits ++ byteBits s.hold) = .error e) :
    decFeedResult p b s = .error e := by
  simp [decFeedResult, hv, State.feedBits, hheld, h]

/-- What DEC_FEED's errors are (R241). -/
theorem decFeedResult_error (h : decFeedResult p b s = .error e) :
    e = sequenceError 0x40#8 ∨ (∃ bits, s.decodeBits bits = .error e) ∨
      e.cause = .outqOverflow := by
  unfold decFeedResult at h
  split at h
  · exact .inl (by simpa using h.symm)
  · split at h
    · next r hf =>
      obtain rfl : r = e := by simpa using h
      unfold State.feedBits at hf
      split at hf
      · exact .inr (.inl ⟨_, hf⟩)
      · cases hf
    · exact .inr (.inr (pushIfRoom_eq_error h))

section trailer
variable (hv : s.codesValid = true)
include hv

theorem decFinishResult_of_pad_gt (hpad : pad.toNat > 7) :
    decFinishResult p pad s = .error (invalidData 3#8 0) := by
  simp [decFinishResult, hv, hpad]

theorem decFinishResult_of_pad_without_byte (hpad : pad.toNat ≤ 7) (hne : pad ≠ 0#8)
    (hheld : s.holdV = false) : decFinishResult p pad s = .error (invalidData 4#8 0) := by
  simp [decFinishResult, hv, hpad.not_gt, hne, hheld]

variable (hpad : pad.toNat ≤ 7) (hheld : s.holdV = false → pad = 0#8)
include hpad hheld

/-- DEC_FINISH raises what decoding the bits less the padding does (R242). -/
theorem decFinishResult_of_decode_error
    (h : s.decodeBits (s.dbits ++ s.tailBits pad) = .error e) :
    decFinishResult p pad s = .error e := by
  rw [decFinishResult, if_neg (by simp [hv]), if_neg hpad.not_gt,
    if_neg fun hc => hc.2 (hheld hc.1), h]

/-- DEC_FINISH with bits left over (R242, R244). -/
theorem decFinishResult_of_bits_left {rest : BitSeq} {xs : List Byte}
    (h : s.decodeBits (s.dbits ++ s.tailBits pad) = .ok (rest, xs)) (hrest : rest ≠ []) :
    decFinishResult p pad s = .error (invalidData 2#8 rest.length) := by
  rw [decFinishResult, if_neg (by simp [hv]), if_neg hpad.not_gt,
    if_neg fun hc => hc.2 (hheld hc.1), h]
  exact if_pos hrest

end trailer

/-- What DEC_FINISH's errors are (R242). -/
theorem decFinishResult_error (h : decFinishResult p pad s = .error e) :
    e = sequenceError 0x41#8 ∨ e = invalidData 3#8 0 ∨ e = invalidData 4#8 0 ∨
      (∃ bits, s.decodeBits bits = .error e) ∨ (∃ n, e = invalidData 2#8 n) ∨
      e.cause = .outqOverflow := by
  unfold decFinishResult at h
  split at h
  · exact .inl (by simpa using h.symm)
  · split at h
    · exact .inr (.inl (by simpa using h.symm))
    · split at h
      · exact .inr (.inr (.inl (by simpa using h.symm)))
      · split at h
        · next r hd =>
          obtain rfl : r = e := by simpa using h
          exact .inr (.inr (.inr (.inl ⟨_, hd⟩)))
        · split at h
          · exact .inr (.inr (.inr (.inr (.inl ⟨_, by simpa using h.symm⟩))))
          · exact .inr (.inr (.inr (.inr (.inr (pushIfRoom_eq_error h)))))

/-- A DEC command that sets ERR raised an error (R301). -/
theorem decode_error_of_exec {i : Instr} {t : State} (hi : i = .decFeed b ∨ i = .decFinish b)
    (herr : s.err = false) (hexec : exec i s = .next t) (hterr : t.err = true) :
    ∃ e, commandResult Config.hardware i s = .error e ∧ t = s.takeError e := by
  obtain ⟨rfl, -⟩ | ⟨-, he, -⟩ | ⟨-, -, hr⟩ | ⟨e, -, -, hr, ht⟩ := exec_cases hexec
  · simp at hi
  · simp [herr] at he
  · rcases hi with rfl | rfl
    · obtain ⟨-, _, _, -, -, rfl⟩ := decFeedResult_ok hr
      simp [herr] at hterr
    · obtain ⟨-, -, -, _, -, -, rfl⟩ := decFinishResult_ok hr
      simp [herr] at hterr
  · exact ⟨e, hr, ht⟩

end commands

/-! ### Bits that begin with no codeword -/

/-- Where every maxlen bits begin with a codeword, greedy never fails (R245). -/
theorem greedy_ok_of_match {dmap : Nat → Nat → Option Byte} {maxLen : Nat}
    (hall : ∀ bits : BitSeq, maxLen ≤ bits.length → matchCode dmap bits maxLen ≠ none)
    (bits : BitSeq) : ∃ rest out, greedy dmap bits maxLen = .ok (rest, out) := by
  induction hn : bits.length using Nat.strong_induction_on generalizing bits with
  | _ n ih =>
  cases hm : matchCode dmap bits maxLen with
  | none =>
    have hlt : ¬ maxLen ≤ bits.length := fun hle => hall bits hle hm
    exact ⟨bits, [], by rw [greedy_of_no_match hm, if_neg hlt]⟩
  | some m =>
    obtain ⟨k, sym⟩ := m
    obtain ⟨hpos, hk, -⟩ := matchCode_eq_some hm
    obtain ⟨rest, out, hg⟩ := ih _ (by rw [List.length_drop]; omega) (bits.drop k) rfl
    exact ⟨rest, sym :: out, by rw [greedy_of_match hm, hg]⟩

/-- Bits of a value below the end of length m's codes begin with a value among the codes of some
length up to m: each length's codes start where the extensions of the shorter ones end (R202). -/
theorem exists_code_interval (lt : List (List Byte)) (bits : BitSeq) {m : Nat} (h1 : 1 ≤ m)
    (hlen : m ≤ bits.length)
    (hlt : bitsVal (bits.take m) < firstCode lt m + (ltEntry lt m).length) :
    ∃ len, 1 ≤ len ∧ len ≤ m ∧ firstCode lt len ≤ bitsVal (bits.take len) ∧
      bitsVal (bits.take len) < firstCode lt len + (ltEntry lt len).length := by
  induction m, h1 using Nat.le_induction with
  | base => exact ⟨1, le_refl 1, le_refl 1, Nat.zero_le _, hlt⟩
  | succ m h1 ih =>
    rcases Nat.lt_or_ge (bitsVal (bits.take (m + 1))) (firstCode lt (m + 1)) with hbelow | hge
    · rw [List.take_succ_eq_append_getElem (by omega), bitsVal_append_singleton,
        firstCode_succ lt h1] at hbelow
      obtain ⟨len, hpos, hle, hcode⟩ := ih (by omega) (by omega)
      exact ⟨len, hpos, by omega, hcode⟩
    · exact ⟨m + 1, by omega, le_refl _, hge, hlt⟩

namespace CodesOk

variable {s : State} (h : CodesOk s)
include h

/-- Under Kraft's equality LT_MAX bits begin with a codeword (R245). -/
theorem matchCode_of_kraft (hk : kraftSum s.lt s.ltMax.toNat = 2 ^ s.ltMax.toNat) {bits : BitSeq}
    (hlen : s.ltMax.toNat ≤ bits.length) : matchCode s.dmap bits s.ltMax.toNat ≠ none := by
  have hend := firstCode_eq_sum s.lt h.2.1.max_pos (le_refl s.ltMax.toNat)
  rw [Nat.sub_self, pow_zero, mul_one, ← kraftSum, hk] at hend
  have hval := bitsVal_lt (bits.take s.ltMax.toNat)
  rw [List.length_take_of_le hlen, ← hend] at hval
  obtain ⟨len, h1, hm, hge, hlt⟩ := exists_code_interval s.lt bits h.2.1.max_pos hlen hval
  obtain ⟨j, hj⟩ := Nat.exists_eq_add_of_le hge
  have hjlt : j < (ltEntry s.lt len).length := by omega
  obtain ⟨hcl, hcv⟩ := h.code_of_entry h1 hm (List.getElem?_eq_getElem hjlt)
  have hdmap := (decodeViewInvertsTheEncodeView s h _ len _).2 ⟨h1, hcl, hcv.trans hj.symm⟩
  intro hnone
  rw [matchCode_eq_none.1 hnone len h1 (by omega) hm] at hdmap
  cases hdmap

/-- Under Kraft's equality decoding never fails (R245). -/
theorem greedy_of_kraft (hk : kraftSum s.lt s.ltMax.toNat = 2 ^ s.ltMax.toNat) (bits : BitSeq) :
    ∃ rest out, greedy s.dmap bits s.ltMax.toNat = .ok (rest, out) ∧
      rest.length < s.ltMax.toNat := by
  obtain ⟨rest, out, hg⟩ := greedy_ok_of_match (fun _ => h.matchCode_of_kraft hk) bits
  exact ⟨rest, out, hg, (greedy_ok hg).1⟩

theorem decodeBits_ne_error_of_kraft (hk : kraftSum s.lt s.ltMax.toNat = 2 ^ s.ltMax.toNat)
    (bits : BitSeq) (e : Raise) : s.decodeBits bits ≠ .error e := by
  obtain ⟨rest, out, hg, -⟩ := h.greedy_of_kraft hk bits
  rw [State.decodeBits, hg]
  nofun

/-- Under Kraft's equality a DEC command's INVALID_DATA has another reason than 1 (R245). -/
theorem reason_ne_one_of_kraft (hk : kraftSum s.lt s.ltMax.toNat = 2 ^ s.ltMax.toNat) {p : Params}
    {i : Instr} {b : Byte} {e : Raise} (hi : i = .decFeed b ∨ i = .decFinish b)
    (hr : commandResult p i s = .error e) (hcause : e.cause = .invalidData) :
    e.info.toNat % 256 ≠ 1 := by
  have hdec := fun bits => h.decodeBits_ne_error_of_kraft hk bits e
  rcases hi with rfl | rfl
  · obtain rfl | ⟨bits, hd⟩ | hover := decFeedResult_error hr
    · cases hcause
    · exact absurd hd (hdec bits)
    · cases hover.symm.trans hcause
  · obtain rfl | rfl | rfl | ⟨bits, hd⟩ | ⟨n, rfl⟩ | hover := decFinishResult_error hr
    · cases hcause
    · decide
    · decide
    · exact absurd hd (hdec bits)
    · rw [invalidData_reason]
      decide
    · cases hover.symm.trans hcause

/-- A failure past the codewords at the front is a failure of the whole (R240). -/
theorem greedy_codewords_error {xs : List Byte} (hxs : ∀ x ∈ xs, HasCode s x) {rest : BitSeq}
    {m : Nat} (hg : greedy s.dmap rest s.ltMax.toNat = .error m) :
    greedy s.dmap (xs.flatMap s.codeword ++ rest) s.ltMax.toNat = .error m := by
  induction xs with
  | nil => exact hg
  | cons x xs ih =>
    obtain ⟨hx, hxs⟩ := List.forall_mem_cons.1 hxs
    rw [List.flatMap_cons, List.append_assoc, greedy_of_match (h.matchCode_codeword hx _),
      ← s.codeword_length x, List.drop_left, ih hxs]

/-! ### The one-symbol table -/

section singleton
variable {sym : Byte} (hlt : s.lt = [[sym]])
include hlt

/-- The one codeword begins with a 0 bit, so a 1 bit at the front matches nothing (R245). -/
theorem greedy_one_of_singleton (bits : BitSeq) :
    greedy s.dmap (true :: bits) s.ltMax.toNat = .error (bits.length + 1) := by
  obtain ⟨-, -, hword, honly, -⟩ := h.codes_of_singleton hlt
  have hnone : NoCodeBegins s (true :: bits) := by
    intro x hx more he
    rw [honly x hx, hword] at he
    cases he
  have hmax : s.ltMax.toNat = 1 := by rw [← h.2.1.size, hlt, List.length_singleton]
  rw [greedy_of_no_match (h.matchCode_of_noCodeBegins hnone _), hmax, if_pos (by simp),
    List.length_cons]

/-- Decoding fails at the first 1 bit, with the bits from it on (R245). -/
theorem decodeBits_of_singleton (n : Nat) (rest : BitSeq) :
    s.decodeBits (List.replicate n false ++ true :: rest) =
      .error (invalidData 1#8 (rest.length + 1)) := by
  obtain ⟨hlen, -, hword, -⟩ := h.codes_of_singleton hlt
  have hcode : HasCode s sym := fun h0 => by simp [codeLength, h0] at hlen
  have hzeros : List.replicate n false = (List.replicate n sym).flatMap s.codeword := by
    rw [List.flatMap_replicate, hword]
    simp
  rw [hzeros]
  exact decodeBits_of_greedy_error (h.greedy_codewords_error
    (fun x hx => by rwa [List.eq_of_mem_replicate hx]) (h.greedy_one_of_singleton hlt rest))

end singleton

end CodesOk

/-! ### The statements -/

/-- Settles O31: the two checks of the padding count come before any decoding. -/
theorem decFinishChecksTheTrailerFirst : Obligations.DecFinishChecksTheTrailerFirst :=
  fun _ pad herr hv =>
    ⟨fun hpad => exec_of_invalidData (i := .decFinish pad) nofun herr
        (decFinishResult_of_pad_gt hv hpad),
      fun hpad hne hheld => exec_of_invalidData (i := .decFinish pad) nofun herr
        (decFinishResult_of_pad_without_byte hv hpad hne hheld)⟩

/-- Settles O29: DEC_FEED's result is the push of what it decodes, and the room decides. -/
theorem decFeedDecodesTheHeldByte : Obligations.DecFeedDecodesTheHeldByte := by
  intro s b herr h
  refine ⟨fun hheld hroom => ?_, fun xs rest hheld hxs hbits hn hlt => ?_⟩
  · rw [exec_of_ok (i := .decFeed b) nofun herr
      ((h.decFeedResult_of_not_held hheld).trans (pushIfRoom_ok hroom)),
      State.pushBytes, List.append_nil]
  · have hres := h.decFeedResult_of_codewords (p := Config.hardware) (b := b) hheld hxs hbits hn
      hlt
    exact ⟨fun hroom => exec_of_ok (i := .decFeed b) nofun herr
        (hres.trans (pushIfRoom_ok hroom)),
      fun hroom => exec_of_error (i := .decFeed b) nofun herr
        (hres.trans (pushIfRoom_error hroom))⟩

/-- Settles O30: DEC_FINISH's result is the push of what it decodes, and the room decides. -/
theorem decFinishDecodesTheTail : Obligations.DecFinishDecodesTheTail := by
  intro s pad xs herr h hpad hheld hxs hbits
  have hres := h.decFinishResult_of_codewords (p := Config.hardware) hpad hheld hxs hbits
  exact ⟨fun hroom => exec_of_ok (i := .decFinish pad) nofun herr
      (hres.trans (pushIfRoom_ok hroom)),
    fun hroom => exec_of_error (i := .decFinish pad) nofun herr
      (hres.trans (pushIfRoom_error hroom))⟩

/-- Settles O32: decoding ends with the bits of the cut codeword left over. -/
theorem aCutCodewordIsInvalidData : Obligations.ACutCodewordIsInvalidData := by
  intro s pad xs rest herr h hheld hpad hxs hbits hrest hlt hn
  have hdec : s.decodeBits (s.dbits ++ s.tailBits pad) = .ok (rest, xs) := by
    rw [State.tailBits, if_pos hheld, hbits]
    exact h.decodeBits_codewords hxs hn hlt
  exact exec_of_invalidData (i := .decFinish pad) nofun herr
    (decFinishResult_of_bits_left h.1 hpad (by simp [hheld]) hdec hrest)

/-- Settles O33: under Kraft's equality the codes of all lengths cover every LT_MAX bits, and with
one symbol only 0 bits decode. -/
theorem decodingFailsOnlyForTheOneSymbolTable :
    Obligations.DecodingFailsOnlyForTheOneSymbolTable := by
  intro s h
  refine ⟨fun hk => ⟨h.greedy_of_kraft hk, ?_⟩, fun sym hlt =>
    ⟨h.greedy_one_of_singleton hlt, fun b n rest herr hheld hbits => ?_,
      fun pad n rest herr hpad hheld hbits => ?_⟩⟩
  · intro i b t hi herr hexec hterr hcause
    obtain ⟨e, hr, rfl⟩ := decode_error_of_exec hi herr hexec hterr
    exact h.reason_ne_one_of_kraft hk hi hr hcause
  · exact exec_of_invalidData (i := .decFeed b) nofun herr (decFeedResult_of_decode_error h.1 hheld
      (hbits ▸ h.decodeBits_of_singleton hlt n rest))
  · exact exec_of_invalidData (i := .decFinish pad) nofun herr
      (decFinishResult_of_decode_error h.1 hpad hheld
        (hbits ▸ h.decodeBits_of_singleton hlt n rest))

end Sys2Proof.Machine

/-! PROOFS. The length-table port: HDR_EMIT, HDR_BEGIN, a header byte in each of its cases, and an
ASSIGN that cuts a load short (spec/46_length_table_port.md rules R260 to R267). -/

namespace Sys2Proof.Machine

/-! ### MALFORMED_HEADER (R300) -/

/-- ERR_INFO of MALFORMED_HEADER: the reason above the position. -/
theorem malformedHeader_info {reason : Nat} (hr : reason < 256) (pos : BitVec 10) :
    (malformedHeader (BitVec.ofNat 8 reason) pos).info =
      BitVec.ofNat 32 (reason * 2 ^ 24 + pos.toNat) := by
  have hp := pos.isLt
  have hreason : ((BitVec.ofNat 8 reason).setWidth 32).toNat = reason := by
    rw [BitVec.toNat_setWidth, BitVec.toNat_ofNat]
    omega
  have hpos : (pos.setWidth 32).toNat = pos.toNat := by
    rw [BitVec.toNat_setWidth, Nat.mod_eq_of_lt (by omega)]
  apply BitVec.eq_of_toNat_eq
  rw [malformedHeader, BitVec.or_comm, toNat_or_shiftLeft (by omega) (by omega), hreason, hpos,
    BitVec.toNat_ofNat, Nat.mod_eq_of_lt (by omega), Nat.add_comm]

/-- A command that raises MALFORMED_HEADER changes only the error registers (R301), in any build. -/
theorem execIn_of_malformedHeader {p : Params} {i : Instr} {s : State} {reason : Nat}
    {pos : BitVec 10} (hi : i ≠ .sreset) (herr : s.err = false)
    (h : commandResult p i s = .error (malformedHeader (BitVec.ofNat 8 reason) pos))
    (hr : reason < 256 := by decide) :
    execIn p i s = .next { s with
      err := true, cause := .malformedHeader
      errInfo := BitVec.ofNat 32 (reason * 2 ^ 24 + pos.toNat) } := by
  rw [execIn_of_error hi herr h, ← malformedHeader_info hr]
  rfl

/-- Settles O22: the check for a load in progress is ASSIGN's first. -/
theorem assignDuringALoadReportsTruncation : Obligations.AssignDuringALoadReportsTruncation := by
  intro s herr hl
  rw [exec_eq_execIn]
  exact execIn_of_malformedHeader (i := .assign) nofun herr (if_pos hl)

/-! ### HDR_EMIT -/

/-- The header of a table with LT_MAX entries: LT_MAX, the entries' lengths, and the table flattened
(R260). -/
theorem headerBytes_eq {lt : List (List Byte)} {ltMax : BitVec 8} (h : lt.length = ltMax.toNat) :
    headerBytes lt ltMax =
      ltMax :: lt.map (fun e => BitVec.ofNat 8 e.length) ++ lt.flatten := by
  have hcounts : (lengths ltMax.toNat).map (fun len => BitVec.ofNat 8 (ltEntry lt len).length) =
      lt.map fun e => BitVec.ofNat 8 e.length := by
    conv_rhs => rw [← map_ltEntry_lengths lt, List.map_map, h]
    rfl
  rw [headerBytes, hcounts, List.flatMap_def, ← h, map_ltEntry_lengths]

theorem TableOk.headerBytes_length {lt : List (List Byte)} {ltMax : BitVec 8}
    {ltNsym : BitVec 9} (h : TableOk lt ltMax ltNsym) :
    (headerBytes lt ltMax).length = 1 + ltMax.toNat + ltNsym.toNat := by
  rw [headerBytes_eq h.size, h.nsym, ← h.size]
  simp only [List.length_append, List.length_cons, List.length_map]
  omega

/-- No count of a table of R53 is too large for its byte. -/
theorem TableOk.toNat_count {lt : List (List Byte)} {ltMax : BitVec 8} {ltNsym : BitVec 9}
    (h : TableOk lt ltMax ltNsym) {e : List Byte} (he : e ∈ lt) :
    (BitVec.ofNat 8 e.length).toNat = e.length :=
  Nat.mod_eq_of_lt (Nat.lt_succ_of_le (h.counts e he))

theorem hdrEmitResult_of_table {p : Params} {s : State} (ht : s.ltValid = true) :
    hdrEmitResult p s = pushIfRoom p s (headerBytes s.lt s.ltMax) := if_neg (by simp [ht])

/-- Settles O35: HDR_EMIT's result is the push of the header, and the room decides. -/
theorem hdrEmitPushesTheHeader : Obligations.HdrEmitPushesTheHeader := by
  intro s herr ht htable
  have hres := hdrEmitResult_of_table (p := Config.hardware) ht
  have hlen := htable.headerBytes_length
  refine ⟨fun hroom => ⟨s.lt.map fun e => BitVec.ofNat 8 e.length, ?_, ?_⟩, fun hroom => ?_⟩
  · rw [List.map_map]
    exact List.map_congr_left fun e he => htable.toNat_count he
  · rw [exec_of_ok (i := .hdrEmit) nofun herr (hres.trans (pushIfRoom_ok
      (by rw [hlen, hardware_outqDepth]; omega))), headerBytes_eq htable.size,
      State.pushBytes, List.append_assoc]
  · rw [exec_of_error (i := .hdrEmit) nofun herr (hres.trans (pushIfRoom_error
      (by rw [hlen, hardware_outqDepth]; omega))), hlen]
    rfl

/-! ### HDR_BEGIN -/

theorem hdrBeginResult_of_no_session {s : State} (he : s.encAct = false) (hd : s.decAct = false) :
    hdrBeginResult s =
      .ok { s.clearTree.clearTable.clearCodes with ld := Loader.started } :=
  if_neg (by simp [he, hd])

theorem hdrBeginResult_of_session {s : State} (h : s.encAct = true ∨ s.decAct = true) :
    hdrBeginResult s = .error (sequenceError 0x21#8) := if_pos (by simpa using h)

/-- Settles O36: the check for an open session is HDR_BEGIN's only one. -/
theorem hdrBeginStartsALoad : Obligations.HdrBeginStartsALoad :=
  ⟨fun _ herr he hd =>
      exec_of_ok (i := .hdrBegin) nofun herr (hdrBeginResult_of_no_session he hd),
    fun _ herr h => exec_of_error (i := .hdrBegin) nofun herr (hdrBeginResult_of_session h)⟩

/-! ### What the loader answers to a byte -/

section loader
variable {lMax : Nat} {ld : Loader} {b : Byte}

theorem loadByte_of_bad_n (hp : ld.phase = .n) (hb : b = 0#8 ∨ b.toNat > lMax) :
    loadByte lMax ld b = .error (malformedHeader 1#8 ld.pos) := by
  rw [loadByte, hp]
  exact if_pos hb

theorem loadByte_of_n (hp : ld.phase = .n) (hb : b ≠ 0#8) (hle : b.toNat ≤ lMax) :
    loadByte lMax ld b = .ok (.more { ld with n := b, idx := 1#8, phase := .counts }) := by
  rw [loadByte, hp]
  exact if_neg (not_or.2 ⟨hb, hle.not_gt⟩)

section counts
variable (hp : ld.phase = .counts)
include hp

theorem loadByte_of_too_many (ht : ld.total.toNat + b.toNat > 256) :
    loadByte lMax ld b = .error (malformedHeader 2#8 ld.pos) := by
  rw [loadByte, hp]
  exact if_pos ht

variable (ht : ld.total.toNat + b.toNat ≤ 256)
include ht

theorem loadByte_of_count (hi : ld.idx.toNat < ld.n.toNat) :
    loadByte lMax ld b = .ok (.more { ld.withCount b with idx := ld.idx + 1#8 }) := by
  rw [loadByte, hp]
  exact (if_neg ht.not_gt).trans (if_pos hi)

theorem loadByte_of_zero_last_count (hi : ld.n.toNat ≤ ld.idx.toNat) (hb : b = 0#8) :
    loadByte lMax ld b = .error (malformedHeader 3#8 ld.pos) := by
  rw [loadByte, hp]
  exact (if_neg ht.not_gt).trans ((if_neg hi.not_gt).trans (if_pos hb))

theorem loadByte_of_last_count (hi : ld.n.toNat ≤ ld.idx.toNat) (hb : b ≠ 0#8) :
    loadByte lMax ld b = .ok (.more { (ld.withCount b).toLength 0 with phase := .syms }) := by
  rw [loadByte, hp]
  exact (if_neg ht.not_gt).trans ((if_neg hi.not_gt).trans (if_neg hb))

end counts

section symbols
variable (hp : ld.phase = .syms)
include hp

theorem loadByte_of_repeated (hb : ld.seen.getLsbD b.toNat = true) :
    loadByte lMax ld b = .error (malformedHeader 4#8 ld.pos) := by
  rw [loadByte, hp]
  exact if_pos hb

variable (hb : ld.seen.getLsbD b.toNat = false)
include hb

theorem loadByte_of_symbol (hl : (ld.withSymbol b).left ≠ 0#9) :
    loadByte lMax ld b = .ok (.more (ld.withSymbol b)) := by
  rw [loadByte, hp]
  exact (if_neg (by simp [hb])).trans (if_pos hl)

variable (hl : (ld.withSymbol b).left = 0#9)
include hl

theorem loadByte_of_last_of_length (hi : ld.idx.toNat < ld.n.toNat) :
    loadByte lMax ld b = .ok (.more ((ld.withSymbol b).toLength ld.idx.toNat)) := by
  rw [loadByte, hp]
  exact (if_neg (by simp [hb])).trans ((if_neg (by simp [hl])).trans (if_pos hi))

variable (hi : ld.n.toNat ≤ ld.idx.toNat)
include hi

/-- The last symbol of all: Kraft's test decides (R266). -/
theorem loadByte_of_last_symbol :
    loadByte lMax ld b = if kraftOk ld.count ld.n.toNat = true then
      .ok (.complete ((lengths ld.n.toNat).map (ld.withSymbol b).entry) ld.n ld.total)
      else .error (malformedHeader 5#8 ld.pos) := by
  rw [loadByte, hp]
  exact (if_neg (by simp [hb])).trans ((if_neg (by simp [hl])).trans (if_neg hi.not_gt))

end symbols

end loader

/-! ### HDR_BYTE -/

section hdrByte
variable {p : Params} {s : State} {b : Byte} (herr : s.err = false) (ha : s.ld.active = true)
include herr ha

/-- HDR_BYTE is what the loader answers (R263). -/
theorem execIn_hdrByte_of_ok {l : LoadStep} (h : loadByte p.lMax s.ld b = .ok l) :
    execIn p (.hdrByte b) s = .next (s.afterLoad l) := by
  refine execIn_of_ok nofun herr ?_
  rw [commandResult, hdrByteResult, if_neg (by simp [ha]), h]

theorem execIn_hdrByte_of_error {reason : Nat}
    (h : loadByte p.lMax s.ld b = .error (malformedHeader (BitVec.ofNat 8 reason) s.ld.pos))
    (hr : reason < 256 := by decide) :
    execIn p (.hdrByte b) s = .next { s with
      err := true, cause := .malformedHeader
      errInfo := BitVec.ofNat 32 (reason * 2 ^ 24 + s.ld.pos.toNat) } := by
  refine execIn_of_malformedHeader nofun herr ?_ hr
  rw [commandResult, hdrByteResult, if_neg (by simp [ha]), h]

theorem exec_hdrByte_of_ok {l : LoadStep} (h : loadByte 255 s.ld b = .ok l) :
    exec (.hdrByte b) s = .next (s.afterLoad l) :=
  (exec_eq_execIn _ _).trans (execIn_hdrByte_of_ok herr ha h)

theorem exec_hdrByte_of_error {reason : Nat}
    (h : loadByte 255 s.ld b = .error (malformedHeader (BitVec.ofNat 8 reason) s.ld.pos))
    (hr : reason < 256 := by decide) :
    exec (.hdrByte b) s = .next { s with
      err := true, cause := .malformedHeader
      errInfo := BitVec.ofNat 32 (reason * 2 ^ 24 + s.ld.pos.toNat) } :=
  (exec_eq_execIn _ _).trans (execIn_hdrByte_of_error herr ha h hr)

end hdrByte

theorem byte_le_hardware_lMax (b : Byte) : b.toNat ≤ Config.hardware.lMax :=
  Nat.le_of_lt_succ b.isLt

/-- Settles O37: in this build no byte is above L_MAX. -/
theorem theFirstHeaderByteIsN : Obligations.TheFirstHeaderByteIsN := by
  refine ⟨fun s b herr ha hp => ⟨fun hb => ?_, fun hb => ?_⟩,
    fun p s b herr ha hp => ⟨fun hb => ?_, fun hb hle => ?_⟩⟩
  · exact exec_hdrByte_of_error herr ha (loadByte_of_bad_n hp (.inl hb))
  · exact exec_hdrByte_of_ok herr ha (loadByte_of_n hp hb (byte_le_hardware_lMax b))
  · exact execIn_hdrByte_of_error herr ha (loadByte_of_bad_n hp hb)
  · exact execIn_hdrByte_of_ok herr ha (loadByte_of_n hp hb hle)

/-- Settles O38: the loader's answers while it reads counts, and the length it moves on to. -/
theorem countBytesFillTheCounts : Obligations.CountBytesFillTheCounts := by
  intro s b herr ha hp h1 hn
  have hcount := Loader.count_withCount (ld := s.ld) h1 b
  have hwith := s.ld.withCount_eq b
  refine ⟨fun ht => ?_, fun ht => ⟨fun hi => ?_, fun hi hb => ?_, fun hi hb => ?_⟩⟩
  · exact exec_hdrByte_of_error herr ha (loadByte_of_too_many hp ht)
  · refine ⟨_, exec_hdrByte_of_ok herr ha (loadByte_of_count hp ht hi), ?_, hcount⟩
    rw [hwith]
  · exact exec_hdrByte_of_error herr ha (loadByte_of_zero_last_count hp ht (by rw [hi]) hb)
  · have hnw : (s.ld.withCount b).n = s.ld.n := by rw [hwith]
    have hlast : (s.ld.withCount b).count s.ld.n.toNat = b.toNat := by
      rw [hcount, if_pos (by rw [hi])]
    obtain ⟨hpos, -, hleft, hsome, hnone⟩ :=
      Loader.toLength_spec (ld := s.ld.withCount b) (after := 0) (by rw [hnw]; omega)
        (by rw [hnw, hlast]; exact byte_toNat_pos hb)
    refine ⟨_, exec_hdrByte_of_ok herr ha (loadByte_of_last_count hp ht (by rw [hi]) hb), ?_,
      hcount, hsome, fun len hlen => ?_, hleft⟩
    · rw [Loader.toLength, hwith]
    · rcases Nat.eq_zero_or_pos len with rfl | hlpos
      · exact Loader.count_of_range (by omega)
      · exact hnone len hlpos hlen

/-! ### A symbol byte of a consistent load -/

section symbol
variable {ld : Loader} {b : Byte} (h : LoadOk ld) (hp : ld.phase = .syms)
include h

theorem seen_eq_false_of_not_mem (hb : b ∉ loadedSymbols ld) :
    ld.seen.getLsbD b.toNat = false := by
  rwa [← h.seen b, Bool.not_eq_true] at hb

include hp

/-- The symbol is the last one expected at its length exactly where LD_LEFT is 1 (R266). -/
theorem withSymbol_left_eq_zero (hb : ld.seen.getLsbD b.toNat = false) :
    (ld.withSymbol b).left = 0#9 ↔ ld.left.toNat = 1 := by
  obtain ⟨-, hleft, -⟩ := withSymbol_spec h hp hb
  rw [BitVec.toNat_eq, BitVec.toNat_ofNat]
  omega

/-- Below length N the loader moves on to the least longer length that has any symbol (R266). -/
theorem toLength_withSymbol_spec (b : Byte) (hi : ld.idx.toNat < ld.n.toNat) :
    ld.idx.toNat < ((ld.withSymbol b).toLength ld.idx.toNat).idx.toNat ∧
      0 < ld.count ((ld.withSymbol b).toLength ld.idx.toNat).idx.toNat ∧
      (∀ len, ld.idx.toNat < len →
        len < ((ld.withSymbol b).toLength ld.idx.toNat).idx.toNat → ld.count len = 0) ∧
      ((ld.withSymbol b).toLength ld.idx.toNat).left.toNat =
        ld.count ((ld.withSymbol b).toLength ld.idx.toNat).idx.toNat := by
  have hcount : ∀ len, (ld.withSymbol b).count len = ld.count len :=
    Loader.count_congr (by rw [Loader.withSymbol_eq])
  have hn : (ld.withSymbol b).n = ld.n := by rw [Loader.withSymbol_eq]
  obtain ⟨hgt, -, hleft, hsome, hnone⟩ := Loader.toLength_spec (ld := ld.withSymbol b)
    (after := ld.idx.toNat) (by rw [hn]; exact hi) (by rw [hcount, hn]; exact h.symsLast hp)
  simp only [hcount] at hleft hsome hnone
  exact ⟨hgt, hsome, hnone, hleft⟩

end symbol

/-- SEEN, bit by bit, with one more symbol (R266). -/
theorem getLsbD_seen_withSymbol (ld : Loader) (b sym : Byte) :
    (ld.withSymbol b).seen.getLsbD sym.toNat =
      (ld.seen.getLsbD sym.toNat || decide (sym = b)) := by
  rw [Bool.eq_iff_iff, Loader.seen_withSymbol, Bool.or_eq_true, decide_eq_true_eq, or_comm]

/-- Settles O39: the loader's answers while it reads symbols, the length it moves on to, and the
table it completes. -/
theorem symbolBytesFillTheTable : Obligations.SymbolBytesFillTheTable := by
  intro s b herr ha hp h
  refine ⟨fun hb => exec_hdrByte_of_error herr ha (loadByte_of_repeated hp ((h.seen b).2 hb)),
    fun hnew => ?_⟩
  have hb := seen_eq_false_of_not_mem h hnew
  obtain ⟨hentry, hleft, -⟩ := withSymbol_spec h hp hb
  have hzero := withSymbol_left_eq_zero h hp hb
  have hseen := getLsbD_seen_withSymbol s.ld b
  refine ⟨fun hmore => ?_, fun h1 hi => ?_⟩
  · by_cases h1 : s.ld.left.toNat = 1
    · have hi : s.ld.idx.toNat < s.ld.n.toNat := hmore.resolve_left (by omega)
      have hload := loadByte_of_last_of_length (lMax := 255) hp hb (hzero.2 h1) hi
      refine ⟨_, exec_hdrByte_of_ok herr ha hload, ?_, hentry, hseen,
        fun hgt => absurd h1 hgt.ne', fun _ => toLength_withSymbol_spec h hp b hi⟩
      rw [Loader.toLength, Loader.withSymbol_eq]
    · have hne : (s.ld.withSymbol b).left ≠ 0#9 := mt hzero.1 h1
      refine ⟨_, exec_hdrByte_of_ok herr ha (loadByte_of_symbol hp hb hne), ?_, hentry, hseen,
        fun _ => ⟨?_, hleft⟩, fun h2 => absurd h2 h1⟩ <;> rw [Loader.withSymbol_eq]
  · have hres := loadByte_of_last_symbol (lMax := 255) hp hb (hzero.2 h1) (by rw [hi])
    refine ⟨fun hk => ?_, fun hk => ?_⟩
    · rw [if_pos hk] at hres
      refine ⟨_, .n, exec_hdrByte_of_ok herr ha hres, by simp, fun len hl1 hln => ?_⟩
      rw [ltEntry_map_lengths _ ⟨hl1, hln⟩, hentry]
    · rw [if_neg (by simp [hk])] at hres
      exact exec_hdrByte_of_error herr ha hres

end Sys2Proof.Machine

/-! PROOFS. The header round trip: what a load keeps in common with the table whose header it reads,
through the counts and through the symbols (spec/46_length_table_port.md rule R268). -/

namespace Sys2Proof.Machine

variable {lt : List (List Byte)} {ltMax : BitVec 8} {ltNsym : BitVec 9} {ld ld' : Loader} {b : Byte}
  {rest : List Byte}

/-! ### Sums of counts -/

theorem sum_lengths_le {n m : Nat} (h : n ≤ m) (f : Nat → Nat) :
    ((lengths n).map f).sum ≤ ((lengths m).map f).sum := by
  obtain ⟨rest, hr, -⟩ := lengths_append h
  rw [hr, List.map_append, List.sum_append]
  exact Nat.le_add_right _ _

/-- A table's entries hold all of its symbols. -/
theorem sum_ltEntry_length (lt : List (List Byte)) :
    ((lengths lt.length).map fun len => (ltEntry lt len).length).sum = lt.flatten.length := by
  rw [List.length_flatten]
  conv_rhs => rw [← map_ltEntry_lengths lt, List.map_map]
  rfl

theorem TableOk.sum_ltEntry_length (h : TableOk lt ltMax ltNsym) :
    ((lengths ltMax.toNat).map fun len => (ltEntry lt len).length).sum = lt.flatten.length := by
  rw [← h.size, Machine.sum_ltEntry_length]

theorem TableOk.ltMax_ne_zero (h : TableOk lt ltMax ltNsym) : ltMax ≠ 0#8 := by
  rintro rfl
  exact absurd h.max_pos (by decide)

/-! ### A load that reads the header of a table -/

/-- A load that reads the counts of a table: N is the table's size, and each count read so far is
the number of symbols of its length. -/
structure ReadsCountsOf (lt : List (List Byte)) (ltMax : BitVec 8) (ld : Loader) : Prop where
  ok : LoadOk ld
  active : ld.active = true
  phase : ld.phase = .counts
  n : ld.n = ltMax
  counts : ∀ len, 1 ≤ len → len < ld.idx.toNat → ld.count len = (ltEntry lt len).length

/-- A load that has read all counts of a table, and all of its symbols but the last ones, `rest`. -/
structure ReadsSymbolsOf (lt : List (List Byte)) (ltMax : BitVec 8) (rest : List Byte)
    (ld : Loader) : Prop where
  ok : LoadOk ld
  active : ld.active = true
  phase : ld.phase = .syms
  n : ld.n = ltMax
  counts : ∀ len, 1 ≤ len → len ≤ ltMax.toNat → ld.count len = (ltEntry lt len).length
  symbols : loadedSymbols ld ++ rest = lt.flatten

/-- The first byte of a table's header starts its counts (R264). -/
theorem readsCountsOf_firstByte (ht : TableOk lt ltMax ltNsym) (hld : ld = Loader.started) :
    ReadsCountsOf lt ltMax
      { ld with n := ltMax, idx := 1#8, phase := .counts, pos := ld.pos + 1#10 } where
  ok := loadOk_firstByte (hld ▸ loadOk_started) (hld ▸ rfl) ht.ltMax_ne_zero rfl
  active := hld ▸ rfl
  phase := rfl
  n := rfl
  counts := fun _ h1 hlt => absurd hlt h1.not_gt

/-- LD_IDX is stepped below N only, so it never wraps. -/
theorem toNat_idx_succ (hi : ld.idx.toNat < ld.n.toNat) :
    (ld.idx + 1#8).toNat = ld.idx.toNat + 1 := by
  have := ld.n.isLt
  rw [BitVec.toNat_add, BitVec.toNat_ofNat]
  omega

namespace ReadsCountsOf

variable (ht : TableOk lt ltMax ltNsym) (h : ReadsCountsOf lt ltMax ld)
include ht h

/-- The counts of a table of R53 never pass 256 in all. -/
theorem total_add_le : ld.total.toNat + (ltEntry lt ld.idx.toNat).length ≤ 256 := by
  obtain ⟨h1, hn⟩ := h.ok.range (by simp [h.phase])
  have hlt := ld.idx.isLt
  obtain ⟨k, hk⟩ := Nat.exists_eq_add_of_le' h1
  have htotal : ld.total.toNat = ((lengths k).map fun len => (ltEntry lt len).length).sum := by
    rw [h.ok.total, loadedCount, sum_lengths_of_zero (n := k) (by omega)
      fun len hlen => h.ok.countsLater h.phase len (by omega)]
    refine congrArg List.sum (List.map_congr_left fun len hlen => ?_)
    obtain ⟨hl1, hlk⟩ := (mem_lengths _ _).1 hlen
    exact h.counts len hl1 (by omega)
  calc ld.total.toNat + (ltEntry lt ld.idx.toNat).length
      = ((lengths (k + 1)).map fun len => (ltEntry lt len).length).sum := by
        rw [htotal, hk, lengths_succ]
        simp
    _ ≤ ((lengths ltMax.toNat).map fun len => (ltEntry lt len).length).sum :=
        sum_lengths_le (by rw [← hk, ← h.n]; exact hn) _
    _ ≤ 256 := ht.sum_ltEntry_length ▸ length_le_of_nodup ht.distinct

variable (hb : b.toNat = (ltEntry lt ld.idx.toNat).length)
include hb

omit ht in
/-- With its next count a load reads the counts of the same table still. -/
theorem count_withCount (len : Nat) (h1 : 1 ≤ len) (hle : len ≤ ld.idx.toNat) :
    (ld.withCount b).count len = (ltEntry lt len).length := by
  rw [Loader.count_withCount (h.ok.range (by simp [h.phase])).1]
  split
  · next he => rw [he, hb]
  · next hne => exact h.counts len h1 (by omega)

theorem nextCount (hi : ld.idx.toNat < ld.n.toNat) : ReadsCountsOf lt ltMax
    { ld.withCount b with idx := ld.idx + 1#8, pos := ld.pos + 1#10 } where
  ok := loadOk_nextCount h.ok h.phase (hb ▸ h.total_add_le ht) hi rfl
  active := by rw [Loader.withCount_eq]; exact h.active
  phase := by rw [Loader.withCount_eq]; exact h.phase
  n := by rw [Loader.withCount_eq]; exact h.n
  counts := fun len h1 hlt => by
    rw [toNat_idx_succ hi] at hlt
    exact h.count_withCount hb len h1 (Nat.le_of_lt_succ hlt)

theorem lastCount (hi : ld.n.toNat ≤ ld.idx.toNat) (hne : b ≠ 0#8) :
    ReadsSymbolsOf lt ltMax lt.flatten
      { (ld.withCount b).toLength 0 with phase := .syms, pos := ld.pos + 1#10 } where
  ok := loadOk_lastCount h.ok h.phase (hb ▸ h.total_add_le ht) hi hne rfl
  active := by rw [Loader.toLength, Loader.withCount_eq]; exact h.active
  phase := rfl
  n := by rw [Loader.toLength, Loader.withCount_eq]; exact h.n
  counts := fun len h1 hle => h.count_withCount hb len h1 (by rw [h.n] at hi; omega)
  symbols := by
    rw [Loader.toLength, Loader.withCount_eq]
    change loadedSymbols ld ++ _ = _
    rw [(h.ok.countsNoSymbols h.phase).1, List.nil_append]

end ReadsCountsOf

/-- The last entry of a table of R53 is not empty. -/
theorem TableOk.length_last_ne (h : TableOk lt ltMax ltNsym) :
    (ltEntry lt ltMax.toNat).length ≠ 0 := fun h0 => h.last (List.eq_nil_of_length_eq_zero h0)

/-- The entry at which a table's rest begins. -/
theorem ltEntry_of_drop {len : Nat} {e : List Byte} {todo : List (List Byte)}
    (h : lt.drop (len - 1) = e :: todo) : ltEntry lt len = e := by
  have hget : lt[len - 1]? = some e := by
    rw [← Nat.add_zero (len - 1), ← List.getElem?_drop, h]
    rfl
  rw [ltEntry, List.getD, hget, Option.getD_some]

/-- The counts of a table, from the one at LD_IDX on, bring the load to the symbols (R265). -/
theorem execAll_counts (ht : TableOk lt ltMax ltNsym) (more : List Instr)
    {todo : List (List Byte)} {s : State} (herr : s.err = false)
    (h : ReadsCountsOf lt ltMax s.ld) (htodo : lt.drop (s.ld.idx.toNat - 1) = todo) :
    ∃ ld, ReadsSymbolsOf lt ltMax lt.flatten ld ∧
      execAll ((todo.map fun e => BitVec.ofNat 8 e.length).map .hdrByte ++ more) s =
        execAll more { s with ld := ld } := by
  induction todo generalizing s with
  | nil =>
    obtain ⟨h1, hn⟩ := h.ok.range (by simp [h.phase])
    have hsize := List.drop_eq_nil_iff.1 htodo
    rw [ht.size, ← h.n] at hsize
    omega
  | cons e todo ih =>
    obtain ⟨h1, hn⟩ := h.ok.range (by simp [h.phase])
    have hentry := ltEntry_of_drop htodo
    have htail : lt.drop s.ld.idx.toNat = todo := by
      rw [← Nat.sub_add_cancel h1, ← List.tail_drop, htodo, List.tail_cons]
    have hb : (BitVec.ofNat 8 e.length).toNat = (ltEntry lt s.ld.idx.toNat).length := by
      rw [hentry]
      exact ht.toNat_count (List.mem_of_mem_drop (htodo ▸ List.mem_cons_self))
    have htotal := hb ▸ h.total_add_le ht
    rw [List.map_cons, List.map_cons, List.cons_append]
    rcases Nat.lt_or_ge s.ld.idx.toNat s.ld.n.toNat with hi | hi
    · have hnext := h.nextCount ht hb hi
      rw [execAll_cons_of_next (exec_hdrByte_of_ok herr h.active
        (loadByte_of_count h.phase htotal hi))]
      exact ih (s := s.afterLoad _) herr hnext (by
        rw [State.afterLoad, toNat_idx_succ hi, Nat.add_sub_cancel, htail])
    · have hlast : s.ld.idx = ltMax := h.n ▸ BitVec.eq_of_toNat_eq (le_antisymm hn hi)
      have hne : BitVec.ofNat 8 e.length ≠ 0#8 := fun h0 => by
        rw [h0, hlast] at hb
        exact ht.length_last_ne hb.symm
      obtain rfl : todo = [] := by
        rw [← htail, hlast, ← ht.size, List.drop_length]
      exact ⟨_, h.lastCount ht hb hi hne, execAll_cons_of_next (exec_hdrByte_of_ok herr h.active
        (loadByte_of_last_count h.phase htotal hi hne)) more⟩

/-! ### The symbols -/

namespace LoadOk

variable (h : LoadOk ld) (hp : ld.phase = .syms)
include h hp

/-- While symbols are read fewer have come than were announced (R266). -/
theorem loadedSymbols_length_lt : (loadedSymbols ld).length < ld.total.toNat := by
  obtain ⟨hpos, hhere⟩ := h.symsHere hp
  obtain ⟨h1, -⟩ := h.range (by simp [hp])
  rw [h.total, loadedCount, loadedSymbols, List.length_flatMap]
  refine List.sum_lt_sum _ _ (fun len _ => ?_) ⟨ld.idx.toNat, ?_, by omega⟩
  · rcases Nat.lt_trichotomy len ld.idx.toNat with hlt | rfl | hgt
    · exact (h.symsBefore hp len hlt).le
    · omega
    · rw [h.symsAfter hp len hgt]
      exact Nat.zero_le _
  · exact (mem_lengths _ _).2 ⟨h1, Nat.le_of_lt_succ ld.idx.isLt⟩

/-- A symbol byte joins the symbols read at their end, since no longer length has any. -/
theorem loadedSymbols_withSymbol (b : Byte) :
    loadedSymbols (ld.withSymbol b) = loadedSymbols ld ++ [b] := by
  obtain ⟨h1, -⟩ := h.range (by simp [hp])
  have h255 : ld.idx.toNat ≤ 255 := Nat.le_of_lt_succ ld.idx.isLt
  have hentry := Loader.entry_withSymbol h1 b
  have hafter := h.symsAfter hp
  rw [loadedSymbols, loadedSymbols, flatMap_lengths_of_nil h255 hafter,
    flatMap_lengths_of_nil h255 fun len hlen => by rw [hentry, if_neg hlen.ne', hafter len hlen]]
  obtain ⟨k, hk⟩ := Nat.exists_eq_add_of_le' h1
  have hshort : (lengths k).flatMap (ld.withSymbol b).entry = (lengths k).flatMap ld.entry :=
    List.flatMap_congr fun len hlen => by
      rw [hentry, if_neg (by have := (mem_lengths _ _).1 hlen; omega)]
  rw [hk, lengths_succ, List.flatMap_append, List.flatMap_append, hshort, List.append_assoc,
    List.flatMap_singleton, List.flatMap_singleton, ← hk, hentry, if_pos rfl]

end LoadOk

namespace ReadsSymbolsOf

theorem total (ht : TableOk lt ltMax ltNsym) (h : ReadsSymbolsOf lt ltMax rest ld) :
    ld.total = ltNsym := by
  apply BitVec.eq_of_toNat_eq
  rw [h.ok.total, ht.nsym, ← ht.sum_ltEntry_length, loadedCount,
    sum_lengths_of_zero (Nat.le_of_lt_succ ld.n.isLt) (h.ok.symsBeyond h.phase), h.n]
  refine congrArg List.sum (List.map_congr_left fun len hlen => ?_)
  obtain ⟨h1, hle⟩ := (mem_lengths _ _).1 hlen
  exact h.counts len h1 hle

/-- While symbols are read some of the table's are still to come. -/
theorem rest_ne_nil (ht : TableOk lt ltMax ltNsym) (h : ReadsSymbolsOf lt ltMax rest ld) :
    rest ≠ [] := by
  rintro rfl
  have hlt := h.ok.loadedSymbols_length_lt h.phase
  rw [h.total ht, ht.nsym, ← h.symbols, List.append_nil] at hlt
  exact absurd hlt (Nat.lt_irrefl _)

/-- Kraft's test passes the counts of a table of R53 (R266). -/
theorem kraftOk_count (ht : TableOk lt ltMax ltNsym) (h : ReadsSymbolsOf lt ltMax rest ld) :
    kraftOk ld.count ld.n.toNat = true := by
  rw [kraftOk, Bool.or_eq_true, Bool.and_eq_true, decide_eq_true_eq, decide_eq_true_eq,
    decide_eq_true_eq, h.n]
  refine ht.kraft.imp (fun hk => ?_) fun ⟨sym, hlt⟩ => ?_
  · rw [← hk, kraftSum]
    refine congrArg List.sum (List.map_congr_left fun len hlen => ?_)
    obtain ⟨h1, hle⟩ := (mem_lengths _ _).1 hlen
    rw [h.counts len h1 hle]
  · have hmax : ltMax.toNat = 1 := by rw [← ht.size, hlt, List.length_singleton]
    exact ⟨hmax, by rw [h.counts 1 (le_refl 1) hmax.ge, hlt]; rfl⟩

variable (ht : TableOk lt ltMax ltNsym) (h : ReadsSymbolsOf lt ltMax (b :: rest) ld)
include ht h

/-- The next symbol of a table has not been read before. -/
theorem seen_next : ld.seen.getLsbD b.toNat = false := by
  have hnodup := ht.distinct
  rw [← h.symbols] at hnodup
  exact seen_eq_false_of_not_mem h.ok fun hm =>
    (List.disjoint_of_nodup_append hnodup) hm List.mem_cons_self

omit ht in
/-- With its next symbol a load reads the symbols of the same table still. -/
theorem nextSymbol (hok : LoadOk ld')
    (hld : ld' = { ld.withSymbol b with idx := ld'.idx, left := ld'.left, pos := ld'.pos }) :
    ReadsSymbolsOf lt ltMax rest ld' := by
  have hsymbols : loadedSymbols ld' = loadedSymbols ld ++ [b] := by
    rw [← h.ok.loadedSymbols_withSymbol h.phase b]
    exact Loader.loadedSymbols_congr (by rw [hld])
  rw [Loader.withSymbol_eq] at hld
  exact {
    ok := hok
    active := by rw [hld]; exact h.active
    phase := by rw [hld]; exact h.phase
    n := by rw [hld]; exact h.n
    counts := fun len h1 hle =>
      (Loader.count_congr (by rw [hld]) len).trans (h.counts len h1 hle)
    symbols := by rw [hsymbols, List.append_assoc, List.singleton_append, h.symbols] }

section completed
variable (hl : (ld.withSymbol b).left = 0#9) (hi : ld.n.toNat ≤ ld.idx.toNat)
include hl hi

/-- On the last symbol of all each length has as many symbols as in the table. -/
theorem completed_lengths : ((lengths ld.n.toNat).map (ld.withSymbol b).entry).map List.length =
    lt.map List.length := by
  conv_rhs => rw [← map_ltEntry_lengths lt]
  rw [ht.size, h.n, List.map_map, List.map_map]
  refine List.map_congr_left fun len hlen => ?_
  obtain ⟨h1, hle⟩ := (mem_lengths _ _).1 hlen
  exact (entry_length_of_left h.ok h.phase (h.seen_next ht) hl len
    (hle.trans (by rw [← h.n]; exact hi))).trans (h.counts len h1 hle)

omit hl in
/-- At length N no symbol read stands past the table the load completes. -/
theorem completed_flatten :
    ((lengths ld.n.toNat).map (ld.withSymbol b).entry).flatten ++ rest = lt.flatten := by
  obtain ⟨hentry, -⟩ := withSymbol_spec h.ok h.phase (h.seen_next ht)
  obtain ⟨-, hr⟩ := h.ok.range (by simp [h.phase])
  have hafter (len : Nat) (hlen : ld.n.toNat < len) : (ld.withSymbol b).entry len = [] := by
    rw [hentry, if_neg (by omega), h.ok.symsAfter h.phase len (by omega)]
  rw [← List.flatMap_def, ← flatMap_lengths_of_nil (Nat.le_of_lt_succ ld.n.isLt) hafter,
    ← loadedSymbols, h.ok.loadedSymbols_withSymbol h.phase, List.append_assoc,
    List.singleton_append, h.symbols]

/-- The last symbol of all completes the table whose header is read, and is its last symbol. -/
theorem completed : (lengths ld.n.toNat).map (ld.withSymbol b).entry = lt ∧ rest = [] := by
  have hlengths := h.completed_lengths ht hl hi
  have hflatten := h.completed_flatten ht hi
  have hnil : rest = [] := by
    have hlen := congrArg List.length hflatten
    rw [List.length_append, List.length_flatten, List.length_flatten, hlengths,
      Nat.add_eq_left] at hlen
    exact List.eq_nil_of_length_eq_zero hlen
  rw [hnil, List.append_nil] at hflatten
  exact ⟨List.eq_iff_flatten_eq.2 ⟨hflatten, hlengths⟩, hnil⟩

end completed

end ReadsSymbolsOf

/-- The symbols of a table that are still to come complete the load on the last one, with the table
itself (R266). -/
theorem execAll_symbols (ht : TableOk lt ltMax ltNsym) {s : State} (herr : s.err = false)
    (h : ReadsSymbolsOf lt ltMax rest s.ld) :
    execAll (rest.map .hdrByte) s = .next { s with
      lt := lt, ltMax := ltMax, ltNsym := ltNsym, ltValid := true, ld := Loader.idle } := by
  induction rest generalizing s with
  | nil => exact absurd rfl (h.rest_ne_nil ht)
  | cons b rest ih =>
    have hb := h.seen_next ht
    rw [List.map_cons]
    by_cases hl : (s.ld.withSymbol b).left = 0#9
    · rcases Nat.lt_or_ge s.ld.idx.toNat s.ld.n.toNat with hi | hi
      · rw [execAll_cons_of_next (exec_hdrByte_of_ok herr h.active
          (loadByte_of_last_of_length h.phase hb hl hi))]
        exact ih (s := s.afterLoad _) herr
          (h.nextSymbol (loadOk_nextLength h.ok h.phase hb hl hi) rfl)
      · obtain ⟨htable, rfl⟩ := h.completed ht hl hi
        have hload := loadByte_of_last_symbol (lMax := 255) h.phase hb hl hi
        rw [if_pos (h.kraftOk_count ht), htable, h.n, h.total ht] at hload
        exact execAll_cons_of_next (exec_hdrByte_of_ok herr h.active hload) []
    · rw [execAll_cons_of_next (exec_hdrByte_of_ok herr h.active
        (loadByte_of_symbol h.phase hb hl))]
      exact ih (s := s.afterLoad _) herr
        (h.nextSymbol (loadOk_moreSymbols h.ok h.phase hb hl) rfl)

/-! ### The round trip -/

/-- A load that has just begun completes with a table on the last byte of its header. -/
theorem execAll_headerBytes (ht : TableOk lt ltMax ltNsym) {s : State} (herr : s.err = false)
    (hld : s.ld = Loader.started) :
    execAll ((headerBytes lt ltMax).map .hdrByte) s = .next { s with
      lt := lt, ltMax := ltMax, ltNsym := ltNsym, ltValid := true, ld := Loader.idle } := by
  have hfirst := exec_hdrByte_of_ok herr (hld ▸ rfl)
    (loadByte_of_n (hld ▸ rfl) ht.ltMax_ne_zero (byte_le_hardware_lMax ltMax))
  obtain ⟨ld, hread, hcounts⟩ := execAll_counts ht (lt.flatten.map .hdrByte) (todo := lt)
    (s := s.afterLoad (.more { s.ld with n := ltMax, idx := 1#8, phase := .counts })) herr
    (readsCountsOf_firstByte (ld := s.ld) ht hld) rfl
  rw [headerBytes_eq ht.size, List.cons_append, List.map_cons, List.map_append,
    execAll_cons_of_next hfirst]
  exact hcounts.trans (execAll_symbols ht herr hread)

/-- What HDR_EMIT pushes is the header of the table held (R260). -/
theorem bytes_of_exec_hdrEmit {s t : State} {bytes : List Byte} (herr : s.err = false)
    (hexec : exec .hdrEmit s = .next t) (hterr : t.err = false)
    (hout : t.outq = s.outq ++ bytes) : bytes = headerBytes s.lt s.ltMax := by
  obtain ⟨hi, -⟩ | ⟨-, he, -⟩ | ⟨-, -, hr⟩ | ⟨e, -, -, -, rfl⟩ := exec_cases hexec
  · cases hi
  · simp [herr] at he
  · obtain ⟨-, rfl, -⟩ := hdrEmitResult_ok hr
    exact (List.append_cancel_left hout).symm
  · cases hterr

/-- Settles O40: the bytes are the table's header, and HDR_BEGIN starts the load that reads it. -/
theorem headerRoundTripRebuildsTheTable : Obligations.HeaderRoundTripRebuildsTheTable := by
  intro s t u bytes herr _ ht hexec hterr hout huerr he hd
  obtain rfl := bytes_of_exec_hdrEmit herr hexec hterr hout
  have hbegin := exec_of_ok (i := .hdrBegin) nofun huerr (hdrBeginResult_of_no_session he hd)
  rw [hdrLoad, execAll_cons_of_next hbegin]
  exact execAll_headerBytes ht huerr rfl

end Sys2Proof.Machine

/-! PROOFS. Errors: which commands raise SEQUENCE_ERROR, what an error writes, what still works while
ERR = 1, and how the error state is left (spec/60_exceptions.md rules R300 to R306). -/

namespace Sys2Proof.Machine

/-! ### The causes a command raises -/

/-- Every error this result raises meets Q. -/
def ErrorsMeet {α : Type} (Q : Raise → Prop) (r : Except Raise α) : Prop := ∀ e, r = .error e → Q e

namespace ErrorsMeet

variable {α : Type} {Q : Raise → Prop}

theorem ok (a : α) : ErrorsMeet Q (.ok a) := nofun

theorem error {e : Raise} (h : Q e) : ErrorsMeet Q (.error e : Except Raise α) := by
  rintro _ ⟨⟩
  exact h

theorem ite {c : Prop} [Decidable c] {a b : Except Raise α} (ha : c → ErrorsMeet Q a)
    (hb : ¬ c → ErrorsMeet Q b) : ErrorsMeet Q (if c then a else b) := by
  split
  · next h => exact ha h
  · next h => exact hb h

/-- A check that raises an error ahead of the rest of a command. -/
theorem check {c : Prop} [Decidable c] {e : Raise} {b : Except Raise α} (he : c → Q e)
    (hb : ¬ c → ErrorsMeet Q b) : ErrorsMeet Q (if c then .error e else b) :=
  ite (fun h => error (he h)) hb

end ErrorsMeet

/-- Every error of a header byte is MALFORMED_HEADER (R264 to R266). -/
theorem loadByte_errors {lMax : Nat} {ld : Loader} {b : Byte} :
    ErrorsMeet (·.cause = .malformedHeader) (loadByte lMax ld b) := by
  unfold loadByte
  split
  · exact .check (fun _ => rfl) fun _ => .ok _
  · exact .check (fun _ => rfl) fun _ => .ite (fun _ => .ok _) fun _ =>
      .check (fun _ => rfl) fun _ => .ok _
  · exact .check (fun _ => rfl) fun _ => .ite (fun _ => .ok _) fun _ =>
      .ite (fun _ => .ok _) fun _ => .ite (fun _ => .ok _) fun _ => .error rfl

/-- Every error of decoding bits is INVALID_DATA (R241, R242). -/
theorem decodeBits_errors {s : State} {bits : BitSeq} :
    ErrorsMeet (·.cause = .invalidData) (s.decodeBits bits) := by
  unfold State.decodeBits
  split
  · exact .error rfl
  · exact .ok _

theorem feedBits_errors {s : State} : ErrorsMeet (·.cause = .invalidData) s.feedBits :=
  .ite (fun _ => decodeBits_errors) fun _ => .ok _

/-! ### SEQUENCE_ERROR (R306) -/

section sequence
variable {p : Params} {i : Instr} {s : State}

/-- A command whose precondition fails raises SEQUENCE_ERROR with its OP byte. -/
theorem commandResult_of_sequenceFails (h : sequenceFails i s = true) :
    commandResult p i s = .error (sequenceError i.opcode) := by
  cases i with
  | nop | sreset | clrFreq => cases h
  | build | hdrBegin => exact if_pos h
  | derive | hdrEmit | hdrByte _ | enc _ | encFlush | decFeed _ | decFinish _ =>
    exact if_pos (Bool.not_eq_true' _ ▸ h)
  | assign =>
    simp only [sequenceFails, Bool.and_eq_true, Bool.not_eq_true'] at h
    exact (if_neg (by simp [h.2])).trans (if_pos h.1)

/-- A command raises SEQUENCE_ERROR only in its precondition check: every later check and the work
itself raise another cause. -/
theorem sequenceFails_of_sequenceError :
    ErrorsMeet (fun e => e.cause = .sequenceError → sequenceFails i s = true)
      (commandResult p i s) := by
  have hpush : ∀ (u : State) (out : List Byte) (P : Prop),
      ErrorsMeet (fun e => e.cause = .sequenceError → P) (pushIfRoom p u out) :=
    fun _ _ _ e he hc => by simp [pushIfRoom_eq_error he] at hc
  cases i with
  | nop => exact .ok _
  | sreset => exact .ok _
  | clrFreq => exact .ok _
  | build => exact .check (fun h _ => h) fun _ => .check nofun fun _ => .ok _
  | derive =>
    refine .check (fun h _ => by simp [sequenceFails, h]) fun _ => .check nofun fun _ =>
      .check nofun fun _ => ?_
    split
    · exact .error nofun
    · exact .ok _
  | assign =>
    exact .check nofun fun hl => .check (fun h _ => by simp [sequenceFails, h, hl]) fun _ => .ok _
  | hdrEmit => exact .check (fun h _ => by simp [sequenceFails, h]) fun _ => hpush _ _ _
  | hdrBegin => exact .check (fun h _ => h) fun _ => .ok _
  | hdrByte b =>
    refine .check (fun h _ => by simp [sequenceFails, h]) fun _ => ?_
    split
    · next r hr => exact .error fun hc => by simp [loadByte_errors r hr] at hc
    · exact .ok _
  | enc sym =>
    exact .check (fun h _ => by simp [sequenceFails, h]) fun _ => .check nofun fun _ => hpush _ _ _
  | encFlush => exact .check (fun h _ => by simp [sequenceFails, h]) fun _ => hpush _ _ _
  | decFeed b =>
    refine .check (fun h _ => by simp [sequenceFails, h]) fun _ => ?_
    split
    · next r hr => exact .error fun hc => by simp [feedBits_errors r hr] at hc
    · exact hpush _ _ _
  | decFinish pad =>
    refine .check (fun h _ => by simp [sequenceFails, h]) fun _ => .check nofun fun _ =>
      .check nofun fun _ => ?_
    split
    · next r hr => exact .error fun hc => by simp [decodeBits_errors r hr] at hc
    · exact .check nofun fun _ => hpush _ _ _

end sequence

/-! ### Taking an error (R301) -/

/-- A command's result leaves ERR and CAUSE alone. -/
theorem commandResult_err_cause {p : Params} {i : Instr} {s t : State} (hi : i ≠ .sreset)
    (h : commandResult p i s = .ok t) : t.err = s.err ∧ t.cause = s.cause := by
  cases i with
  | nop => cases h; exact ⟨rfl, rfl⟩
  | sreset => exact absurd rfl hi
  | clrFreq => cases h; exact ⟨rfl, rfl⟩
  | build => obtain ⟨-, -, -, -, rfl⟩ := buildResult_ok h; exact ⟨rfl, rfl⟩
  | derive => obtain ⟨-, -, -, -, rfl⟩ := deriveResult_ok h; exact ⟨rfl, rfl⟩
  | assign => obtain ⟨-, -, rfl⟩ := assignResult_ok h; exact ⟨rfl, rfl⟩
  | hdrEmit => obtain ⟨-, rfl, -⟩ := hdrEmitResult_ok h; exact ⟨rfl, rfl⟩
  | hdrBegin => obtain ⟨-, -, rfl⟩ := hdrBeginResult_ok h; exact ⟨rfl, rfl⟩
  | hdrByte b => obtain ⟨-, l, -, rfl⟩ := hdrByteResult_ok h; cases l <;> exact ⟨rfl, rfl⟩
  | enc sym => obtain ⟨-, -, -, rfl⟩ := encResult_ok h; exact ⟨rfl, rfl⟩
  | encFlush => obtain ⟨-, -, rfl⟩ := encFlushResult_ok h; exact ⟨rfl, rfl⟩
  | decFeed b => obtain ⟨-, _, _, -, -, rfl⟩ := decFeedResult_ok h; exact ⟨rfl, rfl⟩
  | decFinish pad => obtain ⟨-, -, -, _, -, -, rfl⟩ := decFinishResult_ok h; exact ⟨rfl, rfl⟩

/-- A cause is none or one of R300's codes 1 to 10. -/
theorem Cause.code_range {c : Cause} (h : c ≠ .none) : 1 ≤ c.code.toNat ∧ c.code.toNat ≤ 10 := by
  cases c with
  | none => exact absurd rfl h
  | _ => decide

/-- Settles O9: only a raised error sets ERR, and a raised error has a cause. -/
theorem anErrorDiscardsEveryOtherWrite : Obligations.AnErrorDiscardsEveryOtherWrite := by
  intro i s t herr hexec hterr
  obtain ⟨-, rfl⟩ | ⟨-, he, -⟩ | ⟨hi, -, hr⟩ | ⟨e, -, -, hr, rfl⟩ := exec_cases hexec
  · cases hterr
  · simp [herr] at he
  · simp [(commandResult_err_cause hi hr).1, herr] at hterr
  · exact ⟨rfl, Cause.code_range (RaisesACause.commandResult _ _ _ e hr)⟩

/-- Settles O11: each way by the precondition check, and no result writes CAUSE. -/
theorem sequenceErrorExactlyWhenThePreconditionFails :
    Obligations.SequenceErrorExactlyWhenThePreconditionFails := by
  refine fun i s herr => ⟨fun hf => ?_, fun t hexec hcause hnone => ?_⟩
  · have hi : i ≠ .sreset := by rintro rfl; cases hf
    exact exec_of_error hi herr (commandResult_of_sequenceFails hf)
  · obtain ⟨-, rfl⟩ | ⟨-, he, -⟩ | ⟨hi, -, hr⟩ | ⟨e, -, -, hr, rfl⟩ := exec_cases hexec
    · cases hcause
    · simp [herr] at he
    · simp [(commandResult_err_cause hi hr).2, hnone] at hcause
    · exact sequenceFails_of_sequenceError e hr hcause

/-! ### The error state (R302, R303) -/

/-- While ERR = 1 every command but SRESET is ignored. -/
theorem exec_of_err {i : Instr} {s : State} (he : s.err = true) (hi : i ≠ .sreset) :
    exec i s = .next s := by
  rw [exec_eq_completeCommand hi, completeCommand_err he]

/-- While ERR = 1 every word but SRESET's is ignored. -/
theorem issue_of_err {s : State} {w : Word} (he : s.err = true) (hw : w ≠ sresetWord) :
    s.issue w = s := if_pos ⟨he, hw⟩

/-- A read while idle records the register's value, at every offset. -/
theorem busRead_reads {s : State} (hb : s.busy = false) (off : Offset) :
    (s.busRead off).bus.reads = s.bus.reads ++ [⟨off, s.regWord (regAt off)⟩] := by
  rw [State.busRead, hb, if_neg (by simp), State.readIdle]
  split <;> rfl

/-- Settles O8, by which register each offset holds and the rule of its write or read. -/
theorem errorStateIgnoresEveryCommandButSreset :
    Obligations.ErrorStateIgnoresEveryCommandButSreset := by
  refine fun s he => ⟨fun i => exec_of_err he, fun hb => ⟨fun w hw => ?_, fun v => ?_, fun v => ?_,
    fun sym v => ?_, busRead_reads hb, ?_⟩⟩
  · exact (busWrite_idle hb _ w).trans (issue_of_err he hw)
  · exact busWrite_idle hb _ v
  · exact busWrite_idle hb _ v
  · rw [busWrite_idle hb, State.writeIdle, regAt_freqOffset]
  · obtain ⟨hpop, hempty, -⟩ := outDataReadPopsTheQueue s hb
    cases hq : s.outq with
    | nil => rw [hempty hq]; exact hq
    | cons b rest => rw [hpop b rest hq]; rfl

/-- An access of the host and the start of a command keep ERR. -/
theorem BlockKept.err {s t : State} (h : BlockKept s t) : t.err = s.err := by rw [h.1]

/-- A step that clears ERR completes an SRESET or serves the reset input. -/
theorem step_clearsErr {s t : State} (h : step s = .next t) (he : s.err = true)
    (ht : t.err = false) :
    (∃ c, s.cmd = some c ∧ c.word = sresetWord ∧ t = { s with cmd := none }.softReset) ∨
      ∃ rest, s.bus.pending = .reset :: rest ∧ t = (s.takeEvent rest).hardReset := by
  have absurd_of_kept {P : Prop} (hk : t.err = s.err) : P := by simp [hk, he] at ht
  obtain ⟨c, i, hc, -, hd, h⟩ | ⟨c, -, -, -, -, h⟩ | ⟨-, h⟩ := step_cases h
  · by_cases hi : i = .sreset
    · subst hi
      exact .inl ⟨c, hc, (decodeReadsExactlyTheEncodings _ _).1 hd, by simpa using h.symm⟩
    · rw [exec_of_err (s := { s with cmd := none }) he hi] at h
      cases h
      exact absurd_of_kept rfl
  · rw [execIllegal, completeCommand_err (s := { s with cmd := none }) he] at h
    cases h
    exact absurd_of_kept rfl
  · obtain ⟨-, rfl⟩ | ⟨e, rest, hp, h⟩ := serveHost_cases h
    · exact absurd_of_kept rfl
    obtain ⟨_, off, -, -, rfl⟩ | ⟨_, off, v, -, -, rfl⟩ | ⟨rfl, rfl⟩ := serveEvent_cases h
    · exact absurd_of_kept (blockKept_busRead _ off _).err
    · exact absurd_of_kept (blockKept_busWrite _ off v).err
    · exact .inr ⟨rest, hp, rfl⟩

/-- Settles O10: what clears ERR is a reset of one of the two kinds. -/
theorem onlySresetOrResetLeavesTheErrorState :
    Obligations.OnlySresetOrResetLeavesTheErrorState := by
  refine ⟨fun s t h he ht => ?_, fun s t _ h => ?_, fun s => rfl, fun s i he hi => exec_of_err he hi⟩
  · obtain ⟨c, hc, hw, rfl⟩ | ⟨rest, hp, rfl⟩ := step_clearsErr h he ht
    · exact ⟨.inl ⟨c, hc, hw⟩, rfl, rfl, rfl⟩
    · exact ⟨.inr ⟨rest, hp⟩, rfl, rfl, rfl⟩
  · rw [exec_sreset] at h
    cases h
    rfl

end Sys2Proof.Machine

/-! PROOFS. The most bytes a command pushes, what an access does while BUSY = 1, and the two resets
(spec/70_reset_and_hazards.md rules R340, R342, R346, R352). -/

namespace Sys2Proof.Machine

/-! ### The most bytes pushed (R346) -/

section room

variable {s : State}

theorem TableOk.ltNsym_le {lt : List (List Byte)} {ltMax : BitVec 8} {ltNsym : BitVec 9}
    (h : TableOk lt ltMax ltNsym) : ltNsym.toNat ≤ 256 :=
  h.nsym ▸ length_le_of_nodup h.distinct

theorem codeLength_le (s : State) (sym : Byte) : codeLength s sym ≤ 255 :=
  Nat.le_of_lt_succ (fileGet s.codeLen sym).isLt

theorem flushBytes_length_le (acc : BitSeq) : (flushBytes acc).length ≤ 2 := by
  by_cases hacc : acc = []
  · simp [hacc]
  · simp [flushBytes_of_ne_nil hacc]

theorem tailBits_length_le (s : State) (pad : Byte) : (s.tailBits pad).length ≤ 8 := by
  unfold State.tailBits
  split
  · exact (List.length_take_le' _ _).trans (byteBits_length _).le
  · simp

/-- DBITS always has room for one byte more (R243). -/
theorem BoundsOk.dbits_length_add_le (h : BoundsOk s) : s.dbits.length + 8 ≤ 262 := by
  have hmax := s.ltMax.isLt
  obtain hnil | hlt := h.dbits
  · simp [hnil]
  · omega

/-- Each symbol decoded costs at least one bit of DBITS or of the byte after it (R243). -/
theorem BoundsOk.decoded_length_le (h : BoundsOk s) {dmap : Nat → Nat → Option Byte} {maxLen : Nat}
    {last rest : BitSeq} {out : List Byte} (hlast : last.length ≤ 8)
    (hg : greedy dmap (s.dbits ++ last) maxLen = .ok (rest, out)) :
    out.length ≤ min (s.dbits.length + 8) 262 := by
  have hout := (greedy_ok hg).2
  have hfit := h.dbits_length_add_le
  rw [List.length_append] at hout
  omega

end room

/-- Settles O42: only a command that succeeds pushes, and each of the five that push has its bound. -/
theorem mostBytesACommandPushes : Obligations.MostBytesACommandPushes := by
  intro i s t hinv hi h
  have hbounds := hinv.core.bounds
  have hsame : ∀ {u : State} {n : Nat}, u.outq = s.outq → u.outq.length ≤ s.outq.length + n :=
    fun hu => hu ▸ Nat.le_add_right _ _
  obtain ⟨hs, -⟩ | ⟨-, -, rfl⟩ | ⟨-, -, hr⟩ | ⟨e, -, -, -, rfl⟩ := exec_cases h
  · exact absurd hs hi
  · exact hsame rfl
  · obtain hu | ⟨rfl | rfl | ⟨sym, rfl⟩ | ⟨b, rfl⟩ | ⟨pad, rfl⟩, -⟩ := commandResult_outq hi hr
    · exact hsame hu
    all_goals simp only [commandResult] at hr
    · obtain ⟨hvalid, rfl, -⟩ := hdrEmitResult_ok hr
      have htable := hinv.table hvalid
      have hsym := htable.ltNsym_le
      have hmax := s.ltMax.isLt
      simp only [State.pushBytes, List.length_append, htable.headerBytes_length]
      omega
    · obtain ⟨-, -, rfl⟩ := encFlushResult_ok hr
      simpa using flushBytes_length_le s.encAcc
    · obtain ⟨-, -, -, rfl⟩ := encResult_ok hr
      have hacc := hbounds.encAcc
      have hcode := codeLength_le s sym
      simp only [List.length_append, packBytes_length, encBits_length]
      omega
    · obtain ⟨-, rest, out, ⟨-, hg⟩ | ⟨-, -, rfl⟩, -, rfl⟩ := decFeedResult_ok hr
      · simpa using hbounds.decoded_length_le (byteBits_length s.hold).le hg
      · exact hsame (List.append_nil _)
    · obtain ⟨-, -, -, out, hg, -, rfl⟩ := decFinishResult_ok hr
      simpa using hbounds.decoded_length_le (tailBits_length_le s pad) hg
  · exact hsame rfl

/-! ### Accesses while BUSY = 1 (R352) -/

section busy

variable {s : State} (hb : s.busy = true)
include hb

theorem busRead_busy (off : Offset) (p : Params := Config.hardware) :
    s.busRead off p = s.readBusy p off := if_pos hb

/-- What a read while busy shows the host is what readBusy records. -/
theorem busRead_busy_reads {off : Offset} {v : Word}
    (h : s.readBusy Config.hardware off = s.recordRead off v) :
    (s.busRead off).bus.reads = s.bus.reads ++ [⟨off, v⟩] := by
  rw [busRead_busy hb, h]
  rfl

theorem busWrite_busy (off : Offset) (v : Word) : s.busWrite off v = s := if_pos hb

/-- A read while busy changes the host's side alone: it pops nothing. -/
theorem busRead_busy_frame (off : Offset) :
    s.busRead off = { s with bus := (s.busRead off).bus } := by
  obtain ⟨v, free, q, hread, rfl | ⟨hidle, -⟩⟩ := busRead_cases s off
  · rw [hread]
  · simp [hb] at hidle

end busy

/-- Each register that reads the same in every state of BUSY, and OUT_DATA, stands at one offset. -/
theorem regAt_ne_readWhileBusy {off : Offset}
    (h : off ∉ ([0x000#11, 0x004#11, 0x008#11, 0x00C#11, 0x01C#11] : List Offset)) :
    regAt off ≠ .id ∧ regAt off ≠ .param ∧ regAt off ≠ .ctrl ∧ regAt off ≠ .status ∧
      regAt off ≠ .outData := by
  simp only [List.mem_cons, List.not_mem_nil, or_false, not_or, ← BitVec.toNat_inj,
    BitVec.toNat_ofNat, Nat.reducePow, Nat.reduceMod] at h
  obtain ⟨hid, hparam, hctrl, hstatus, hout⟩ := h
  unfold regAt
  generalize off.toNat = o at hid hparam hctrl hstatus hout
  simp only [hid, hparam, hctrl, hstatus, hout, if_false]
  refine ⟨?_, ?_, ?_, ?_, ?_⟩
  all_goals
    repeat' (apply regIte_ne)
    all_goals exact Reg.noConfusion

/-- Any other register reads as a free value while busy (log 3). -/
theorem readBusy_of_unspecified {s : State} {off : Offset} {p : Params}
    (h : off ∉ ([0x000#11, 0x004#11, 0x008#11, 0x00C#11, 0x01C#11] : List Offset)) :
    s.readBusy p off = s.readFree off := by
  obtain ⟨hid, hparam, hctrl, hstatus, hout⟩ := regAt_ne_readWhileBusy h
  unfold State.readBusy
  split
  · next hreg => exact absurd hreg hstatus
  · next hreg => exact absurd hreg hid
  · next hreg => exact absurd hreg hparam
  · next hreg => exact absurd hreg hctrl
  · next hreg => exact absurd hreg hout
  · rfl

/-- Settles O55: a read while busy is readBusy, register by register; a write while busy is dropped. -/
theorem busyDropsAccesses : Obligations.BusyDropsAccesses := by
  intro s hb
  refine ⟨busWrite_busy hb, busRead_busy_reads hb rfl, busRead_busy_reads hb rfl, ?_,
    busRead_busy_reads hb rfl, busRead_busy_reads hb rfl, busRead_busy_reads hb rfl,
    fun off _ hoff => ⟨s.bus.freeReads, ?_⟩, busRead_busy_frame hb⟩
  · simp [getLsbD_statusWord, hb]
  · rw [busRead_busy hb, readBusy_of_unspecified hoff]
    rfl

/-! ### The two resets (R340, R342) -/

/-- Settles O12: SRESET is softReset, which takes every element but CTRL from the reset state. -/
theorem sresetRestoresEverythingButCtrl : Obligations.SresetRestoresEverythingButCtrl :=
  exec_sreset

/-- Settles O57: with no command due the step serves the reset input, and hardReset keeps only the
host's side, less the event taken. -/
theorem resetInputRestoresEverything : Obligations.ResetInputRestoresEverything := by
  intro s rest hp hc
  have hnotDue : ∀ c, s.cmd = some c → c.left ≠ 0 := by
    obtain hnone | ⟨w, k, hsome⟩ := hc
    · simp [hnone]
    · simp [hsome]
  rw [step_eq_serveEvent hnotDue hp]
  rfl

end Sys2Proof.Machine
